-- ==== Sys2Proof/Word.lean ====
section
/-!
DEFINITION. The words the block handles: bytes, 32-bit words, 16-byte blocks, 12-byte nonces, slot numbers, and
the bytewise exclusive-or of blocks (00_scope.md R8, R9, R10).
-/

namespace Sys2Proof

/-- A byte, bit 7 most significant (00_scope.md R8, R9). -/
abbrev Byte := BitVec 8

/-- A 32-bit word: a register, a command word, the data of a bus access (00_scope.md R9, 30_encoding.md R90). -/
abbrev Word := BitVec 32

/-- A block: a byte string of length 16, byte 0 at the left (00_scope.md R8). A key is a block. -/
abbrev Block := Vector Byte 16

/-- The CTR nonce, 12 bytes (00_scope.md R6). -/
abbrev Nonce := Vector Byte 12

/-- A context slot number as commands name it: the 4-bit `ctx` field (30_encoding.md R90, R91). -/
abbrev SlotId := BitVec 4

/-- The block `0^16` (00_scope.md R8). -/
def zeroBlock : Block := Vector.replicate 16 0

/-- `a xor b` on two blocks, bytewise (00_scope.md R10). -/
def blockXor (a b : Block) : Block := Vector.zipWith (· ^^^ ·) a b

end Sys2Proof
end

