-- ==== Sys2Proof/Config.lean ====
section
/-!
DEFINITION. The implementation parameters the source leaves open (00_scope.md R7) as one record with the legal
ranges attached, and the free values: what the spec leaves open, as constants with no body that no proof can
evaluate.
-/

namespace Sys2Proof

/-- Byte order of the 32-bit counter inside the counter block (00_scope.md R7, R10; 41_ctr.md R131). -/
inductive CtrOrder where
  /-- Byte 0 of `enc32 v` is `v[7:0]`. -/
  | le
  /-- Byte 0 of `enc32 v` is `v[31:24]`. -/
  | be
deriving DecidableEq, Repr

/-- The parameters of one realisation of the block that its rules read, each with its legal values
(00_scope.md R7). They are configuration: no step changes them. -/
structure Params where
  /-- `NCTX`, the number of context slots. -/
  nctx : Nat
  /-- `IBUF_SIZE`, the size of the input buffer in bytes. -/
  ibufSize : Nat
  /-- `CTR_ORDER`. -/
  ctrOrder : CtrOrder
  /-- Legal values of `NCTX`: at least 1. -/
  nctx_pos : 1 ≤ nctx
  /-- Legal values of `NCTX`: at most 16. -/
  nctx_le : nctx ≤ 16
  /-- Legal values of `IBUF_SIZE`: a multiple of 4. -/
  ibufSize_mul : ibufSize % 4 = 0
  /-- Legal values of `IBUF_SIZE`: at least 32. -/
  ibufSize_ge : 32 ≤ ibufSize
  /-- Legal values of `IBUF_SIZE`: at most 4092. -/
  ibufSize_le : ibufSize ≤ 4092
deriving DecidableEq, Repr

/-- The defaults of 00_scope.md R7: `NCTX = 8`, `IBUF_SIZE = 256`, `CTR_ORDER = LE`. -/
def Params.default : Params where
  nctx := 8
  ibufSize := 256
  ctrOrder := .le
  nctx_pos := by decide
  nctx_le := by decide
  ibufSize_mul := by decide
  ibufSize_ge := by decide
  ibufSize_le := by decide

/-- How one oracle invocation ends (40_oracle.md R110): a free choice made anew at every invocation, never a
function of the key and the block (R111 b). -/
inductive OracleDraw where
  /-- The invocation yields `Ok`. -/
  | ok
  /-- The invocation yields `Err(Timeout)`. -/
  | timeout
  /-- The invocation yields `Err(Fault)`. -/
  | fault
deriving DecidableEq, Repr, Inhabited

/-- FREE VALUE (40_oracle.md R111 b; 93_implementation_defined.md U1; assumption 2): how the `n`-th oracle
invocation ends when the state carries no draw supplied from outside. -/
opaque Config.oracleDraw : Nat → OracleDraw

/-- FREE VALUE (42_cmac.md R154, R156, R158; 60_exceptions.md R262; 93_implementation_defined.md U4; assumption
3): the contents of a CMAC context's block fields that an oracle failure leaves unspecified. -/
opaque Config.unspecifiedBlock : Nat → Block

/-- FREE VALUE (43_ckdf.md R185; 93_implementation_defined.md U20; assumption 4): whether iteration `i ≥ 2` of
`KDF.EXPAND` derives the subkeys of `prk` anew, with one more oracle invocation, or takes those it already has. -/
opaque Config.expandDerivesAnew : Nat → Bool

/-- OPEN PARAMETER (00_scope.md R7; 20_memory.md R71): `BASE` divided by 4. -/
opaque Config.baseWords : Nat

/-- `BASE`, the bus address of the block's first register, a multiple of 4 (20_memory.md R71). Every rule speaks
of offsets from it; none depends on its value. -/
def Config.base : Nat := 4 * Config.baseWords

/-- OPEN PARAMETER (00_scope.md R7; 40_oracle.md R122): `ORACLE_CEILING` less one. -/
opaque Config.oracleCeilingPred : Nat

/-- `ORACLE_CEILING`, positive (00_scope.md R7). No rule depends on its value (40_oracle.md R122). -/
def Config.oracleCeiling : Nat := Config.oracleCeilingPred + 1

end Sys2Proof
end

