-- ==== Sys2Proof/Syntax.lean ====
section
/-!
DEFINITION. The instructions: the eight commands of 30_encoding.md R93, one constructor for each row of
spec/opcode_table.json, with the operand fields each command uses (R90, R92). `CTR.ENC` and `CTR.DEC` are two
names for `CTR.CRYPT` (41_ctr.md R134) and have no constructor.
-/

namespace Sys2Proof

/-- A command (30_encoding.md R93). `ctx` is the slot number, `ilen` and `olen` the input and output lengths in
bytes, all unsigned and used as they stand (R92). -/
inductive Instr where
  /-- `CTR.INIT cN` (41_ctr.md R132). -/
  | ctrInit (ctx : SlotId)
  /-- `CTR.CRYPT cN, ilen` (41_ctr.md R133). -/
  | ctrCrypt (ctx : SlotId) (ilen : BitVec 12)
  /-- `CMAC.INIT cN` (42_cmac.md R154). -/
  | cmacInit (ctx : SlotId)
  /-- `CMAC.UPDATE cN, ilen` (42_cmac.md R156). -/
  | cmacUpdate (ctx : SlotId) (ilen : BitVec 12)
  /-- `CMAC.FINISH cN` (42_cmac.md R158). -/
  | cmacFinish (ctx : SlotId)
  /-- `CMAC.COMPUTE ilen` (42_cmac.md R160). -/
  | cmacCompute (ilen : BitVec 12)
  /-- `KDF.EXTRACT ilen` (43_ckdf.md R181). -/
  | kdfExtract (ilen : BitVec 12)
  /-- `KDF.EXPAND ilen, olen` (43_ckdf.md R183). -/
  | kdfExpand (ilen olen : BitVec 12)
deriving DecidableEq, Repr

end Sys2Proof
end

