-- ==== Sys2Proof/WellFormed.lean ====
section
/-!
DEFINITION. When a command is one the block's encoding admits: the slot it names exists (30_encoding.md R91, R94 c).
The widths of the fields are in the types of `Instr`; the length limits are no condition of the encoding (R93: a
word that matches a row may still fail by the command's own rule).
-/

namespace Sys2Proof

/-- The slot `ctx` exists in a realisation with parameters `p`: `ctx < NCTX` (30_encoding.md R91). -/
def slotExists (p : Params) (ctx : SlotId) : Bool := ctx.toNat < p.nctx

/-- A command is well formed when it takes no slot or the slot it names exists (30_encoding.md R94 c). -/
def wellFormed (p : Params) : Instr → Bool
  | .ctrInit ctx => slotExists p ctx
  | .ctrCrypt ctx _ => slotExists p ctx
  | .cmacInit ctx => slotExists p ctx
  | .cmacUpdate ctx _ => slotExists p ctx
  | .cmacFinish ctx => slotExists p ctx
  | .cmacCompute _ => true
  | .kdfExtract _ => true
  | .kdfExpand _ _ => true

end Sys2Proof
end

