-- ==== Sys2Proof/Decode.lean ====
section
/-!
DEFINITION. Decoding a command word, total on all 32-bit words (30_encoding.md R99), and encoding a command
(R90, R96); the table of match and mask values of R93.
-/

namespace Sys2Proof

/-- Why a command word is illegal (30_encoding.md R94). -/
inductive DecodeError where
  /-- R94 (a): `opcode` is `0x0`, `0x3` or `0xA` to `0xF`. -/
  | reservedOpcode
  /-- R94 (b): a field the command does not use is not zero. -/
  | unusedFieldNotZero
  /-- R94 (c): the command takes a slot and `ctx ≥ NCTX`. -/
  | noSuchSlot
  /-- Not four bytes: a command is one 32-bit word (R90). -/
  | notOneWord
deriving DecidableEq, Repr

/-- `w[31:28]` (30_encoding.md R90). -/
def opcodeField (w : Word) : BitVec 4 := w.extractLsb' 28 4

/-- `w[27:24]` (30_encoding.md R90). -/
def ctxField (w : Word) : SlotId := w.extractLsb' 24 4

/-- `w[23:12]` (30_encoding.md R90). -/
def olenField (w : Word) : BitVec 12 := w.extractLsb' 12 12

/-- `w[11:0]` (30_encoding.md R90). -/
def ilenField (w : Word) : BitVec 12 := w.extractLsb' 0 12

/-- The command `i` when the fields it does not use are zero and, where it takes a slot, the slot exists; else the
reason it is illegal (30_encoding.md R94, R99). -/
def checkFields (unusedZero slotOk : Bool) (i : Instr) : Except DecodeError Instr :=
  if !unusedZero then .error .unusedFieldNotZero
  else if !slotOk then .error .noSuchSlot
  else .ok i

/-- Decoding is total: every 32-bit word is a command or is illegal for a named reason (30_encoding.md R99). -/
def decode (p : Params) (w : Word) : Except DecodeError Instr :=
  let ctx := ctxField w
  let olen := olenField w
  let ilen := ilenField w
  match (opcodeField w).toNat with
  | 0x1 => checkFields (olen == 0 && ilen == 0) (slotExists p ctx) (.ctrInit ctx)
  | 0x2 => checkFields (olen == 0) (slotExists p ctx) (.ctrCrypt ctx ilen)
  | 0x4 => checkFields (olen == 0 && ilen == 0) (slotExists p ctx) (.cmacInit ctx)
  | 0x5 => checkFields (olen == 0) (slotExists p ctx) (.cmacUpdate ctx ilen)
  | 0x6 => checkFields (olen == 0 && ilen == 0) (slotExists p ctx) (.cmacFinish ctx)
  | 0x7 => checkFields (olen == 0 && ctx == 0) true (.cmacCompute ilen)
  | 0x8 => checkFields (olen == 0 && ctx == 0) true (.kdfExtract ilen)
  | 0x9 => checkFields (ctx == 0) true (.kdfExpand ilen olen)
  | _ => .error .reservedOpcode

/-- The word assembled from its four fields: `(opcode << 28) | (ctx << 24) | (olen << 12) | ilen`
(30_encoding.md R90). -/
def assemble (opcode : BitVec 4) (ctx : SlotId) (olen ilen : BitVec 12) : Word :=
  opcode ++ ctx ++ olen ++ ilen

/-- The word of a command (30_encoding.md R93, R96). -/
def encode : Instr → Word
  | .ctrInit ctx => assemble 0x1 ctx 0 0
  | .ctrCrypt ctx ilen => assemble 0x2 ctx 0 ilen
  | .cmacInit ctx => assemble 0x4 ctx 0 0
  | .cmacUpdate ctx ilen => assemble 0x5 ctx 0 ilen
  | .cmacFinish ctx => assemble 0x6 ctx 0 0
  | .cmacCompute ilen => assemble 0x7 0 0 ilen
  | .kdfExtract ilen => assemble 0x8 0 0 ilen
  | .kdfExpand ilen olen => assemble 0x9 0 olen ilen

/-- The 32-bit number of four bytes in the bus's lane order, the byte at the lowest offset first and least
significant (20_memory.md R61). -/
def wordOfBytes (b0 b1 b2 b3 : Byte) : Word := b3 ++ b2 ++ b1 ++ b0

/-- Decoding of the bytes of a write to `CMD`, the byte at the lowest offset first: total on any bytes
(30_encoding.md R90, R99; 20_memory.md R61). -/
def decodeBytes (p : Params) : List Byte → Except DecodeError Instr
  | [b0, b1, b2, b3] => decode p (wordOfBytes b0 b1 b2 b3)
  | _ => .error .notOneWord

/-- The bytes of a command in the bus's lane order (20_memory.md R61). -/
def encodeBytes (i : Instr) : List Byte :=
  let w := encode i
  [w.extractLsb' 0 8, w.extractLsb' 8 8, w.extractLsb' 16 8, w.extractLsb' 24 8]

/-- One row of the match and mask table of 30_encoding.md R93. -/
structure TableRow where
  /-- The mnemonic. -/
  mnemonic : String
  /-- `match`. -/
  pattern : Word
  /-- `mask`. -/
  mask : Word
deriving DecidableEq, Repr

/-- The table of 30_encoding.md R93. -/
def opcodeTable : List TableRow :=
  [⟨"CTR.INIT", 0x10000000, 0xF0FFFFFF⟩,
   ⟨"CTR.CRYPT", 0x20000000, 0xF0FFF000⟩,
   ⟨"CMAC.INIT", 0x40000000, 0xF0FFFFFF⟩,
   ⟨"CMAC.UPDATE", 0x50000000, 0xF0FFF000⟩,
   ⟨"CMAC.FINISH", 0x60000000, 0xF0FFFFFF⟩,
   ⟨"CMAC.COMPUTE", 0x70000000, 0xFFFFF000⟩,
   ⟨"KDF.EXTRACT", 0x80000000, 0xFFFFF000⟩,
   ⟨"KDF.EXPAND", 0x90000000, 0xFF000000⟩]

/-- The row's test: `w & mask = match` (30_encoding.md R93). -/
def TableRow.accepts (r : TableRow) (w : Word) : Bool := w &&& r.mask == r.pattern

/-- The mnemonic of a command (30_encoding.md R93). -/
def mnemonicOf : Instr → String
  | .ctrInit _ => "CTR.INIT"
  | .ctrCrypt _ _ => "CTR.CRYPT"
  | .cmacInit _ => "CMAC.INIT"
  | .cmacUpdate _ _ => "CMAC.UPDATE"
  | .cmacFinish _ => "CMAC.FINISH"
  | .cmacCompute _ => "CMAC.COMPUTE"
  | .kdfExtract _ => "KDF.EXTRACT"
  | .kdfExpand _ _ => "KDF.EXPAND"

/-- The command the decoder reads from a row's bits `w`, for the default parameters: the low `nbits` bits of `w` as
the four bytes of one command word, every bit above them 0. -/
def decodeTableWord (nbits w : Nat) : Option Instr :=
  let bits := BitVec.ofNat 32 (w % 2 ^ nbits)
  match decodeBytes Params.default
      [bits.extractLsb' 0 8, bits.extractLsb' 8 8, bits.extractLsb' 16 8, bits.extractLsb' 24 8] with
  | .ok i => some i
  | .error _ => none

end Sys2Proof
end

