-- ==== Sys2Proof/Machine/State.lean ====
section
/-!
DEFINITION. The state of the block as plain data (10_state.md R22 to R34), the events the outside world presents to
it (20_memory.md R74, R80), the reasons a step stops, and the state after reset (10_state.md R50).
-/

namespace Sys2Proof.Machine

/-- Where a CMAC context is in its lifecycle (10_state.md R26, R28). -/
inductive MacPhase where
  /-- `Uninit` = 0. -/
  | uninit
  /-- `Ready` = 1. -/
  | ready
  /-- `Finished` = 2. -/
  | finished
deriving DecidableEq, Repr

/-- AesCtrContext (10_state.md R24). -/
structure AesCtrContext where
  /-- AES key of the stream. -/
  key : Block
  /-- First 12 bytes of every counter block. -/
  nonce : Nonce
  /-- The counter's value; `CNT[i]` reads and writes it. -/
  counter : Word
  /-- The oracle's last answer for this slot, a scratch block no rule reads afterwards. -/
  keystream : Block
  /-- True once `CTR.INIT` has run on the slot. -/
  init : Bool
deriving DecidableEq, Repr

/-- CmacContext (10_state.md R26). -/
structure CmacContext where
  /-- The CMAC key `K`. -/
  key : Block
  /-- Subkey `K1`. -/
  key1 : Block
  /-- Subkey `K2`. -/
  key2 : Block
  /-- The bytes buffered for the current block; `acc[0..partialLength-1]` are valid. -/
  acc : Block
  /-- The oracle's answer for the last folded block. -/
  prev : Block
  /-- Bytes buffered in the current block, 5 bits, 0 to 16. -/
  partialLength : BitVec 5
  /-- Whether a prior full block has been folded in. -/
  multiblock : Bool
  /-- Where the context is in its lifecycle. -/
  phase : MacPhase
deriving DecidableEq, Repr

/-- A context slot: one AesCtrContext and one CmacContext (10_state.md R23). -/
structure Slot where
  /-- `ctx[i].ctr`. -/
  ctr : AesCtrContext
  /-- `ctx[i].mac`. -/
  mac : CmacContext
deriving DecidableEq, Repr

/-- The byte storage of the window by byte offset from `BASE` (10_state.md R35): `KBUF` at `0x40`, `IBUF` at `0x1000`,
`OBUF` at `0x2000`. Addresses strictly rising, no entry equal to what an unlisted address reads as. -/
abbrev Memory := List Host.Cell

/-- Width of a bus access: 1, 2 or 4 bytes; no other width exists (20_memory.md R67). -/
inductive Width where
  /-- 1 byte. -/
  | byte
  /-- 2 bytes. -/
  | half
  /-- 4 bytes. -/
  | word
deriving DecidableEq, Repr

/-- A host bus access at a byte offset from `BASE` (20_memory.md R64, R65). It carries no agent identity (R80). -/
inductive Access where
  /-- `MemRead(off, n)`. -/
  | read (off : Nat) (n : Width)
  /-- `MemWrite(off, n, v)`: the low bytes of `v`, as many as `n` says, are the number written. -/
  | write (off : Nat) (n : Width) (v : Word)
deriving DecidableEq, Repr

/-- One place in the total order of 20_memory.md R74. -/
inductive Event where
  /-- A bus access of some host agent. -/
  | host (a : Access)
  /-- A turn of the engine: the perform step when it is enabled (44_control.md R206, R207). -/
  | engine
  /-- The reset event (70_reset_and_hazards.md R300). -/
  | reset
deriving DecidableEq, Repr

/-- What the bus answered to the latest host access. -/
inductive Reply where
  /-- No access has been answered since reset. -/
  | none
  /-- A read returned this number (20_memory.md R64), zero-extended. -/
  | data (v : Word)
  /-- A write was admitted. -/
  | written
deriving DecidableEq, Repr

/-- The oracle's draws as an input of the perform step (40_oracle.md R111 b). -/
structure OracleInput where
  /-- How the coming invocations end, the next first, as far as the outside world has settled it. -/
  draws : List OracleDraw
  /-- How many invocations have been made. Past the end of `draws` it selects the free value
  `Config.oracleDraw calls`. -/
  calls : Nat
deriving DecidableEq, Repr

/-- The whole state. From `slots` to `oracleFails` it is the architectural state of 10_state.md R22; the other fields
are the MODEL's own and stand for what R22 calls configuration and inputs, and for the index of free values. -/
structure State where
  /-- MODEL's own: the parameters of this realisation (00_scope.md R7). No step changes them. -/
  cfg : Params
  /-- `ctx[0..NCTX-1]` (R23). The places `NCTX..15` stand for no slot: nothing reaches them. -/
  slots : Vector Slot 16
  /-- The private CMAC context of the KDF and of `CMAC.COMPUTE` (R29). -/
  kctx : CmacContext
  /-- `KBUF`, `IBUF` and `OBUF` (R30, R31, R32). -/
  mem : Memory
  /-- `CMDLATCH`, the command word in flight (R33). -/
  cmdLatch : Word
  /-- `BUSY`: some host agent holds the claim (R34). -/
  busy : Bool
  /-- `RUN`: a command is in flight (R34). -/
  run : Bool
  /-- `DONE`: `result` belongs to the most recently issued command (R34). -/
  done : Bool
  /-- `RESULT` (R34). -/
  result : Byte
  /-- `COLLISIONS` (R40). -/
  collisions : Word
  /-- `ORACLE_FAILS` (R41). -/
  oracleFails : Word
  /-- MODEL's own: what the outside world presents next, in the total order of 20_memory.md R74. -/
  inbox : List Event
  /-- MODEL's own: the bus's answer to the latest host access. -/
  reply : Reply
  /-- MODEL's own: the oracle's draws (40_oracle.md R111 b). -/
  oracle : OracleInput
  /-- MODEL's own: how many times free values have been taken for fields the spec leaves unspecified. -/
  freeCount : Nat
deriving DecidableEq, Repr

/-- Why the block refuses a bus access (20_memory.md R70). The block itself records none of this (60_exceptions.md
R270): the cause says which clause of R70 a reader finds satisfied first. -/
inductive AccessCause where
  /-- R70 (a): the offset is reserved or outside the window. -/
  | reserved
  /-- R70 (b): misaligned. -/
  | misaligned
  /-- R70 (c): the width is not admitted there. -/
  | width
  /-- R70 (d): a read of a write-only place or a write of a read-only place. -/
  | direction
  /-- R70 (e): a command is in flight and R72 does not admit the access. -/
  | running
deriving DecidableEq, Repr

/-- How a step stops with a fault. -/
inductive Fault where
  /-- `AccessFault` (60_exceptions.md R270): raised by a host access that 20_memory.md R70 refuses. Safe: the access
  has no effect on the block, and R70 asks for a fault outcome of the host agent's step. -/
  | accessFault (cause : AccessCause)
deriving DecidableEq, Repr

/-- How a step is refused. -/
inductive Refusal where
  /-- Raised only by an arm of `exec` whose instruction has no meaning yet; no arm is left that does. Safe. -/
  | notModelled (mnemonic : String)
deriving DecidableEq, Repr

/-- An AesCtrContext after reset (10_state.md R50). R50 gives `counter` and `init`; the zero key, nonce and keystream
are the model's (DESIGN CHOICE, assumption 1). -/
def AesCtrContext.reset : AesCtrContext where
  key := zeroBlock
  nonce := Vector.replicate 12 0
  counter := 0
  keystream := zeroBlock
  init := false

/-- A CmacContext after reset (10_state.md R50). R50 gives `partialLength`, `multiblock` and `phase`; the zero blocks
are the model's (DESIGN CHOICE, assumption 1). -/
def CmacContext.reset : CmacContext where
  key := zeroBlock
  key1 := zeroBlock
  key2 := zeroBlock
  acc := zeroBlock
  prev := zeroBlock
  partialLength := 0
  multiblock := false
  phase := .uninit

/-- A slot after reset (10_state.md R50). -/
def Slot.reset : Slot where
  ctr := AesCtrContext.reset
  mac := CmacContext.reset

/-- The block with parameters `p` right after reset (10_state.md R50): the buffers all zero (nothing listed), no
event waiting, no draw settled. `CMDLATCH` is unspecified by R50 and zero here (DESIGN CHOICE, assumption 1). -/
def State.resetWith (p : Params) : State where
  cfg := p
  slots := Vector.replicate 16 Slot.reset
  kctx := CmacContext.reset
  mem := []
  cmdLatch := 0
  busy := false
  run := false
  done := false
  result := 0
  collisions := 0
  oracleFails := 0
  inbox := []
  reply := .none
  oracle := { draws := [], calls := 0 }
  freeCount := 0

/-- The machine right after reset, with the default parameters of 00_scope.md R7 (10_state.md R50). -/
def State.reset : State := State.resetWith Params.default

end Sys2Proof.Machine
end

