-- ==== Sys2Proof/Machine/Flags.lean ====
section
/-!
DEFINITION. The block's status: result codes (60_exceptions.md R260), the `STATUS` and `CTXSTAT[i]` words
(10_state.md R37, R43), and what the end of a perform step writes (44_control.md R206). The block has no arithmetic
condition codes (10_state.md R34).
-/

namespace Sys2Proof.Machine

/-- The error of a failed oracle invocation (40_oracle.md R110). -/
inductive OracleError where
  /-- A bounded-wait timeout. -/
  | timeout
  /-- A reported hardware fault. -/
  | fault
deriving DecidableEq, Repr

/-- How a command ends (60_exceptions.md R260). -/
inductive CommandResult where
  /-- The command did all its rule says. -/
  | ok
  /-- An oracle invocation failed. -/
  | oracleFailure (e : OracleError)
  /-- `CTR.CRYPT` with `ilen > 16`. -/
  | lengthFailure
  /-- `KDF.EXPAND` with `olen > 4080`. -/
  | protocolBoundsFailure
  /-- An illegal command word (30_encoding.md R94). -/
  | illegalCommand
  /-- A slot that is not ready for the command. -/
  | sequenceFailure
  /-- `ilen > IBUF_SIZE`. -/
  | operandRange
  /-- A write to `CMD` while `BUSY = 0` (44_control.md R204). -/
  | noClaim
deriving DecidableEq, Repr

/-- The 8-bit code of a result (60_exceptions.md R260). -/
def CommandResult.code : CommandResult → Byte
  | .ok => 0x00
  | .oracleFailure .timeout => 0x01
  | .oracleFailure .fault => 0x02
  | .lengthFailure => 0x03
  | .protocolBoundsFailure => 0x04
  | .illegalCommand => 0x05
  | .sequenceFailure => 0x06
  | .operandRange => 0x07
  | .noClaim => 0x08

/-- `ORACLE_FAILS` after a perform step that ended with `r`: one more, modulo 2^32, when `r` is an oracle failure
(10_state.md R41, 44_control.md R206). -/
def CommandResult.countFail (r : CommandResult) (n : Word) : Word :=
  match r with
  | .oracleFailure _ => n + 1
  | _ => n

/-- One bit of a register as a number. -/
def bit (b : Bool) : BitVec 1 := BitVec.ofBool b

/-- The two bits of `CMAC_PHASE` (10_state.md R26, R43). -/
def MacPhase.code : MacPhase → BitVec 2
  | .uninit => 0
  | .ready => 1
  | .finished => 2

/-- `STATUS` (10_state.md R37): bit 0 `BUSY`, bit 1 `RUN`, bit 2 `DONE`, bits 15:8 `RESULT`, the rest 0. -/
def statusWord (s : State) : Word :=
  (0 : BitVec 16) ++ s.result ++ (0 : BitVec 5) ++ bit s.done ++ bit s.run ++ bit s.busy

/-- `CTXSTAT[i]` of a slot (10_state.md R43): bit 0 `CTR_INIT`, bits 2:1 `CMAC_PHASE`, bit 3 `MULTIBLOCK`, bits 8:4
`PARTIAL_LENGTH`, the rest 0. -/
def ctxstatWord (sl : Slot) : Word :=
  (0 : BitVec 23) ++ sl.mac.partialLength ++ bit sl.mac.multiblock ++ sl.mac.phase.code ++ bit sl.ctr.init

end Sys2Proof.Machine
end

