-- ==== Sys2Proof/Machine/Ops.lean ====
section
/-!
DEFINITION. The named operations over the window's bytes, the context slots and the end of a command, which the
meanings share.
-/

namespace Sys2Proof.Machine

/-! ### Bytes of the window -/

/-- What an address no entry lists reads as: the buffers are all `0x00` after reset (10_state.md R50). -/
def unlistedByte : Byte := 0x00

/-- One byte of the window's storage. -/
def Memory.read : Memory → Nat → Byte
  | [], _ => unlistedByte
  | (k, b) :: rest, a => if k = a then b else Memory.read rest a

/-- The cell for `b` at `a` in front of `rest`, left out when `b` is what an unlisted address reads as. -/
def Memory.cons (a : Nat) (b : Byte) (rest : Memory) : Memory :=
  if b = unlistedByte then rest else (a, b) :: rest

/-- Write one byte, keeping the canonical form. -/
def Memory.write : Memory → Nat → Byte → Memory
  | [], a, b => Memory.cons a b []
  | (k, c) :: rest, a, b =>
    if a < k then Memory.cons a b ((k, c) :: rest)
    else if a = k then Memory.cons a b rest
    else (k, c) :: Memory.write rest a b

/-- `n` bytes from `a` upward, in string order (20_memory.md R62). -/
def Memory.readBytes (m : Memory) (a : Nat) : Nat → List Byte
  | 0 => []
  | n + 1 => m.read a :: Memory.readBytes m (a + 1) n

/-- Write a byte string from `a` upward, its first byte at `a` (20_memory.md R62). -/
def Memory.writeBytes (m : Memory) (a : Nat) : List Byte → Memory
  | [] => m
  | b :: bs => Memory.writeBytes (m.write a b) (a + 1) bs

/-- Every address listed is at least `lo`, the addresses rise strictly, and no entry is what an unlisted address
reads as. -/
def Memory.wfFrom (lo : Nat) : Memory → Bool
  | [] => true
  | (k, b) :: rest => decide (lo ≤ k) && decide (b ≠ unlistedByte) && Memory.wfFrom (k + 1) rest

/-- The canonical form of the window's storage. -/
def Memory.wf (m : Memory) : Bool := Memory.wfFrom 0 m

/-- Offset of `KBUF[0]` (10_state.md R35, R44). -/
def kbufBase : Nat := 0x0040

/-- Size of `KBUF` (10_state.md R30). -/
def kbufSize : Nat := 32

/-- Offset of `IBUF[0]` (10_state.md R35, R45). -/
def ibufBase : Nat := 0x1000

/-- Offset of `OBUF[0]` (10_state.md R35, R46). -/
def obufBase : Nat := 0x2000

/-- Size of `OBUF` (10_state.md R32). -/
def obufSize : Nat := 4080

/-- `KBUF[j]` (10_state.md R30). -/
def State.kbuf (s : State) (j : Nat) : Byte := s.mem.read (kbufBase + j)

/-- `IBUF[j]` (10_state.md R31). -/
def State.ibuf (s : State) (j : Nat) : Byte := s.mem.read (ibufBase + j)

/-- `OBUF[j]` (10_state.md R32). -/
def State.obuf (s : State) (j : Nat) : Byte := s.mem.read (obufBase + j)

/-! ### Updates of the state -/

/-- Replace the window's bytes. -/
def State.setMem (s : State) (m : Memory) : State := { s with mem := m }

/-- Replace the oracle input. -/
def State.setOracle (s : State) (o : OracleInput) : State := { s with oracle := o }

/-- Replace the private CMAC context (10_state.md R29). -/
def State.setKctx (s : State) (c : CmacContext) : State := { s with kctx := c }

/-- Replace the answer to the latest host access. -/
def State.setReply (s : State) (r : Reply) : State := { s with reply := r }

/-- Replace the events still to come. -/
def State.setInbox (s : State) (q : List Event) : State := { s with inbox := q }

/-- `ctx[i]` (10_state.md R23). -/
def State.slot (s : State) (i : SlotId) : Slot := s.slots[i.toNat]

/-- Replace `ctx[i]`. -/
def State.setSlot (s : State) (i : SlotId) (sl : Slot) : State := { s with slots := s.slots.set i.toNat sl }

/-- Replace `ctx[i].ctr`; the slot's CmacContext is untouched (10_state.md R23). -/
def State.setCtr (s : State) (i : SlotId) (c : AesCtrContext) : State := s.setSlot i { s.slot i with ctr := c }

/-- Replace `ctx[i].mac`; the slot's AesCtrContext is untouched (10_state.md R23). -/
def State.setMac (s : State) (i : SlotId) (c : CmacContext) : State := s.setSlot i { s.slot i with mac := c }

/-- A CMAC context after an oracle failure (60_exceptions.md R262): `phase`, `partial_length` and `multiblock` as the
rule says, the other fields unspecified. `n` selects the free values (assumption 3). -/
def lostContext (n : Nat) : CmacContext where
  key := Config.unspecifiedBlock (5 * n)
  key1 := Config.unspecifiedBlock (5 * n + 1)
  key2 := Config.unspecifiedBlock (5 * n + 2)
  acc := Config.unspecifiedBlock (5 * n + 3)
  prev := Config.unspecifiedBlock (5 * n + 4)
  partialLength := 0
  multiblock := false
  phase := .uninit

/-- Lose `ctx[i].mac` to an oracle failure (60_exceptions.md R262). -/
def State.loseMac (s : State) (i : SlotId) : State :=
  { s.setMac i (lostContext s.freeCount) with freeCount := s.freeCount + 1 }

/-- Lose the private context to an oracle failure (60_exceptions.md R262). -/
def State.loseKctx (s : State) : State :=
  { s.setKctx (lostContext s.freeCount) with freeCount := s.freeCount + 1 }

/-! ### The end of a command -/

/-- The end of every perform step (44_control.md R206), and so the one way a command failure is reported: `RESULT`
takes the code, `DONE` is set, `RUN` is cleared, an oracle failure is counted, and nothing else changes. `BUSY`
stays. There is nothing to save and nothing to restore (60_exceptions.md R262, R263, R268, R269). -/
def endCommand (r : CommandResult) (s : State) : State :=
  { s with result := r.code, done := true, run := false, oracleFails := r.countFail s.oracleFails }

/-- The command names slot `i`: go on when the slot exists, else `fail IllegalCommand` (30_encoding.md R94 c). -/
def onSlot (i : SlotId) (s : State) (f : State → State) : State :=
  if slotExists s.cfg i then f s else endCommand .illegalCommand s

end Sys2Proof.Machine
end

