-- ==== Sys2Proof/Machine/Operands.lean ====
section
/-!
DEFINITION. The operands of the commands: the one addressing mode of 30_encoding.md R101, and the byte strings the
algorithms make of numbers (20_memory.md R62).
-/

namespace Sys2Proof.Machine

/-- The key-role operand `KBUF[0..15]` (10_state.md R30, 30_encoding.md R101). -/
def keyOperand (s : State) : Block := Vector.ofFn fun i : Fin 16 => s.kbuf i.val

/-- The nonce operand `KBUF[16..27]` (10_state.md R30, 30_encoding.md R101). -/
def nonceOperand (s : State) : Nonce := Vector.ofFn fun i : Fin 12 => s.kbuf (16 + i.val)

/-- The data operand `IBUF[0..n-1]` (10_state.md R31, 30_encoding.md R101). -/
def dataOperand (s : State) (n : Nat) : List Byte := s.mem.readBytes ibufBase n

/-- Deliver a result: `OBUF[0..len-1]` takes the bytes, the rest of `OBUF` stays (10_state.md R32). -/
def storeResult (bs : List Byte) (s : State) : State := s.setMem (s.mem.writeBytes obufBase bs)

/-- `enc32(v)`: the four bytes of a 32-bit number in byte order `CTR_ORDER` (00_scope.md R10). -/
def enc32 (order : CtrOrder) (v : Word) : Vector Byte 4 :=
  match order with
  | .le => #v[v.extractLsb' 0 8, v.extractLsb' 8 8, v.extractLsb' 16 8, v.extractLsb' 24 8]
  | .be => #v[v.extractLsb' 24 8, v.extractLsb' 16 8, v.extractLsb' 8 8, v.extractLsb' 0 8]

/-- The first 16 bytes of a byte string as a block, zeros after its end. -/
def blockOfBytes (bs : List Byte) : Block := Vector.ofFn fun i : Fin 16 => bs.getD i.val 0

end Sys2Proof.Machine
end

