-- ==== Sys2Proof/Machine/Bus.lean ====
section
/-!
DEFINITION. The host's accesses to the window (20_memory.md R60 to R73): the map of 10_state.md R35, which accesses
are admitted, what a read returns and a write does, and the control registers (44_control.md R201, R202, R204).
-/

namespace Sys2Proof.Machine

/-- What stands at an offset of the window (10_state.md R35). -/
inductive Place where
  /-- `CMD`. -/
  | cmd
  /-- `STATUS`. -/
  | status
  /-- `ACQUIRE`. -/
  | acquire
  /-- `RELEASE`. -/
  | release
  /-- `COLLISIONS`. -/
  | collisions
  /-- `ORACLE_FAILS`. -/
  | oracleFails
  /-- The `KBUF` window. -/
  | kbuf
  /-- `CNT[i]`. -/
  | cnt (i : SlotId)
  /-- `CTXSTAT[i]`. -/
  | ctxstat (i : SlotId)
  /-- The `IBUF` window. -/
  | ibuf
  /-- The `OBUF` window. -/
  | obuf
  /-- Reserved or outside the window (R47). -/
  | reserved
deriving DecidableEq, Repr

/-- The map of 10_state.md R35. -/
def placeOf (p : Params) (off : Nat) : Place :=
  if off < 0x0004 then .cmd
  else if off < 0x0008 then .status
  else if off < 0x000C then .acquire
  else if off < 0x0010 then .release
  else if off < 0x0014 then .collisions
  else if off < 0x0018 then .oracleFails
  else if off < 0x0040 then .reserved
  else if off < 0x0060 then .kbuf
  else if off < 0x0100 then .reserved
  else if off < 0x0100 + 4 * p.nctx then .cnt (BitVec.ofNat 4 ((off - 0x0100) / 4))
  else if off < 0x0140 then .reserved
  else if off < 0x0140 + 4 * p.nctx then .ctxstat (BitVec.ofNat 4 ((off - 0x0140) / 4))
  else if off < 0x1000 then .reserved
  else if off < 0x1000 + p.ibufSize then .ibuf
  else if off < 0x2000 then .reserved
  else if off < 0x2FF0 then .obuf
  else .reserved

/-- Number of bytes of a width (20_memory.md R67). -/
def Width.bytes : Width → Nat
  | .byte => 1
  | .half => 2
  | .word => 4

/-- Whether a place admits every width or 32-bit accesses only (20_memory.md R67). -/
def Place.anyWidth : Place → Bool
  | .kbuf | .ibuf | .obuf => true
  | _ => false

/-- Whether a place can be read at all (10_state.md R35; 20_memory.md R70 d). -/
def Place.readable : Place → Bool
  | .cmd | .release | .kbuf | .reserved => false
  | _ => true

/-- Whether a place can be written at all (10_state.md R35; 20_memory.md R70 d). -/
def Place.writable : Place → Bool
  | .cmd | .release | .kbuf | .cnt _ | .ibuf => true
  | _ => false

/-- Whether an access in its direction is admitted while a command is in flight (20_memory.md R72): reads of
`STATUS`, `ACQUIRE`, `COLLISIONS`, `ORACLE_FAILS`, and writes to `CMD`. -/
def Place.whileRunning : Place → Bool
  | .status | .acquire | .collisions | .oracleFails | .cmd => true
  | _ => false

/-- Why an access at `off` of `n` bytes is refused, if it is (20_memory.md R70): `dirOk` says whether the place
admits the access's direction. -/
def refuseWhy (s : State) (off : Nat) (n : Width) (dirOk : Place → Bool) : Option AccessCause :=
  let place := placeOf s.cfg off
  if place = .reserved then some .reserved
  else if off % n.bytes ≠ 0 then some .misaligned
  else if !place.anyWidth && n ≠ .word then some .width
  else if !dirOk place then some .direction
  else if s.run && !place.whileRunning then some .running
  else none

/-- Why the block refuses a bus access, if it does (20_memory.md R70, R72). -/
def refusal (s : State) : Access → Option AccessCause
  | .read off n => refuseWhy s off n Place.readable
  | .write off n _ => refuseWhy s off n Place.writable

/-- The `n`-byte number at window offset `off`, the byte at the lowest offset least significant (20_memory.md R61,
R64). -/
def readLanes (m : Memory) (off : Nat) : Width → Word
  | .byte => (m.read off).setWidth 32
  | .half => (m.read (off + 1) ++ m.read off : BitVec 16).setWidth 32
  | .word => m.read (off + 3) ++ m.read (off + 2) ++ m.read (off + 1) ++ m.read off

/-- The bytes of an `n`-byte number in lane order (20_memory.md R61, R65). -/
def laneBytes (v : Word) : Width → List Byte
  | .byte => [v.extractLsb' 0 8]
  | .half => [v.extractLsb' 0 8, v.extractLsb' 8 8]
  | .word => [v.extractLsb' 0 8, v.extractLsb' 8 8, v.extractLsb' 16 8, v.extractLsb' 24 8]

/-- One more collision, modulo 2^32 (10_state.md R40). -/
def countCollision (s : State) : State := { s with collisions := s.collisions + 1 }

/-- A read of `ACQUIRE` (44_control.md R201): the test-and-set, with the number it returns. -/
def acquireClaim (s : State) : Word × State :=
  if s.busy then (0x00000000, countCollision s) else (0x00000001, { s with busy := true })

/-- A write of `RELEASE` while no command is in flight (44_control.md R202). -/
def releaseClaim (s : State) : State := { s with busy := false }

/-- A write of `w` to `CMD` (44_control.md R204): abandoned and counted while a command is in flight, refused with
`NoClaim` while nobody holds the claim, else accepted. No decoding happens here. -/
def issue (w : Word) (s : State) : State :=
  if s.run then countCollision s
  else if !s.busy then { s with result := CommandResult.noClaim.code, done := true }
  else { s with cmdLatch := w, run := true, done := false }

/-- The number an admitted read returns, and the state after it; only `ACQUIRE` changes state (20_memory.md R64). -/
def readPlace (off : Nat) (n : Width) (s : State) : Word × State :=
  match placeOf s.cfg off with
  | .acquire => acquireClaim s
  | .status => (statusWord s, s)
  | .collisions => (s.collisions, s)
  | .oracleFails => (s.oracleFails, s)
  | .cnt i => ((s.slot i).ctr.counter, s)
  | .ctxstat i => (ctxstatWord (s.slot i), s)
  | .ibuf => (readLanes s.mem off n, s)
  | .obuf => (readLanes s.mem off n, s)
  | .cmd => (0, s)
  | .release => (0, s)
  | .kbuf => (0, s)
  | .reserved => (0, s)

/-- The state after an admitted write (20_memory.md R65). -/
def writePlace (off : Nat) (n : Width) (v : Word) (s : State) : State :=
  match placeOf s.cfg off with
  | .cmd => issue v s
  | .release => releaseClaim s
  | .cnt i => s.setCtr i { (s.slot i).ctr with counter := v }
  | .kbuf => s.setMem (s.mem.writeBytes off (laneBytes v n))
  | .ibuf => s.setMem (s.mem.writeBytes off (laneBytes v n))
  | .status => s
  | .acquire => s
  | .collisions => s
  | .oracleFails => s
  | .ctxstat _ => s
  | .obuf => s
  | .reserved => s

/-- `MemRead(off, n)` (20_memory.md R64). -/
def memRead (off : Nat) (n : Width) (s : State) : Host.Outcome State Fault Refusal :=
  match refusal s (.read off n) with
  | some cause => .fault (.accessFault cause)
  | none => .next ((readPlace off n s).2.setReply (.data (readPlace off n s).1))

/-- `MemWrite(off, n, v)` (20_memory.md R65). -/
def memWrite (off : Nat) (n : Width) (v : Word) (s : State) : Host.Outcome State Fault Refusal :=
  match refusal s (.write off n v) with
  | some cause => .fault (.accessFault cause)
  | none => .next ((writePlace off n v s).setReply .written)

/-- One host bus access (20_memory.md R64, R65). -/
def busAccess (a : Access) (s : State) : Host.Outcome State Fault Refusal :=
  match a with
  | .read off n => memRead off n s
  | .write off n v => memWrite off n v s

end Sys2Proof.Machine
end

