-- ==== Sys2Proof/Machine/Aes.lean ====
section
/-!
DEFINITION. AES-128, the function behind an oracle invocation that succeeds (40_oracle.md R113 to R120), all of it
marked by the spec as general knowledge and not in its source.
-/

namespace Sys2Proof.Machine

/-- The S-box table, row `x` as one 128-bit number whose first byte is column 0 (40_oracle.md R115). -/
def sboxRows : List (BitVec 128) :=
  [0x637c777bf26b6fc53001672bfed7ab76, 0xca82c97dfa5947f0add4a2af9ca472c0,
   0xb7fd9326363ff7cc34a5e5f171d83115, 0x04c723c31896059a071280e2eb27b275,
   0x09832c1a1b6e5aa0523bd6b329e32f84, 0x53d100ed20fcb15b6acbbe394a4c58cf,
   0xd0efaafb434d338545f9027f503c9fa8, 0x51a3408f929d38f5bcb6da2110fff3d2,
   0xcd0c13ec5f974417c4a77e3d645d1973, 0x60814fdc222a908846eeb814de5e0bdb,
   0xe0323a0a4906245cc2d3ac629195e479, 0xe7c8376d8dd54ea96c56f4ea657aae08,
   0xba78252e1ca6b4c6e8dd741f4bbd8b8a, 0x703eb5664803f60e613557b986c11d9e,
   0xe1f8981169d98e949b1e87e9ce5528df, 0x8ca1890dbfe6426841992d0fb054bb16]

/-- `SBOX[16x + y]`, row `x`, column `y` (40_oracle.md R115). -/
def sbox (a : Byte) : Byte :=
  (sboxRows.getD (a.toNat / 16) 0).extractLsb' (8 * (15 - a.toNat % 16)) 8

/-- `SubBytes` (40_oracle.md R116). -/
def subBytes (s : Block) : Block := s.map sbox

/-- `ShiftRows`, by the index list of 40_oracle.md R117. -/
def shiftRows (s : Block) : Block :=
  #v[s[0], s[5], s[10], s[15], s[4], s[9], s[14], s[3], s[8], s[13], s[2], s[7], s[12], s[1], s[6], s[11]]

/-- `xtime`, doubling in the field of AES; also `mul2` (40_oracle.md R118). -/
def xtime (x : Byte) : Byte := (x <<< 1) ^^^ (if x.getLsbD 7 then 0x1B else 0)

/-- `mul3` (40_oracle.md R118). -/
def mul3 (x : Byte) : Byte := xtime x ^^^ x

/-- Byte `r` of a mixed column, from the column's bytes (40_oracle.md R118). -/
def mixByte (a0 a1 a2 a3 : Byte) (r : Nat) : Byte :=
  match r with
  | 0 => xtime a0 ^^^ mul3 a1 ^^^ a2 ^^^ a3
  | 1 => a0 ^^^ xtime a1 ^^^ mul3 a2 ^^^ a3
  | 2 => a0 ^^^ a1 ^^^ xtime a2 ^^^ mul3 a3
  | _ => mul3 a0 ^^^ a1 ^^^ a2 ^^^ xtime a3

/-- `MixColumns`, each column alone (40_oracle.md R118). -/
def mixColumns (s : Block) : Block :=
  Vector.ofFn fun i : Fin 16 =>
    have : i.val / 4 < 4 := by omega
    mixByte s[4 * (i.val / 4)] s[4 * (i.val / 4) + 1] s[4 * (i.val / 4) + 2] s[4 * (i.val / 4) + 3] (i.val % 4)

/-- A four-byte word of the key schedule (40_oracle.md R120). -/
structure KeyWord where
  /-- Byte 0. -/
  b0 : Byte
  /-- Byte 1. -/
  b1 : Byte
  /-- Byte 2. -/
  b2 : Byte
  /-- Byte 3. -/
  b3 : Byte
deriving DecidableEq, Repr

/-- Exclusive-or of two words of the key schedule. -/
def KeyWord.xor (x y : KeyWord) : KeyWord := ⟨x.b0 ^^^ y.b0, x.b1 ^^^ y.b1, x.b2 ^^^ y.b2, x.b3 ^^^ y.b3⟩

/-- `SubWord(RotWord(t))` with the round constant added to its first byte (40_oracle.md R120). -/
def KeyWord.core (t : KeyWord) (rcon : Byte) : KeyWord := ⟨sbox t.b1 ^^^ rcon, sbox t.b2, sbox t.b3, sbox t.b0⟩

/-- Word `c` of a 16-byte round key (40_oracle.md R120: `rk[r]` is four words in order). -/
def keyWord (k : Block) (c : Fin 4) : KeyWord :=
  ⟨k[4 * c.val], k[4 * c.val + 1], k[4 * c.val + 2], k[4 * c.val + 3]⟩

/-- Words `w[4r..4r+3]` from words `w[4r-4..4r-1]`: `rk[r]` from `rk[r-1]` with `rcon = RCON[r]` (40_oracle.md
R120: `w[i] = w[i-4] xor t`, where `t` is `w[i-1]`, rotated and substituted when `i mod 4 = 0`). -/
def nextRoundKey (rcon : Byte) (k : Block) : Block :=
  let w0 := (keyWord k 0).xor ((keyWord k 3).core rcon)
  let w1 := (keyWord k 1).xor w0
  let w2 := (keyWord k 2).xor w1
  let w3 := (keyWord k 3).xor w2
  #v[w0.b0, w0.b1, w0.b2, w0.b3, w1.b0, w1.b1, w1.b2, w1.b3,
     w2.b0, w2.b1, w2.b2, w2.b3, w3.b0, w3.b1, w3.b2, w3.b3]

/-- `RCON[1..10]` (40_oracle.md R120). -/
def rconList : List Byte := [0x01, 0x02, 0x04, 0x08, 0x10, 0x20, 0x40, 0x80, 0x1b, 0x36]

/-- The rounds left to do, one for each round constant left, from state `s` under the last round key used: nine
rounds with `MixColumns` and a last one without (40_oracle.md R113). -/
def aesRounds : List Byte → Block → Block → Block
  | [], _, s => s
  | [rc], k, s => blockXor (shiftRows (subBytes s)) (nextRoundKey rc k)
  | rc :: rcs, k, s =>
    aesRounds rcs (nextRoundKey rc k) (blockXor (mixColumns (shiftRows (subBytes s))) (nextRoundKey rc k))

/-- `AES128(k, b)` (40_oracle.md R113): `rk[0] = k` is added first, then the ten rounds. -/
def aes128 (k b : Block) : Block := aesRounds rconList k (blockXor b k)

end Sys2Proof.Machine
end

