-- ==== Sys2Proof/Machine/Oracle.lean ====
section
/-!
DEFINITION. The oracle interface the block consumes (40_oracle.md R110 to R112, R122): one invocation, and how
computations that make several are put together.
-/

namespace Sys2Proof.Machine

/-- How the next invocation ends (40_oracle.md R111 b): the next draw settled from outside, else a free value. -/
def OracleInput.nextDraw (o : OracleInput) : OracleDraw :=
  match o.draws with
  | d :: _ => d
  | [] => Config.oracleDraw o.calls

/-- The input after one invocation. -/
def OracleInput.advance (o : OracleInput) : OracleInput :=
  { draws := o.draws.tail, calls := o.calls + 1 }

/-- How a computation that invokes the oracle ends: with a value, or with the error of the first invocation that
fails (60_exceptions.md R266, item 7); and the oracle input left. -/
abbrev OracleResult (α : Type) := Except OracleError α × OracleInput

/-- `E(k, b)` (40_oracle.md R110, R111): on success the answer is `AES128(k, b)`; an error carries no block. -/
def invoke (o : OracleInput) (k b : Block) : OracleResult Block :=
  match o.nextDraw with
  | .ok => (.ok (aes128 k b), o.advance)
  | .timeout => (.error .timeout, o.advance)
  | .fault => (.error .fault, o.advance)

/-- `c <- E!(…)` and what follows: go on with the value, or end at the first error (00_scope.md R11). -/
def andThen {α β : Type} (r : OracleResult α) (f : α → OracleInput → OracleResult β) : OracleResult β :=
  match r with
  | (.ok a, o) => f a o
  | (.error e, o) => (.error e, o)

end Sys2Proof.Machine
end

