-- ==== Sys2Proof/Machine/Cmac.lean ====
section
/-!
DEFINITION. The CMAC (OMAC1) engine: `CMAC.INIT`, `CMAC.UPDATE`, `CMAC.FINISH`, `CMAC.COMPUTE` (42_cmac.md R151 to
R162), and the pure function `CMAC(k, m)` in the closed form of R151.
-/

namespace Sys2Proof.Machine

/-- `double(x)`: one bit to the left as a 128-bit number with byte 0 most significant, `0x87` added to the last byte
when the input's top bit was 1 (42_cmac.md R152). -/
def double (x : Block) : Block :=
  Vector.ofFn fun i : Fin 16 =>
    if h : i.val < 15 then (x[i.val] <<< 1) ||| (x[i.val + 1] >>> 7)
    else (x[15] <<< 1) ^^^ (if x[0].getLsbD 7 then 0x87 else 0x00)

/-- `pad(acc, p) = acc[0..p-1] ‖ 80 ‖ 0^(15-p)`; bytes of `acc` from index `p` on are not used (42_cmac.md R157). -/
def padBlock (acc : Block) (p : Nat) : Block :=
  Vector.ofFn fun i : Fin 16 =>
    if i.val < p then acc[i.val] else if i.val = p then 0x80 else 0x00

/-! ### The context operations -/

/-- `init(key)` on a context (42_cmac.md R154): subkeys from `L = E(k, 0^16)`, an empty buffer, phase `Ready`; `acc`
and `prev` are not cleared. -/
def macInit (o : OracleInput) (c : CmacContext) (k : Block) : OracleResult CmacContext :=
  andThen (invoke o k zeroBlock) fun l o =>
    (.ok { c with
      key := k, key1 := double l, key2 := double (double l),
      partialLength := 0, multiblock := false, phase := .ready }, o)

/-- The block a fold gives to the oracle: the full buffer, xor the previous ciphertext only after the first full
block (42_cmac.md R155). -/
def foldInput (c : CmacContext) : Block := if c.multiblock then blockXor c.acc c.prev else c.acc

/-- The fold step (42_cmac.md R155). -/
def macFold (o : OracleInput) (c : CmacContext) : OracleResult CmacContext :=
  andThen (invoke o c.key (foldInput c)) fun y o =>
    (.ok { c with prev := y, multiblock := true, partialLength := 0 }, o)

/-- Make room for one more byte: a full buffer is folded, only now that a byte follows it (42_cmac.md R156). -/
def macMakeRoom (o : OracleInput) (c : CmacContext) : OracleResult CmacContext :=
  if c.partialLength = 16 then macFold o c else (.ok c, o)

/-- Buffer one byte (42_cmac.md R156). -/
def CmacContext.push (c : CmacContext) (b : Byte) : CmacContext :=
  { c with acc := c.acc.setIfInBounds c.partialLength.toNat b, partialLength := c.partialLength + 1 }

/-- `update(data)` on a context, byte by byte (42_cmac.md R156). -/
def macUpdate (o : OracleInput) (c : CmacContext) : List Byte → OracleResult CmacContext
  | [] => (.ok c, o)
  | b :: bs => andThen (macMakeRoom o c) fun c o => macUpdate o (c.push b) bs

/-- The block `finish` gives to the oracle: the full buffer xor `K1`, or the padded buffer xor `K2`, xor the previous
ciphertext when a block was folded (42_cmac.md R158). -/
def finishInput (c : CmacContext) : Block :=
  let m := if c.partialLength = 16 then blockXor c.acc c.key1
    else blockXor (padBlock c.acc c.partialLength.toNat) c.key2
  if c.multiblock then blockXor m c.prev else m

/-- `finish()` on a context: the tag, and the context in phase `Finished` (42_cmac.md R158). -/
def macFinish (o : OracleInput) (c : CmacContext) : OracleResult (Block × CmacContext) :=
  andThen (invoke o c.key (finishInput c)) fun tag o => (.ok (tag, { c with phase := .finished }), o)

/-- `init`, `update` and `finish` in one go on a context (42_cmac.md R160). -/
def macOneShot (o : OracleInput) (c : CmacContext) (k : Block) (m : List Byte) :
    OracleResult (Block × CmacContext) :=
  andThen (macInit o c k) fun c o =>
    andThen (macUpdate o c m) fun c o => macFinish o c

/-! ### The closed form of R151 -/

/-- The number of blocks of a message of `n` bytes; an empty message has one (42_cmac.md R151). -/
def macBlocks (n : Nat) : Nat := max 1 ((n + 15) / 16)

/-- `M[j+1]`, a full block before the last (42_cmac.md R151). -/
def messageBlock (m : List Byte) (j : Nat) : Block := blockOfBytes (m.drop (16 * j))

/-- `X` after `j` full blocks of `m` have been chained in, from `x0` (42_cmac.md R151: from `0^16`). -/
def macChain (k x0 : Block) (m : List Byte) : Nat → Block
  | 0 => x0
  | j + 1 => aes128 k (blockXor (macChain k x0 m j) (messageBlock m j))

/-- `M[q]` from the last 0 to 16 bytes (42_cmac.md R151). -/
def lastBlock (k1 k2 : Block) (last : List Byte) : Block :=
  if last.length = 16 then blockXor (blockOfBytes last) k1
  else blockXor (padBlock (blockOfBytes last) last.length) k2

/-- The function `CMAC(k, m)` in closed form (42_cmac.md R151). -/
def cmac (k : Block) (m : List Byte) : Block :=
  let k1 := double (aes128 k zeroBlock)
  let before := macBlocks m.length - 1
  aes128 k (blockXor (macChain k zeroBlock m before) (lastBlock k1 (double k1) (m.drop (16 * before))))

/-! ### The commands -/

/-- The perform step of `CMAC.INIT cN` on an existing slot (42_cmac.md R154). -/
def macSlotInit (i : SlotId) (s : State) : State :=
  match macInit s.oracle (s.slot i).mac (keyOperand s) with
  | (.ok c, o) => endCommand .ok ((s.setMac i c).setOracle o)
  | (.error e, o) => endCommand (.oracleFailure e) ((s.loseMac i).setOracle o)

/-- `CMAC.INIT cN` (42_cmac.md R154). -/
def execCmacInit (ctx : SlotId) (s : State) : Host.Outcome State Fault Refusal :=
  .next (onSlot ctx s (macSlotInit ctx))

/-- The perform step of `CMAC.UPDATE cN, ilen` on an existing slot (42_cmac.md R156): the range check, the phase
check, then the bytes. -/
def macSlotUpdate (i : SlotId) (n : Nat) (s : State) : State :=
  if s.cfg.ibufSize < n then endCommand .operandRange s
  else if (s.slot i).mac.phase ≠ .ready then endCommand .sequenceFailure s
  else
    match macUpdate s.oracle (s.slot i).mac (dataOperand s n) with
    | (.ok c, o) => endCommand .ok ((s.setMac i c).setOracle o)
    | (.error e, o) => endCommand (.oracleFailure e) ((s.loseMac i).setOracle o)

/-- `CMAC.UPDATE cN, ilen` (42_cmac.md R156). -/
def execCmacUpdate (ctx : SlotId) (ilen : BitVec 12) (s : State) : Host.Outcome State Fault Refusal :=
  .next (onSlot ctx s (macSlotUpdate ctx ilen.toNat))

/-- The perform step of `CMAC.FINISH cN` on an existing slot (42_cmac.md R158). -/
def macSlotFinish (i : SlotId) (s : State) : State :=
  if (s.slot i).mac.phase ≠ .ready then endCommand .sequenceFailure s
  else
    match macFinish s.oracle (s.slot i).mac with
    | (.ok (tag, c), o) => endCommand .ok (storeResult tag.toList ((s.setMac i c).setOracle o))
    | (.error e, o) => endCommand (.oracleFailure e) ((s.loseMac i).setOracle o)

/-- `CMAC.FINISH cN` (42_cmac.md R158). -/
def execCmacFinish (ctx : SlotId) (s : State) : Host.Outcome State Fault Refusal :=
  .next (onSlot ctx s (macSlotFinish ctx))

/-- A one-shot tag of `IBUF[0..n-1]` under `KBUF[0..15]` on the private context, delivered to `OBUF[0..15]`
(42_cmac.md R160, 43_ckdf.md R181). -/
def macToOutput (n : Nat) (s : State) : State :=
  if s.cfg.ibufSize < n then endCommand .operandRange s
  else
    match macOneShot s.oracle s.kctx (keyOperand s) (dataOperand s n) with
    | (.ok (tag, c), o) => endCommand .ok (storeResult tag.toList ((s.setKctx c).setOracle o))
    | (.error e, o) => endCommand (.oracleFailure e) (s.loseKctx.setOracle o)

/-- `CMAC.COMPUTE ilen` (42_cmac.md R160). -/
def execCmacCompute (ilen : BitVec 12) (s : State) : Host.Outcome State Fault Refusal :=
  .next (macToOutput ilen.toNat s)

end Sys2Proof.Machine
end

