-- ==== Sys2Proof/Machine/Ctr.lean ====
section
/-!
DEFINITION. The AES-CTR engine: `CTR.INIT` and `CTR.CRYPT` (41_ctr.md R131 to R138).
-/

namespace Sys2Proof.Machine

/-- The counter block `nonce ‖ enc32(counter)`: 12 bytes and 4 bytes (41_ctr.md R131). -/
def counterBlock (order : CtrOrder) (c : AesCtrContext) : Block :=
  Vector.ofFn fun i : Fin 16 =>
    if h : i.val < 12 then c.nonce[i.val] else (enc32 order c.counter)[i.val - 12]

/-- The output of `CTR.CRYPT`: each data byte xor the keystream byte of its index (41_ctr.md R133). -/
def ctrOutput (data : List Byte) (ks : Block) : List Byte := List.zipWith (· ^^^ ·) data ks.toList

/-- The perform step of `CTR.INIT cN` on an existing slot (41_ctr.md R132): key and nonce loaded, the counter zeroed,
`keystream` untouched. -/
def ctrLoad (i : SlotId) (s : State) : State :=
  endCommand .ok
    (s.setCtr i { (s.slot i).ctr with key := keyOperand s, nonce := nonceOperand s, counter := 0, init := true })

/-- `CTR.INIT cN` (41_ctr.md R132). -/
def execCtrInit (ctx : SlotId) (s : State) : Host.Outcome State Fault Refusal :=
  .next (onSlot ctx s (ctrLoad ctx))

/-- The perform step of `CTR.CRYPT cN, ilen` on an existing slot (41_ctr.md R133): the length check, the slot check,
one oracle invocation, then keystream and output. -/
def ctrApply (i : SlotId) (n : Nat) (s : State) : State :=
  if 16 < n then endCommand .lengthFailure s
  else if !(s.slot i).ctr.init then endCommand .sequenceFailure s
  else
    match invoke s.oracle (s.slot i).ctr.key (counterBlock s.cfg.ctrOrder (s.slot i).ctr) with
    | (.ok ks, o) =>
      endCommand .ok
        (storeResult (ctrOutput (dataOperand s n) ks)
          ((s.setCtr i { (s.slot i).ctr with keystream := ks }).setOracle o))
    | (.error e, o) => endCommand (.oracleFailure e) (s.setOracle o)

/-- `CTR.CRYPT cN, ilen` (41_ctr.md R133). -/
def execCtrCrypt (ctx : SlotId) (ilen : BitVec 12) (s : State) : Host.Outcome State Fault Refusal :=
  .next (onSlot ctx s (ctrApply ctx ilen.toNat))

end Sys2Proof.Machine
end

