-- ==== Sys2Proof/Machine/Kdf.lean ====
section
/-!
DEFINITION. The CKDF: `KDF.EXTRACT` and `KDF.EXPAND` (43_ckdf.md R181 to R186), and the pure function
`expand(prk, info, L)` of R182.
-/

namespace Sys2Proof.Machine

/-- The message of iteration `i`: `T[i-1] ‖ info ‖ byte(i)`, where `T[0]` is empty (43_ckdf.md R182). -/
def expandMessage (before info : List Byte) (i : Nat) : List Byte := before ++ info ++ [BitVec.ofNat 8 i]

/-- `T[i]`, as a byte string (43_ckdf.md R182). -/
def expandBlock (prk : Block) (info : List Byte) : Nat → List Byte
  | 0 => []
  | i + 1 => (cmac prk (expandMessage (expandBlock prk info i) info (i + 1))).toList

/-- `T[1] ‖ … ‖ T[n]` (43_ckdf.md R182). -/
def expandBlocks (prk : Block) (info : List Byte) : Nat → List Byte
  | 0 => []
  | n + 1 => expandBlocks prk info n ++ expandBlock prk info (n + 1)

/-- `ceil(L / 16)`, the number of iterations (43_ckdf.md R182). -/
def expandCount (len : Nat) : Nat := (len + 15) / 16

/-- The function `expand(prk, info, L)` (43_ckdf.md R182). -/
def expand (prk : Block) (info : List Byte) (len : Nat) : List Byte :=
  (expandBlocks prk info (expandCount len)).take len

/-- Whether iteration `i` derives the subkeys of `prk` with an oracle invocation of its own: the first always does, a
later one may or may not (43_ckdf.md R185; assumption 4). -/
def derivesSubkeys (i : Nat) : Bool := i == 1 || Config.expandDerivesAnew i

/-- A context made ready for another message under the key and subkeys it holds. -/
def CmacContext.rearm (c : CmacContext) : CmacContext :=
  { c with partialLength := 0, multiblock := false, phase := .ready }

/-- The context iteration `i` starts from, under the key `prk` (42_cmac.md R154; 43_ckdf.md R185). -/
def expandStart (i : Nat) (o : OracleInput) (c : CmacContext) (prk : Block) : OracleResult CmacContext :=
  if derivesSubkeys i then macInit o c prk else (.ok c.rearm, o)

/-- Iteration `i`: `T[i]`, the tag of `m` under `prk` (43_ckdf.md R182). -/
def expandStep (i : Nat) (o : OracleInput) (c : CmacContext) (prk : Block) (m : List Byte) :
    OracleResult (Block × CmacContext) :=
  andThen (expandStart i o c prk) fun c o =>
    andThen (macUpdate o c m) fun c o => macFinish o c

/-- The iterations of `KDF.EXPAND` on the private context: `n` of them, the first with index `i`, `before` being
`T[i-1]` (43_ckdf.md R182). -/
def expandLoop (prk : Block) (info : List Byte) :
    Nat → Nat → List Byte → CmacContext → OracleInput → OracleResult (List Byte × CmacContext)
  | 0, _, _, c, o => (.ok ([], c), o)
  | n + 1, i, before, c, o =>
    andThen (expandStep i o c prk (expandMessage before info i)) fun t o =>
      andThen (expandLoop prk info n (i + 1) t.1.toList t.2 o) fun rest o =>
        (.ok (t.1.toList ++ rest.1, rest.2), o)

/-- `KDF.EXTRACT ilen`: `CMAC(key = salt, data = ikm)`, the salt in `KBUF[0..15]`, the IKM in `IBUF` (43_ckdf.md
R181). -/
def execKdfExtract (ilen : BitVec 12) (s : State) : Host.Outcome State Fault Refusal :=
  .next (macToOutput ilen.toNat s)

/-- `KDF_MAXOUT`, 255 blocks of 16 bytes (00_scope.md R6). -/
def kdfMaxOut : Nat := 255 * 16

/-- The perform step of `KDF.EXPAND ilen, olen` (43_ckdf.md R183): the range check, the bound check, the iterations,
then the first `olen` bytes. -/
def kdfExpandToOutput (n len : Nat) (s : State) : State :=
  if s.cfg.ibufSize < n then endCommand .operandRange s
  else if kdfMaxOut < len then endCommand .protocolBoundsFailure s
  else
    match expandLoop (keyOperand s) (dataOperand s n) (expandCount len) 1 [] s.kctx s.oracle with
    | (.ok (okm, c), o) => endCommand .ok (storeResult (okm.take len) ((s.setKctx c).setOracle o))
    | (.error e, o) => endCommand (.oracleFailure e) (s.loseKctx.setOracle o)

/-- `KDF.EXPAND ilen, olen` (43_ckdf.md R183). -/
def execKdfExpand (ilen olen : BitVec 12) (s : State) : Host.Outcome State Fault Refusal :=
  .next (kdfExpandToOutput ilen.toNat olen.toNat s)

end Sys2Proof.Machine
end

