-- ==== Sys2Proof/Machine/Dispatch.lean ====
section
/-!
DEFINITION. One arm per command: the body of the perform step for a decoded command (44_control.md R206).
-/

namespace Sys2Proof.Machine

def exec (i : Instr) (s : State) : Host.Outcome State Fault Refusal :=
  match i with
  | .ctrInit ctx => Sys2Proof.Machine.execCtrInit ctx s
  | .ctrCrypt ctx ilen => Sys2Proof.Machine.execCtrCrypt ctx ilen s
  | .cmacInit ctx => Sys2Proof.Machine.execCmacInit ctx s
  | .cmacUpdate ctx ilen => Sys2Proof.Machine.execCmacUpdate ctx ilen s
  | .cmacFinish ctx => Sys2Proof.Machine.execCmacFinish ctx s
  | .cmacCompute ilen => Sys2Proof.Machine.execCmacCompute ilen s
  | .kdfExtract ilen => Sys2Proof.Machine.execKdfExtract ilen s
  | .kdfExpand ilen olen => Sys2Proof.Machine.execKdfExpand ilen olen s

end Sys2Proof.Machine
end

