-- ==== Sys2Proof/Machine/Engine.lean ====
section
/-!
DEFINITION. The engine's own step and the reset event (44_control.md R206, R207; 70_reset_and_hazards.md R300), and
how a command word is placed in flight.
-/

namespace Sys2Proof.Machine

/-- The perform step (44_control.md R206): decode `CMDLATCH`; an illegal word ends with `IllegalCommand` and no other
change (30_encoding.md R94), a command does what its rule says. -/
def perform (s : State) : Host.Outcome State Fault Refusal :=
  match decode s.cfg s.cmdLatch with
  | .ok i => exec i s
  | .error _ => .next (endCommand .illegalCommand s)

/-- A turn of the engine: the perform step is enabled exactly when `RUN = 1` (44_control.md R206); otherwise the block
is idle and keeps all its state (60_exceptions.md R285). -/
def engineTurn (s : State) : Host.Outcome State Fault Refusal :=
  if s.run then perform s else .next s

/-- The reset event (70_reset_and_hazards.md R300): the state of 10_state.md R50. The parameters, the events still to
come, the oracle's draws and the index of free values are no state of the block and stay. -/
def resetBlock (s : State) : State :=
  { State.resetWith s.cfg with inbox := s.inbox, oracle := s.oracle, freeCount := s.freeCount }

/-- One event of the total order of 20_memory.md R74. -/
def handleEvent (e : Event) (s : State) : Host.Outcome State Fault Refusal :=
  match e with
  | .host a => busAccess a s
  | .engine => engineTurn s
  | .reset => .next (resetBlock s)

/-- The state in which the command word `w` is in flight and the engine has the next turn: what an accepted issue
leaves (44_control.md R204), under a claim. -/
def placeCommand (w : Word) (s : State) : State :=
  { s with cmdLatch := w, busy := true, run := true, done := false, inbox := .engine :: s.inbox }

end Sys2Proof.Machine
end

