-- ==== Sys2Proof/Machine/Step.lean ====
section
/-!
DEFINITION. One step of the machine: the next event the outside world presents, or, when none waits, a turn of the
engine.
-/

namespace Sys2Proof.Machine

/-- One step (20_memory.md R74): the first event waiting takes its place in the total order; with none waiting the
engine has its turn, so that a command in flight is performed (44_control.md R207). -/
def step (s : State) : Host.Outcome State Fault Refusal :=
  match s.inbox with
  | [] => engineTurn s
  | e :: rest => handleEvent e (s.setInbox rest)

/-- `s` with the command word given by the low `nbits` bits of `w` in flight, so that the next step performs it. -/
def State.withFetchWord (s : State) (nbits w : Nat) : State :=
  placeCommand (BitVec.ofNat 32 (w % 2 ^ nbits)) s

end Sys2Proof.Machine
end

