-- ==== Sys2Proof/Safety.lean ====
section
/-!
DEFINITION. The terms claims about the block are stated in: the invariants of its state, what a command leaves
alone, the oracle's draws counted off, what no rule reads and what the host cannot read, and host-side helpers.
-/

namespace Sys2Proof.Machine

/-! ### Invariants -/

/-- The invariant of the flags (10_state.md R48 a, b). -/
def FlagsInv (s : State) : Prop := s.run = true → s.busy = true ∧ s.done = false

/-- The invariant of one CmacContext (10_state.md R27 a, b, d). -/
def MacInv (c : CmacContext) : Prop :=
  c.partialLength.toNat ≤ 16 ∧
  (c.phase = .ready → c.multiblock = true → 1 ≤ c.partialLength.toNat) ∧
  (c.phase = .uninit → c.partialLength = 0 ∧ c.multiblock = false)

/-- The invariant of every CmacContext of the block (10_state.md R27). -/
def MacsInv (s : State) : Prop := (∀ i : SlotId, MacInv (s.slot i).mac) ∧ MacInv s.kctx

/-- `RESULT` holds no reserved code (60_exceptions.md R260). -/
def ResultInv (s : State) : Prop := s.result.toNat ≤ 8

/-- A byte offset that belongs to `KBUF`, `IBUF` or `OBUF` (10_state.md R35). -/
def inBuffer (p : Params) (a : Nat) : Prop :=
  (kbufBase ≤ a ∧ a < kbufBase + kbufSize) ∨ (ibufBase ≤ a ∧ a < ibufBase + p.ibufSize) ∨
  (obufBase ≤ a ∧ a < obufBase + obufSize)

/-- The window's storage is in canonical form and lists bytes of the three buffers only. -/
def MemInv (s : State) : Prop := s.mem.wf = true ∧ ∀ c ∈ s.mem, inBuffer s.cfg c.1

/-! ### The engine's turn -/

/-- The next step of `s` is a turn of the engine, on `b`: on `s` itself when no event waits, and on `s` without that event
when the first one waiting is the engine's turn (44_control.md R206, R207; assumption 5). -/
def EngineTurnAt (s b : State) : Prop :=
  (s.inbox = [] ∧ b = s) ∨ ∃ rest, s.inbox = .engine :: rest ∧ b = { s with inbox := rest }

/-! ### How a command ends and what it leaves alone -/

/-- The perform step ended with result code `code` (44_control.md R206). -/
def EndedWith (code : Byte) (t : State) : Prop := t.result = code ∧ t.done = true ∧ t.run = false

/-- The two codes of an oracle failure (60_exceptions.md R260). -/
def isOracleCode (code : Byte) : Bool := code == 0x01 || code == 0x02

/-- The code of an oracle failure with error `e` (60_exceptions.md R260). -/
def oracleCode : OracleError → Byte
  | .timeout => 0x01
  | .fault => 0x02

/-- What no perform step changes: the parameters, `BUSY`, `COLLISIONS`, `CMDLATCH`, the events to come, the latest
bus answer. -/
def CommandFrame (s t : State) : Prop :=
  t.cfg = s.cfg ∧ t.busy = s.busy ∧ t.collisions = s.collisions ∧ t.cmdLatch = s.cmdLatch ∧
  t.inbox = s.inbox ∧ t.reply = s.reply

/-- Every byte of the window outside the `n` bytes from `lo` reads as before. -/
def SameBytesOutside (s t : State) (lo n : Nat) : Prop :=
  ∀ a, a < lo ∨ lo + n ≤ a → t.mem.read a = s.mem.read a

/-- Every byte of the window reads as before. -/
def SameBytes (s t : State) : Prop := ∀ a, t.mem.read a = s.mem.read a

/-- Every slot but `i` is as before. -/
def OtherSlots (s t : State) (i : SlotId) : Prop := ∀ j : SlotId, j ≠ i → t.slot j = s.slot j

/-- Every slot is as before. -/
def SameSlots (s t : State) : Prop := ∀ j : SlotId, t.slot j = s.slot j

/-- The state after a check before the oracle fails: only `RESULT`, `DONE` and `RUN` change (60_exceptions.md
R262). -/
def checkFailed (code : Byte) (s : State) : State := { s with result := code, done := true, run := false }

/-! ### The oracle's draws -/

/-- The input after `n` invocations. -/
def OracleInput.skip (o : OracleInput) (n : Nat) : OracleInput :=
  { draws := o.draws.drop n, calls := o.calls + n }

/-- The draw that ends an invocation with error `e`. -/
def OracleError.draw : OracleError → OracleDraw
  | .timeout => .timeout
  | .fault => .fault

/-- The next `k` invocations succeed. -/
def OkFor (o : OracleInput) (k : Nat) : Prop := ∀ n, n < k → (o.skip n).nextDraw = .ok

/-- The next `k` invocations succeed and the one after them fails with `e`. -/
def FailsAt (o : OracleInput) (k : Nat) (e : OracleError) : Prop :=
  OkFor o k ∧ (o.skip k).nextDraw = e.draw

/-- The number of folds of an update that brings `n` bytes to a buffer of `p` (42_cmac.md R156). -/
def macFolds (p n : Nat) : Nat := if n = 0 then 0 else (p + n - 1) / 16

/-- The oracle invocations of a whole MAC over `n` bytes (42_cmac.md R161). -/
def macInvocations (n : Nat) : Nat := 1 + macBlocks n

/-- The length of the message of iteration `i` over an `info` of `n` bytes (43_ckdf.md R182). -/
def expandLength (n i : Nat) : Nat := if i = 1 then n + 1 else n + 17

/-- The oracle invocations of iterations 1 to `count` of `KDF.EXPAND` over an `info` of `n` bytes: those of the messages,
and one for each iteration that derives the subkeys (43_ckdf.md R185; assumption 4). -/
def expandInvocations (n : Nat) : Nat → Nat
  | 0 => 0
  | i + 1 =>
    expandInvocations n i + ((if derivesSubkeys (i + 1) then 1 else 0) + macBlocks (expandLength n (i + 1)))

/-- The oracle invocations of the messages alone of iterations 1 to `count` (43_ckdf.md R185). -/
def expandMessageInvocations (n : Nat) : Nat → Nat
  | 0 => 0
  | i + 1 => expandMessageInvocations n i + macBlocks (expandLength n (i + 1))

/-- The bytes a CMAC context has buffered (10_state.md R26: `acc[0..partial_length-1]` valid). -/
def CmacContext.buffered (c : CmacContext) : List Byte := c.acc.toList.take c.partialLength.toNat

/-- The chaining value of a CMAC context: `0^16` until a block has been folded (42_cmac.md R151). -/
def CmacContext.chainValue (c : CmacContext) : Block := if c.multiblock then c.prev else zeroBlock

/-! ### The field of AES and blocks as numbers -/

/-- Multiplication in GF(2^8) modulo `x^8 + x^4 + x^3 + x + 1` (40_oracle.md R115), over the low `n` bits of `b`. -/
def gfMulBits (a b : Byte) : Nat → Byte
  | 0 => 0
  | n + 1 => xtime (gfMulBits a b n) ^^^ (if b.getLsbD (7 - n) then a else 0)

/-- Multiplication in GF(2^8) (40_oracle.md R115). -/
def gfMul (a b : Byte) : Byte := gfMulBits a b 8

/-- The affine map of the S-box formula (40_oracle.md R115). -/
def sboxAffine (x : Byte) : Byte :=
  x ^^^ x.rotateLeft 1 ^^^ x.rotateLeft 2 ^^^ x.rotateLeft 3 ^^^ x.rotateLeft 4

/-- A block as a 128-bit number with byte 0 most significant (42_cmac.md R152). -/
def blockNumber (x : Block) : Nat := x.toList.foldl (fun n b => 256 * n + b.toNat) 0

/-! ### What no rule reads -/

/-- An AesCtrContext with the fields no rule reads set to zero: `keystream`, and key and nonce while `init = 0`
(10_state.md R24, R50). -/
def AesCtrContext.eraseUnread (c : AesCtrContext) : AesCtrContext :=
  if c.init then { c with keystream := zeroBlock } else { AesCtrContext.reset with counter := c.counter }

/-- A CmacContext with the fields no rule reads set to zero: every block unless the phase is `Ready`; the stale bytes
of `acc`, and `prev` until a block has been folded (10_state.md R26, R27 c, R50; 42_cmac.md R157). -/
def CmacContext.eraseUnread (c : CmacContext) : CmacContext :=
  if c.phase = .ready then
    { c with
      acc := Vector.ofFn fun i : Fin 16 => if i.val < c.partialLength.toNat then c.acc[i.val] else 0
      prev := c.chainValue }
  else
    { CmacContext.reset with
      partialLength := c.partialLength, multiblock := c.multiblock, phase := c.phase }

/-- A state with everything no rule reads set to zero (10_state.md R50; 93_implementation_defined.md U4, U5, U6): the
unread fields of the slots, `kctx`, `CMDLATCH` while `RUN = 0`, and the index of free values. -/
def State.eraseUnread (s : State) : State :=
  { s with
    slots := s.slots.map fun sl => { ctr := sl.ctr.eraseUnread, mac := sl.mac.eraseUnread }
    kctx := CmacContext.reset
    cmdLatch := if s.run then s.cmdLatch else 0
    freeCount := 0 }

/-! ### What the host cannot read -/

/-- An address of `KBUF`. -/
def inKbuf (a : Nat) : Bool := decide (kbufBase ≤ a) && decide (a < kbufBase + kbufSize)

/-- A state with all key material set to zero: `KBUF`, and of every context all but what `CNT[i]` and `CTXSTAT[i]` show
(10_state.md R24, R26, R44; 60_exceptions.md R280). -/
def State.eraseSecrets (s : State) : State :=
  { s with
    mem := s.mem.filter fun c => !inKbuf c.1
    slots := s.slots.map fun sl =>
      { ctr := { AesCtrContext.reset with counter := sl.ctr.counter, init := sl.ctr.init }
        mac := { CmacContext.reset with
          partialLength := sl.mac.partialLength, multiblock := sl.mac.multiblock, phase := sl.mac.phase } }
    kctx := CmacContext.reset
    freeCount := 0 }

/-- Two outcomes agree up to an erasure: both go on to states that agree, or both stop with the same fault. -/
def AgreeUpTo (erase : State → State) (a b : Host.Outcome State Fault Refusal) : Prop :=
  (∀ s, a = .next s → ∃ t, b = .next t ∧ erase s = erase t) ∧ (∀ r, a = .fault r → b = .fault r)

/-! ### The host's side of a transaction -/

/-- `put IBUF+0, bytes`: the input buffer after the host has loaded a byte string (30_encoding.md R97). -/
def loadInput (bs : List Byte) (s : State) : State := s.setMem (s.mem.writeBytes ibufBase bs)

/-- The state after the perform step of a command that goes on. -/
def runCommand (i : Instr) (s : State) : State :=
  match exec i s with
  | .next t => t
  | .fault _ => s
  | .refused _ => s

/-- The state after the pieces have been loaded and given to `CMAC.UPDATE` on a slot one after the other
(42_cmac.md R159). -/
def streamUpdates (ctx : SlotId) : List (List Byte) → State → State
  | [], s => s
  | m :: ms, s =>
    streamUpdates ctx ms (runCommand (.cmacUpdate ctx (BitVec.ofNat 12 m.length)) (loadInput m s))

/-- Events handled one after the other, stopping at the first fault. -/
def runEvents : List Event → State → Host.Outcome State Fault Refusal
  | [], s => .next s
  | e :: es, s =>
    match handleEvent e s with
    | .next t => runEvents es t
    | .fault r => .fault r
    | .refused r => .refused r

/-- `n` steps, stopping at the first fault. -/
def runSteps : Nat → State → Host.Outcome State Fault Refusal
  | 0, s => .next s
  | n + 1, s =>
    match step s with
    | .next t => runSteps n t
    | .fault r => .fault r
    | .refused r => .refused r

/-- An event that touches neither the claim nor the count of collisions: no reset, no read of `ACQUIRE`, no write of
`RELEASE` or of `CMD`. -/
def leavesClaim : Event → Bool
  | .reset => false
  | .engine => true
  | .host (.read off _) => off != 0x0008
  | .host (.write off _ _) => off != 0x0000 && off != 0x000C

end Sys2Proof.Machine
end

