-- ==== Sys2Proof/Certificates/Slice0/Obligations.lean ====
section
/-!
DEFINITION. The statements for the provers. Each docstring names the rules of spec/ it formalises.
-/

open Sys2Proof Sys2Proof.Machine

/-! ### Encoding -/

/-- Decoding the word of a well-formed command gives the command back, with every operand at every value its field
admits (30_encoding.md R90, R93, R99). -/
def Obligations.DecodeOfEncode : Prop :=
  ∀ (p : Params) (i : Instr), wellFormed p i = true → decode p (encode i) = .ok i

/-- A word that decodes to a command is the word of that command, and the command is well formed (R90, R93, R99). -/
def Obligations.EncodeOfDecode : Prop :=
  ∀ (p : Params) (w : Word) (i : Instr), decode p w = .ok i → encode i = w ∧ wellFormed p i = true

/-- R99, with the fields of R90 read off the word by division: exactly which words decode to which command. -/
def Obligations.DecodeReadsFields : Prop :=
  ∀ (p : Params) (w : Word) (i : Instr),
    decode p w = .ok i ↔
      match i with
      | .ctrInit c =>
        w.toNat / 2 ^ 28 = 1 ∧ w.toNat / 2 ^ 24 % 16 = c.toNat ∧ w.toNat / 2 ^ 12 % 4096 = 0 ∧
          w.toNat % 4096 = 0 ∧ c.toNat < p.nctx
      | .ctrCrypt c n =>
        w.toNat / 2 ^ 28 = 2 ∧ w.toNat / 2 ^ 24 % 16 = c.toNat ∧ w.toNat / 2 ^ 12 % 4096 = 0 ∧
          w.toNat % 4096 = n.toNat ∧ c.toNat < p.nctx
      | .cmacInit c =>
        w.toNat / 2 ^ 28 = 4 ∧ w.toNat / 2 ^ 24 % 16 = c.toNat ∧ w.toNat / 2 ^ 12 % 4096 = 0 ∧
          w.toNat % 4096 = 0 ∧ c.toNat < p.nctx
      | .cmacUpdate c n =>
        w.toNat / 2 ^ 28 = 5 ∧ w.toNat / 2 ^ 24 % 16 = c.toNat ∧ w.toNat / 2 ^ 12 % 4096 = 0 ∧
          w.toNat % 4096 = n.toNat ∧ c.toNat < p.nctx
      | .cmacFinish c =>
        w.toNat / 2 ^ 28 = 6 ∧ w.toNat / 2 ^ 24 % 16 = c.toNat ∧ w.toNat / 2 ^ 12 % 4096 = 0 ∧
          w.toNat % 4096 = 0 ∧ c.toNat < p.nctx
      | .cmacCompute n =>
        w.toNat / 2 ^ 28 = 7 ∧ w.toNat / 2 ^ 24 % 16 = 0 ∧ w.toNat / 2 ^ 12 % 4096 = 0 ∧
          w.toNat % 4096 = n.toNat
      | .kdfExtract n =>
        w.toNat / 2 ^ 28 = 8 ∧ w.toNat / 2 ^ 24 % 16 = 0 ∧ w.toNat / 2 ^ 12 % 4096 = 0 ∧
          w.toNat % 4096 = n.toNat
      | .kdfExpand n l =>
        w.toNat / 2 ^ 28 = 9 ∧ w.toNat / 2 ^ 24 % 16 = 0 ∧ w.toNat / 2 ^ 12 % 4096 = l.toNat ∧
          w.toNat % 4096 = n.toNat

/-- R93, R91: a word that decodes to a command matches that command's row of the table and no other row; a word that
matches a row decodes to that row's command when its slot field is below `NCTX`, and to nothing when it is not. -/
def Obligations.OpcodeTableRows : Prop :=
  (∀ (p : Params) (w : Word) (i : Instr), decode p w = .ok i →
    ∀ r ∈ opcodeTable, (r.accepts w = true ↔ r.mnemonic = mnemonicOf i)) ∧
  (∀ (p : Params) (w : Word), ∀ r ∈ opcodeTable, r.accepts w = true →
    (w.toNat / 2 ^ 24 % 16 < p.nctx → ∃ i, decode p w = .ok i ∧ mnemonicOf i = r.mnemonic) ∧
    (p.nctx ≤ w.toNat / 2 ^ 24 % 16 → decode p w = .error .noSuchSlot)) ∧
  (∀ (w : Word), ∀ r ∈ opcodeTable, ∀ r' ∈ opcodeTable,
    r.accepts w = true → r'.accepts w = true → r = r')

/-- R94: which words are illegal, and that a command in flight whose word is illegal ends, at whatever turn of the
engine, with result `0x05` and no other change. -/
def Obligations.IllegalWordsFail : Prop :=
  (∀ (p : Params) (w : Word),
    let op := w.toNat / 2 ^ 28
    let ctx := w.toNat / 2 ^ 24 % 16
    let olen := w.toNat / 2 ^ 12 % 4096
    let ilen := w.toNat % 4096
    (∃ e, decode p w = .error e) ↔
      (op = 0 ∨ op = 3 ∨ 10 ≤ op) ∨
      ((op = 1 ∨ op = 4 ∨ op = 6) ∧ (olen ≠ 0 ∨ ilen ≠ 0)) ∨
      ((op = 2 ∨ op = 5) ∧ olen ≠ 0) ∨
      ((op = 7 ∨ op = 8) ∧ (ctx ≠ 0 ∨ olen ≠ 0)) ∨
      (op = 9 ∧ ctx ≠ 0) ∨
      ((op = 1 ∨ op = 2 ∨ op = 4 ∨ op = 5 ∨ op = 6) ∧ p.nctx ≤ ctx)) ∧
  (∀ (p : Params), (∃ e, decode p 0x00000000 = .error e) ∧ (∃ e, decode p 0xFFFFFFFF = .error e)) ∧
  (∀ (s b : State) (e : DecodeError), EngineTurnAt s b → s.run = true → decode s.cfg s.cmdLatch = .error e →
    step s = .next (checkFailed 0x05 b))

/-- A few words written out from the spec decode to the commands they stand for (R96; 95_test_vectors.md 2.7). -/
def Obligations.SpecWordsDecode : Prop :=
  decode Params.default 0x12000000 = .ok (.ctrInit 2) ∧
  decode Params.default 0x23000003 = .ok (.ctrCrypt 3 3) ∧
  decode Params.default 0x41000000 = .ok (.cmacInit 1) ∧
  decode Params.default 0x51000010 = .ok (.cmacUpdate 1 16) ∧
  decode Params.default 0x61000000 = .ok (.cmacFinish 1) ∧
  decode Params.default 0x70000010 = .ok (.cmacCompute 16) ∧
  decode Params.default 0x80000010 = .ok (.kdfExtract 16) ∧
  decode Params.default 0x9000C010 = .ok (.kdfExpand 16 12)

/-! ### Issue and perform -/

/-- R206, R285: when the engine has its turn, at once because no event waits or at a turn waiting first among the events,
which the step then takes from them, a command in flight whose `CMDLATCH` decodes to `i` is performed as `exec i`; and with
`RUN = 0` the turn changes nothing. (That events wait in `inbox` is the model's form of R74, assumption 5.) -/
def Obligations.StepRunsDecodedCommand : Prop :=
  ∀ s b : State, EngineTurnAt s b →
    (∀ i, s.run = true → decode s.cfg s.cmdLatch = .ok i → step s = exec i b) ∧
    (s.run = false → step s = .next b)

/-- From a claimed, idle block, a host write of the word of a well-formed command to `CMD` and one turn of the engine
run exactly that command, on the state the issue leaves (R204, R206, R78). -/
def Obligations.IssuedCommandIsPerformed : Prop :=
  ∀ (s : State) (i : Instr) (rest : List Event),
    s.busy = true → s.run = false → wellFormed s.cfg i = true →
    s.inbox = .host (.write 0x0000 .word (encode i)) :: .engine :: rest →
    ∃ t, step s = .next t ∧
      t = { s with cmdLatch := encode i, run := true, done := false, reply := .written, inbox := .engine :: rest } ∧
      step t = exec i { t with inbox := rest }

/-- R206, R75: every perform step, also one at a turn of the engine that waits before other events, goes on to a state with
`RUN = 0`, `DONE = 1`, `BUSY`, `COLLISIONS`, `CMDLATCH` and the parameters as before, and `ORACLE_FAILS` one more exactly
when the result is `0x01` or `0x02`. That `CMDLATCH` keeps its word is the model's choice (assumption 11). -/
def Obligations.PerformEndsCommand : Prop :=
  ∀ s b : State, EngineTurnAt s b → s.run = true →
    ∃ t, step s = .next t ∧ t.run = false ∧ t.done = true ∧ CommandFrame b t ∧
      t.oracleFails = if isOracleCode t.result then s.oracleFails + 1 else s.oracleFails

/-- R207: whatever events wait, once they are over and none of them was refused, one more turn of the engine leaves
no command in flight (that the engine has its turn when no event waits is the model's form of R207, assumption 5). -/
def Obligations.CommandsFinish : Prop :=
  ∀ s t : State, runSteps (s.inbox.length + 1) s = .next t → t.run = false

/-! ### The commands -/

/-- R132: `CTR.INIT` loads key and nonce from `KBUF`, zeroes the counter, marks the slot initialised, and leaves
everything else alone; on a slot that does not exist it fails with `0x05` and nothing else changes. -/
def Obligations.CtrInitRule : Prop :=
  ∀ (s : State) (ctx : SlotId),
    (slotExists s.cfg ctx = false → exec (.ctrInit ctx) s = .next (checkFailed 0x05 s)) ∧
    (slotExists s.cfg ctx = true →
      ∃ t, exec (.ctrInit ctx) s = .next t ∧ EndedWith 0x00 t ∧
        (∀ j : Fin 16, (t.slot ctx).ctr.key[j] = s.mem.read (0x0040 + j.val)) ∧
        (∀ j : Fin 12, (t.slot ctx).ctr.nonce[j] = s.mem.read (0x0050 + j.val)) ∧
        (t.slot ctx).ctr.counter = 0 ∧ (t.slot ctx).ctr.init = true ∧
        (t.slot ctx).ctr.keystream = (s.slot ctx).ctr.keystream ∧ (t.slot ctx).mac = (s.slot ctx).mac ∧
        OtherSlots s t ctx ∧ SameBytes s t ∧ t.kctx = s.kctx ∧ t.oracleFails = s.oracleFails ∧
        t.oracle = s.oracle ∧ CommandFrame s t)

/-- R133: `CTR.CRYPT` in each of its cases. On success the output is the input xor the keystream block, the counter
stays, and nothing else changes but `keystream`. -/
def Obligations.CtrCryptRule : Prop :=
  ∀ (s : State) (ctx : SlotId) (ilen : BitVec 12),
    (slotExists s.cfg ctx = false → exec (.ctrCrypt ctx ilen) s = .next (checkFailed 0x05 s)) ∧
    (slotExists s.cfg ctx = true → 16 < ilen.toNat →
      exec (.ctrCrypt ctx ilen) s = .next (checkFailed 0x03 s)) ∧
    (slotExists s.cfg ctx = true → ilen.toNat ≤ 16 → (s.slot ctx).ctr.init = false →
      exec (.ctrCrypt ctx ilen) s = .next (checkFailed 0x06 s)) ∧
    (slotExists s.cfg ctx = true → ilen.toNat ≤ 16 → (s.slot ctx).ctr.init = true →
      ∀ e, FailsAt s.oracle 0 e →
        ∃ t, exec (.ctrCrypt ctx ilen) s = .next t ∧ EndedWith (oracleCode e) t ∧
          t.oracleFails = s.oracleFails + 1 ∧ SameSlots s t ∧ SameBytes s t ∧ t.kctx = s.kctx ∧
          t.oracle = s.oracle.skip 1 ∧ CommandFrame s t) ∧
    (slotExists s.cfg ctx = true → ilen.toNat ≤ 16 → (s.slot ctx).ctr.init = true →
      OkFor s.oracle 1 → s.mem.wf = true →
        ∃ (t : State) (ks : Block), exec (.ctrCrypt ctx ilen) s = .next t ∧ EndedWith 0x00 t ∧
          ks = aes128 (s.slot ctx).ctr.key (counterBlock s.cfg.ctrOrder (s.slot ctx).ctr) ∧
          (∀ j : Fin 16, j.val < ilen.toNat →
            t.mem.read (0x2000 + j.val) = s.mem.read (0x1000 + j.val) ^^^ ks[j]) ∧
          SameBytesOutside s t 0x2000 ilen.toNat ∧
          (t.slot ctx).ctr = { (s.slot ctx).ctr with keystream := ks } ∧
          (t.slot ctx).mac = (s.slot ctx).mac ∧ OtherSlots s t ctx ∧ t.kctx = s.kctx ∧
          t.oracleFails = s.oracleFails ∧ t.oracle = s.oracle.skip 1 ∧ CommandFrame s t)

/-- R131: the counter block is the 12 nonce bytes and the 4 counter bytes in the order `CTR_ORDER`. -/
def Obligations.CounterBlockLayout : Prop :=
  ∀ (c : AesCtrContext) (order : CtrOrder),
    (∀ j : Fin 12, (counterBlock order c)[j.val] = c.nonce[j]) ∧
    (∀ (k : Nat) (hk : k < 4),
      (counterBlock .le c)[12 + k] = c.counter.extractLsb' (8 * k) 8 ∧
      (counterBlock .be c)[12 + k] = c.counter.extractLsb' (8 * (3 - k)) 8) ∧
    (c.counter = 0 ∨ c.counter = 0xFFFFFFFF → counterBlock .le c = counterBlock .be c)

/-- R154, R153: `CMAC.INIT` in each of its cases. On success the slot holds the key and the two subkeys and is `Ready`
with an empty buffer; on an oracle failure it is `Uninit`. -/
def Obligations.CmacInitRule : Prop :=
  ∀ (s : State) (ctx : SlotId),
    (slotExists s.cfg ctx = false → exec (.cmacInit ctx) s = .next (checkFailed 0x05 s)) ∧
    (slotExists s.cfg ctx = true → ∀ e, FailsAt s.oracle 0 e →
      ∃ t, exec (.cmacInit ctx) s = .next t ∧ EndedWith (oracleCode e) t ∧
        t.oracleFails = s.oracleFails + 1 ∧
        (t.slot ctx).mac.phase = .uninit ∧ (t.slot ctx).mac.partialLength = 0 ∧
        (t.slot ctx).mac.multiblock = false ∧ (t.slot ctx).ctr = (s.slot ctx).ctr ∧
        OtherSlots s t ctx ∧ SameBytes s t ∧ t.kctx = s.kctx ∧ t.oracle = s.oracle.skip 1 ∧ CommandFrame s t) ∧
    (slotExists s.cfg ctx = true → OkFor s.oracle 1 →
      ∃ (t : State) (k l : Block), exec (.cmacInit ctx) s = .next t ∧ EndedWith 0x00 t ∧
        (∀ j : Fin 16, k[j] = s.mem.read (0x0040 + j.val)) ∧ l = aes128 k zeroBlock ∧
        (t.slot ctx).mac.key = k ∧ (t.slot ctx).mac.key1 = double l ∧
        (t.slot ctx).mac.key2 = double (double l) ∧ (t.slot ctx).mac.acc = (s.slot ctx).mac.acc ∧
        (t.slot ctx).mac.prev = (s.slot ctx).mac.prev ∧ (t.slot ctx).mac.partialLength = 0 ∧
        (t.slot ctx).mac.multiblock = false ∧ (t.slot ctx).mac.phase = .ready ∧
        (t.slot ctx).ctr = (s.slot ctx).ctr ∧ OtherSlots s t ctx ∧ SameBytes s t ∧ t.kctx = s.kctx ∧
        t.oracleFails = s.oracleFails ∧ t.oracle = s.oracle.skip 1 ∧ CommandFrame s t)

/-- R156, R155: `CMAC.UPDATE` in each of its cases. On success, with `p` bytes buffered before and `n` brought, the
number of folds is `macFolds p n`, the buffer holds the bytes after the last full block folded, and the chaining value
is the fold of those blocks; on an oracle failure the context is lost. -/
def Obligations.CmacUpdateRule : Prop :=
  ∀ (s : State) (ctx : SlotId) (ilen : BitVec 12),
    let c := (s.slot ctx).mac
    let p := c.partialLength.toNat
    let n := ilen.toNat
    let f := macFolds p n
    (slotExists s.cfg ctx = false → exec (.cmacUpdate ctx ilen) s = .next (checkFailed 0x05 s)) ∧
    (slotExists s.cfg ctx = true → s.cfg.ibufSize < n →
      exec (.cmacUpdate ctx ilen) s = .next (checkFailed 0x07 s)) ∧
    (slotExists s.cfg ctx = true → n ≤ s.cfg.ibufSize → c.phase ≠ .ready →
      exec (.cmacUpdate ctx ilen) s = .next (checkFailed 0x06 s)) ∧
    (slotExists s.cfg ctx = true → n ≤ s.cfg.ibufSize → c.phase = .ready → p ≤ 16 →
      ∀ (e : OracleError) (k : Nat), k < f → FailsAt s.oracle k e →
        ∃ t, exec (.cmacUpdate ctx ilen) s = .next t ∧ EndedWith (oracleCode e) t ∧
          t.oracleFails = s.oracleFails + 1 ∧
          (t.slot ctx).mac.phase = .uninit ∧ (t.slot ctx).mac.partialLength = 0 ∧
          (t.slot ctx).mac.multiblock = false ∧ (t.slot ctx).ctr = (s.slot ctx).ctr ∧
          OtherSlots s t ctx ∧ SameBytes s t ∧ t.kctx = s.kctx ∧ t.oracle = s.oracle.skip (k + 1) ∧
          CommandFrame s t) ∧
    (slotExists s.cfg ctx = true → n ≤ s.cfg.ibufSize → c.phase = .ready → p ≤ 16 → OkFor s.oracle f →
      ∃ (t : State) (c' : CmacContext) (stream : List Byte),
        exec (.cmacUpdate ctx ilen) s = .next t ∧ EndedWith 0x00 t ∧ c' = (t.slot ctx).mac ∧
        stream = c.buffered ++ s.mem.readBytes 0x1000 n ∧
        c'.partialLength.toNat + 16 * f = p + n ∧ (1 ≤ n → 1 ≤ c'.partialLength.toNat) ∧
        c'.partialLength.toNat ≤ 16 ∧
        c'.buffered = stream.drop (16 * f) ∧ c'.multiblock = (c.multiblock || decide (1 ≤ f)) ∧
        c'.prev = (if f = 0 then c.prev else macChain c.key c.chainValue stream f) ∧
        c'.key = c.key ∧ c'.key1 = c.key1 ∧ c'.key2 = c.key2 ∧ c'.phase = .ready ∧ (n = 0 → c' = c) ∧
        (t.slot ctx).ctr = (s.slot ctx).ctr ∧ OtherSlots s t ctx ∧ SameBytes s t ∧ t.kctx = s.kctx ∧
        t.oracleFails = s.oracleFails ∧ t.oracle = s.oracle.skip f ∧ CommandFrame s t)

/-- R158, R157: `CMAC.FINISH` in each of its cases. On success `OBUF[0..15]` holds the oracle's answer on the last
block prepared with `K1` (a full buffer) or padding and `K2`, and the slot is `Finished`. -/
def Obligations.CmacFinishRule : Prop :=
  ∀ (s : State) (ctx : SlotId),
    let c := (s.slot ctx).mac
    (slotExists s.cfg ctx = false → exec (.cmacFinish ctx) s = .next (checkFailed 0x05 s)) ∧
    (slotExists s.cfg ctx = true → c.phase ≠ .ready →
      exec (.cmacFinish ctx) s = .next (checkFailed 0x06 s)) ∧
    (slotExists s.cfg ctx = true → c.phase = .ready → ∀ e, FailsAt s.oracle 0 e →
      ∃ t, exec (.cmacFinish ctx) s = .next t ∧ EndedWith (oracleCode e) t ∧
        t.oracleFails = s.oracleFails + 1 ∧
        (t.slot ctx).mac.phase = .uninit ∧ (t.slot ctx).mac.partialLength = 0 ∧
        (t.slot ctx).mac.multiblock = false ∧ (t.slot ctx).ctr = (s.slot ctx).ctr ∧
        OtherSlots s t ctx ∧ SameBytes s t ∧ t.kctx = s.kctx ∧ t.oracle = s.oracle.skip 1 ∧ CommandFrame s t) ∧
    (slotExists s.cfg ctx = true → c.phase = .ready → OkFor s.oracle 1 → s.mem.wf = true →
      ∃ (t : State) (m tag : Block), exec (.cmacFinish ctx) s = .next t ∧ EndedWith 0x00 t ∧
        m = (if c.partialLength.toNat = 16 then blockXor c.acc c.key1
          else blockXor (padBlock c.acc c.partialLength.toNat) c.key2) ∧
        tag = aes128 c.key (if c.multiblock then blockXor m c.prev else m) ∧
        (∀ j : Fin 16, t.mem.read (0x2000 + j.val) = tag[j]) ∧ SameBytesOutside s t 0x2000 16 ∧
        (t.slot ctx).mac = { c with phase := .finished } ∧ (t.slot ctx).ctr = (s.slot ctx).ctr ∧
        OtherSlots s t ctx ∧ t.kctx = s.kctx ∧ t.oracleFails = s.oracleFails ∧
        t.oracle = s.oracle.skip 1 ∧ CommandFrame s t)

/-- R160, R151, R161: `CMAC.COMPUTE` in each of its cases. On success `OBUF[0..15]` holds `CMAC(k, m)` in the closed
form of R151, for the key in `KBUF[0..15]` and the message in `IBUF`; no slot changes. -/
def Obligations.CmacComputeRule : Prop :=
  ∀ (s : State) (ilen : BitVec 12),
    (s.cfg.ibufSize < ilen.toNat → exec (.cmacCompute ilen) s = .next (checkFailed 0x07 s)) ∧
    (ilen.toNat ≤ s.cfg.ibufSize → ∀ (e : OracleError) (k : Nat), k < macInvocations ilen.toNat →
      FailsAt s.oracle k e →
        ∃ t, exec (.cmacCompute ilen) s = .next t ∧ EndedWith (oracleCode e) t ∧
          t.oracleFails = s.oracleFails + 1 ∧ SameSlots s t ∧ SameBytes s t ∧
          t.oracle = s.oracle.skip (k + 1) ∧ CommandFrame s t) ∧
    (ilen.toNat ≤ s.cfg.ibufSize → OkFor s.oracle (macInvocations ilen.toNat) → s.mem.wf = true →
      ∃ (t : State) (k : Block), exec (.cmacCompute ilen) s = .next t ∧ EndedWith 0x00 t ∧
        (∀ j : Fin 16, k[j] = s.mem.read (0x0040 + j.val)) ∧
        (∀ j : Fin 16, t.mem.read (0x2000 + j.val) = (cmac k (s.mem.readBytes 0x1000 ilen.toNat))[j]) ∧
        SameBytesOutside s t 0x2000 16 ∧ SameSlots s t ∧ t.oracleFails = s.oracleFails ∧
        t.oracle = s.oracle.skip (macInvocations ilen.toNat) ∧ CommandFrame s t)

/-- R181: `KDF.EXTRACT` in each of its cases. On success `OBUF[0..15]` holds `CMAC(salt, ikm)`, the salt being
`KBUF[0..15]` and the IKM in `IBUF`; no slot changes. -/
def Obligations.KdfExtractRule : Prop :=
  ∀ (s : State) (ilen : BitVec 12),
    (s.cfg.ibufSize < ilen.toNat → exec (.kdfExtract ilen) s = .next (checkFailed 0x07 s)) ∧
    (ilen.toNat ≤ s.cfg.ibufSize → ∀ (e : OracleError) (k : Nat), k < macInvocations ilen.toNat →
      FailsAt s.oracle k e →
        ∃ t, exec (.kdfExtract ilen) s = .next t ∧ EndedWith (oracleCode e) t ∧
          t.oracleFails = s.oracleFails + 1 ∧ SameSlots s t ∧ SameBytes s t ∧
          t.oracle = s.oracle.skip (k + 1) ∧ CommandFrame s t) ∧
    (ilen.toNat ≤ s.cfg.ibufSize → OkFor s.oracle (macInvocations ilen.toNat) → s.mem.wf = true →
      ∃ (t : State) (salt : Block), exec (.kdfExtract ilen) s = .next t ∧ EndedWith 0x00 t ∧
        (∀ j : Fin 16, salt[j] = s.mem.read (0x0040 + j.val)) ∧
        (∀ j : Fin 16, t.mem.read (0x2000 + j.val) = (cmac salt (s.mem.readBytes 0x1000 ilen.toNat))[j]) ∧
        SameBytesOutside s t 0x2000 16 ∧ SameSlots s t ∧ t.oracleFails = s.oracleFails ∧
        t.oracle = s.oracle.skip (macInvocations ilen.toNat) ∧ CommandFrame s t)

/-- R183, R182: `KDF.EXPAND` in each of its cases. On success `OBUF[0..olen-1]` holds `expand(prk, info, olen)` and the
rest of `OBUF` stays; no slot changes. Which later iterations derive the subkeys anew is free (R185; assumption 4), and
the count of invocations follows it. -/
def Obligations.KdfExpandRule : Prop :=
  ∀ (s : State) (ilen olen : BitVec 12),
    let count := expandInvocations ilen.toNat ((olen.toNat + 15) / 16)
    (s.cfg.ibufSize < ilen.toNat → exec (.kdfExpand ilen olen) s = .next (checkFailed 0x07 s)) ∧
    (ilen.toNat ≤ s.cfg.ibufSize → 4080 < olen.toNat →
      exec (.kdfExpand ilen olen) s = .next (checkFailed 0x04 s)) ∧
    (ilen.toNat ≤ s.cfg.ibufSize → olen.toNat ≤ 4080 → ∀ (e : OracleError) (k : Nat), k < count →
      FailsAt s.oracle k e →
        ∃ t, exec (.kdfExpand ilen olen) s = .next t ∧ EndedWith (oracleCode e) t ∧
          t.oracleFails = s.oracleFails + 1 ∧ SameSlots s t ∧ SameBytes s t ∧
          t.oracle = s.oracle.skip (k + 1) ∧ CommandFrame s t) ∧
    (ilen.toNat ≤ s.cfg.ibufSize → olen.toNat ≤ 4080 → OkFor s.oracle count → s.mem.wf = true →
      ∃ (t : State) (prk : Block) (okm : List Byte), exec (.kdfExpand ilen olen) s = .next t ∧
        EndedWith 0x00 t ∧ (∀ j : Fin 16, prk[j] = s.mem.read (0x0040 + j.val)) ∧
        okm = expand prk (s.mem.readBytes 0x1000 ilen.toNat) olen.toNat ∧ okm.length = olen.toNat ∧
        (∀ (j : Nat) (hj : j < okm.length), t.mem.read (0x2000 + j) = okm[j]) ∧
        SameBytesOutside s t 0x2000 olen.toNat ∧ SameSlots s t ∧ t.oracleFails = s.oracleFails ∧
        t.oracle = s.oracle.skip count ∧ CommandFrame s t)

/-- R185: the oracle invocations of `KDF.EXPAND` lie between the two counts of the rule, subkeys derived once and subkeys
derived in every iteration; none for `olen = 0`. -/
def Obligations.ExpandInvocationCounts : Prop :=
  ∀ n count : Nat,
    (count = 0 → expandInvocations n count = 0) ∧
    (1 ≤ count →
      expandMessageInvocations n count + 1 ≤ expandInvocations n count ∧
      expandInvocations n count ≤ expandMessageInvocations n count + count) ∧
    expandMessageInvocations n (count + 1) = (n + 16) / 16 + count * ((n + 32) / 16)

/-! ### Rules over all commands -/

/-- R30, R31, R32: no command changes `KBUF` or `IBUF`; a command that fails writes nothing to `OBUF`; no command writes
past the end of `OBUF`. -/
def Obligations.CommandsAndBuffers : Prop :=
  ∀ (i : Instr) (s t : State), exec i s = .next t →
    (∀ a, a < 0x2000 ∨ 0x2FF0 ≤ a → t.mem.read a = s.mem.read a) ∧ (t.result ≠ 0x00 → SameBytes s t)

/-- R264: the results each command can end with; `CMAC.UPDATE` fails in the oracle only if a fold occurs and
`KDF.EXPAND` only if `olen ≥ 1`. -/
def Obligations.ResultsOfEachCommand : Prop :=
  ∀ (i : Instr) (s t : State), exec i s = .next t →
    match i with
    | .ctrInit _ => t.result = 0x00 ∨ t.result = 0x05
    | .ctrCrypt _ _ =>
      t.result = 0x00 ∨ isOracleCode t.result = true ∨ t.result = 0x03 ∨ t.result = 0x05 ∨ t.result = 0x06
    | .cmacInit _ => t.result = 0x00 ∨ isOracleCode t.result = true ∨ t.result = 0x05
    | .cmacUpdate c n =>
      t.result = 0x00 ∨
        (isOracleCode t.result = true ∧
          ((s.slot c).mac.partialLength.toNat ≤ 16 → 1 ≤ macFolds (s.slot c).mac.partialLength.toNat n.toNat)) ∨
        t.result = 0x05 ∨ t.result = 0x06 ∨ t.result = 0x07
    | .cmacFinish _ => t.result = 0x00 ∨ isOracleCode t.result = true ∨ t.result = 0x05 ∨ t.result = 0x06
    | .cmacCompute _ => t.result = 0x00 ∨ isOracleCode t.result = true ∨ t.result = 0x07
    | .kdfExtract _ => t.result = 0x00 ∨ isOracleCode t.result = true ∨ t.result = 0x07
    | .kdfExpand _ olen =>
      t.result = 0x00 ∨ (isOracleCode t.result = true ∧ 1 ≤ olen.toNat) ∨ t.result = 0x04 ∨ t.result = 0x07

/-- R23: CTR commands touch only the slot's AesCtrContext and CMAC commands only its CmacContext, in every outcome,
and no command touches a slot it does not name. -/
def Obligations.SlotHalvesIndependent : Prop :=
  ∀ (i : Instr) (s t : State), exec i s = .next t →
    match i with
    | .ctrInit c => (t.slot c).mac = (s.slot c).mac ∧ OtherSlots s t c
    | .ctrCrypt c _ => (t.slot c).mac = (s.slot c).mac ∧ OtherSlots s t c
    | .cmacInit c => (t.slot c).ctr = (s.slot c).ctr ∧ OtherSlots s t c
    | .cmacUpdate c _ => (t.slot c).ctr = (s.slot c).ctr ∧ OtherSlots s t c
    | .cmacFinish c => (t.slot c).ctr = (s.slot c).ctr ∧ OtherSlots s t c
    | .cmacCompute _ => SameSlots s t
    | .kdfExtract _ => SameSlots s t
    | .kdfExpand _ _ => SameSlots s t

/-- R132, R24: the only events that change a slot's counter are `CTR.INIT` on that slot, which zeroes it, the host's
write to `CNT[i]`, and reset. -/
def Obligations.CounterChangedOnlyBy : Prop :=
  ∀ (e : Event) (s t : State) (j : SlotId), handleEvent e s = .next t →
    (t.slot j).ctr.counter ≠ (s.slot j).ctr.counter →
      e = .reset ∨
      (e = .engine ∧ s.run = true ∧ decode s.cfg s.cmdLatch = .ok (.ctrInit j) ∧ (t.slot j).ctr.counter = 0) ∨
      (∃ v, e = .host (.write (0x0100 + 4 * j.toNat) .word v) ∧ (t.slot j).ctr.counter = v)

/-- R28: the lifecycle of a slot's CmacContext under the commands. -/
def Obligations.MacLifecycle : Prop :=
  ∀ (i : Instr) (s t : State) (j : SlotId), exec i s = .next t →
    (i = .cmacInit j → t.result = 0x00 → (t.slot j).mac.phase = .ready) ∧
    (i = .cmacInit j → isOracleCode t.result = true → (t.slot j).mac.phase = .uninit) ∧
    (∀ n, i = .cmacUpdate j n → t.result = 0x00 →
      (s.slot j).mac.phase = .ready ∧ (t.slot j).mac.phase = .ready) ∧
    (∀ n, i = .cmacUpdate j n → isOracleCode t.result = true →
      (s.slot j).mac.phase = .ready ∧ (t.slot j).mac.phase = .uninit) ∧
    (i = .cmacFinish j → t.result = 0x00 →
      (s.slot j).mac.phase = .ready ∧ (t.slot j).mac.phase = .finished) ∧
    (i = .cmacFinish j → isOracleCode t.result = true →
      (s.slot j).mac.phase = .ready ∧ (t.slot j).mac.phase = .uninit) ∧
    ((s.slot j).mac.phase ≠ .ready → slotExists s.cfg j = true →
      (∀ n, i = .cmacUpdate j n → n.toNat ≤ s.cfg.ibufSize → t = checkFailed 0x06 s) ∧
      (i = .cmacFinish j → t = checkFailed 0x06 s)) ∧
    (t.result = 0x06 → SameSlots s t) ∧
    ((t.slot j).mac.phase ≠ (s.slot j).mac.phase →
      i = .cmacInit j ∨ (∃ n, i = .cmacUpdate j n) ∨ i = .cmacFinish j)

/-! ### The algorithms -/

/-- R159: `CMAC.INIT`, then `CMAC.UPDATE` over the pieces of a message however it is split, then `CMAC.FINISH`, every
oracle invocation succeeding, leave in `OBUF` the tag `CMAC(k, m)` of the whole message, the value `CMAC.COMPUTE` leaves;
the state after the updates and the number of folds so far depend on the length of the message alone. -/
def Obligations.StreamingEqualsOneShot : Prop :=
  ∀ (s : State) (ctx : SlotId) (pieces : List (List Byte)),
    slotExists s.cfg ctx = true → s.mem.wf = true → (∀ m ∈ pieces, m.length ≤ s.cfg.ibufSize) →
    OkFor s.oracle (macInvocations pieces.flatten.length) →
      ∃ (t u : State) (k : Block) (n : Nat),
        n = pieces.flatten.length ∧ u = streamUpdates ctx pieces (runCommand (.cmacInit ctx) s) ∧
        (u.slot ctx).mac.partialLength.toNat = (if n = 0 then 0 else (n - 1) % 16 + 1) ∧
        (u.slot ctx).mac.multiblock = decide (16 < n) ∧ u.oracle = s.oracle.skip (1 + ((n + 15) / 16 - 1)) ∧
        exec (.cmacFinish ctx) u = .next t ∧ EndedWith 0x00 t ∧
        (∀ j : Fin 16, k[j] = s.mem.read (0x0040 + j.val)) ∧
        (∀ j : Fin 16, t.mem.read (0x2000 + j.val) = (cmac k pieces.flatten)[j]) ∧
        (∀ (v : State) (ilen : BitVec 12), ilen.toNat = n → n ≤ v.cfg.ibufSize → v.mem.wf = true →
          (∀ j : Fin 16, k[j] = v.mem.read (0x0040 + j.val)) → v.mem.readBytes 0x1000 n = pieces.flatten →
          OkFor v.oracle (macInvocations n) →
            ∃ w, exec (.cmacCompute ilen) v = .next w ∧
              ∀ j : Fin 16, w.mem.read (0x2000 + j.val) = t.mem.read (0x2000 + j.val))

/-- R134: `CTR.CRYPT` on its own output, with the same counter, key and nonce and the oracle succeeding, gives the
data back. -/
def Obligations.CtrInvolution : Prop :=
  ∀ (s : State) (ctx : SlotId) (ilen : BitVec 12) (data : List Byte),
    slotExists s.cfg ctx = true → (s.slot ctx).ctr.init = true → ilen.toNat ≤ 16 → data.length = ilen.toNat →
    s.mem.wf = true → OkFor s.oracle 2 →
      ∃ (t u : State), exec (.ctrCrypt ctx ilen) (loadInput data s) = .next t ∧ EndedWith 0x00 t ∧
        exec (.ctrCrypt ctx ilen) (loadInput (t.mem.readBytes 0x2000 ilen.toNat) t) = .next u ∧
        EndedWith 0x00 u ∧ u.mem.readBytes 0x2000 ilen.toNat = data

/-- R121: for a fixed key `AES128` is injective in the block. -/
def Obligations.AesPermutesBlocks : Prop :=
  ∀ k x y : Block, aes128 k x = aes128 k y → x = y

/-- R137: under one key and nonce two different counters give two different counter blocks and two different keystream
blocks. -/
def Obligations.CtrKeystreamsDiffer : Prop :=
  ∀ (order : CtrOrder) (c d : AesCtrContext),
    c.key = d.key → c.nonce = d.nonce → c.counter ≠ d.counter →
      counterBlock order c ≠ counterBlock order d ∧
      aes128 c.key (counterBlock order c) ≠ aes128 d.key (counterBlock order d)

/-- R115: the S-box table agrees with the formula: an affine map of the inverse in GF(2^8), and `0x63`. -/
def Obligations.SboxMatchesFormula : Prop :=
  sbox 0x00 = 0x63 ∧
  ∀ a : Byte, a ≠ 0 → ∃ b : Byte, gfMul a b = 1 ∧ sbox a = sboxAffine b ^^^ 0x63

/-- R123: the four examples of `AES128`. -/
def Obligations.AesExamples : Prop :=
  aes128 #v[0x2b, 0x7e, 0x15, 0x16, 0x28, 0xae, 0xd2, 0xa6, 0xab, 0xf7, 0x15, 0x88, 0x09, 0xcf, 0x4f, 0x3c]
      #v[0x32, 0x43, 0xf6, 0xa8, 0x88, 0x5a, 0x30, 0x8d, 0x31, 0x31, 0x98, 0xa2, 0xe0, 0x37, 0x07, 0x34] =
    #v[0x39, 0x25, 0x84, 0x1d, 0x02, 0xdc, 0x09, 0xfb, 0xdc, 0x11, 0x85, 0x97, 0x19, 0x6a, 0x0b, 0x32] ∧
  aes128 #v[0x00, 0x01, 0x02, 0x03, 0x04, 0x05, 0x06, 0x07, 0x08, 0x09, 0x0a, 0x0b, 0x0c, 0x0d, 0x0e, 0x0f]
      #v[0x00, 0x11, 0x22, 0x33, 0x44, 0x55, 0x66, 0x77, 0x88, 0x99, 0xaa, 0xbb, 0xcc, 0xdd, 0xee, 0xff] =
    #v[0x69, 0xc4, 0xe0, 0xd8, 0x6a, 0x7b, 0x04, 0x30, 0xd8, 0xcd, 0xb7, 0x80, 0x70, 0xb4, 0xc5, 0x5a] ∧
  aes128 zeroBlock zeroBlock =
    #v[0x66, 0xe9, 0x4b, 0xd4, 0xef, 0x8a, 0x2c, 0x3b, 0x88, 0x4c, 0xfa, 0x59, 0xca, 0x34, 0x2b, 0x2e] ∧
  aes128 #v[0x2b, 0x7e, 0x15, 0x16, 0x28, 0xae, 0xd2, 0xa6, 0xab, 0xf7, 0x15, 0x88, 0x09, 0xcf, 0x4f, 0x3c]
      zeroBlock =
    #v[0x7d, 0xf7, 0x6b, 0x0c, 0x1a, 0xb8, 0x99, 0xb3, 0x3e, 0x42, 0xf0, 0x47, 0xb9, 0x1b, 0x54, 0x6f]

/-- R152: `double` is a shift by one bit of the 128-bit number with byte 0 most significant, `0x87` added to the last
byte exactly when the input's top bit was 1. -/
def Obligations.DoubleShiftsNumber : Prop :=
  ∀ x : Block,
    blockNumber (double x) =
      (2 * blockNumber x % 2 ^ 128) ^^^ (if 2 ^ 127 ≤ blockNumber x then 0x87 else 0)

/-- R157: the padded form of `p` buffered bytes; bytes of the buffer from index `p` on are not used. -/
def Obligations.PadLayout : Prop :=
  ∀ (acc acc' : Block) (p : Nat), p ≤ 15 →
    (∀ j : Fin 16, (padBlock acc p)[j] = if j.val < p then acc[j] else if j.val = p then 0x80 else 0x00) ∧
    ((∀ j : Fin 16, j.val < p → acc[j] = acc'[j]) → padBlock acc p = padBlock acc' p)

/-! ### The claim and the issue -/

/-- R201: a read of `ACQUIRE`, at any time, takes a free claim and returns 1, or counts a collision and returns 0; nothing
else changes. Another width or a misaligned offset in `ACQUIRE` is refused. Here and below the events in
`inbox` and the answer in `reply` are the model's own fields (assumptions 5 and 8). -/
def Obligations.AcquireTestAndSet : Prop :=
  ∀ (s : State) (rest : List Event),
    (s.inbox = .host (.read 0x0008 .word) :: rest →
      step s = .next { s with
        inbox := rest, busy := true
        collisions := if s.busy then s.collisions + 1 else s.collisions
        reply := .data (if s.busy then 0x00000000 else 0x00000001) }) ∧
    (∀ off n, 0x0008 ≤ off → off < 0x000C → (off ≠ 0x0008 ∨ n ≠ .word) →
      s.inbox = .host (.read off n) :: rest → ∃ cause, step s = .fault (.accessFault cause))

/-- R202: a write of any value to `RELEASE` clears `BUSY` and nothing else while no command is in flight, and is refused
while one is. -/
def Obligations.ReleaseClearsClaim : Prop :=
  ∀ (s : State) (v : Word) (rest : List Event), s.inbox = .host (.write 0x000C .word v) :: rest →
    (s.run = false → step s = .next { s with inbox := rest, busy := false, reply := .written }) ∧
    (s.run = true → ∃ cause, step s = .fault (.accessFault cause))

/-- R204: the three cases of a write to `CMD`, and that no other width or offset in `CMD` is admitted. -/
def Obligations.IssueOutcomes : Prop :=
  ∀ (s : State) (rest : List Event),
    (∀ w, s.inbox = .host (.write 0x0000 .word w) :: rest →
      (s.run = true →
        step s = .next { s with inbox := rest, reply := .written, collisions := s.collisions + 1 }) ∧
      (s.run = false → s.busy = false →
        step s = .next { s with inbox := rest, reply := .written, result := 0x08, done := true }) ∧
      (s.run = false → s.busy = true →
        step s = .next { s with
          inbox := rest, reply := .written, cmdLatch := w, run := true, done := false })) ∧
    (∀ off n w, off < 0x0004 → (off ≠ 0x0000 ∨ n ≠ .word) →
      s.inbox = .host (.write off n w) :: rest → ∃ cause, step s = .fault (.accessFault cause))

/-- R209: of two reads of `ACQUIRE` from a free claim, with nothing between them that touches the claim or the count,
the first returns 1 and the second 0, `COLLISIONS` grows by 1 and `BUSY` is 1; of two writes to `CMD` by a holder with no
perform step between them, the first is accepted and the second is counted and dropped. -/
def Obligations.ClaimExcludes : Prop :=
  (∀ (s t u : State) (mid : List Event), s.busy = false → (∀ e ∈ mid, leavesClaim e = true) →
    handleEvent (.host (.read 0x0008 .word)) s = .next t →
    runEvents (mid ++ [.host (.read 0x0008 .word)]) t = .next u →
      t.reply = .data 1 ∧ t.busy = true ∧ t.collisions = s.collisions ∧
      u.reply = .data 0 ∧ u.busy = true ∧ u.collisions = s.collisions + 1) ∧
  (∀ (s : State) (w w' : Word), s.busy = true → s.run = false →
    ∃ t u, handleEvent (.host (.write 0x0000 .word w)) s = .next t ∧
      handleEvent (.host (.write 0x0000 .word w')) t = .next u ∧
      u.cmdLatch = w ∧ u.run = true ∧ u.collisions = s.collisions + 1)

/-- R34, R206: nothing takes `BUSY` away but a write to `RELEASE` while no command is in flight, and reset. -/
def Obligations.BusyKeptUntilRelease : Prop :=
  ∀ (e : Event) (s t : State), handleEvent e s = .next t → s.busy = true → t.busy = false →
    e = .reset ∨ (s.run = false ∧ ∃ v, e = .host (.write 0x000C .word v))

/-- R40, R41: what changes the two event counters, and by how much. -/
def Obligations.EventCounters : Prop :=
  ∀ (e : Event) (s t : State), handleEvent e s = .next t → e ≠ .reset →
    (t.collisions = s.collisions + 1 ∧
        ((e = .host (.read 0x0008 .word) ∧ s.busy = true) ∨
          (s.run = true ∧ ∃ w, e = .host (.write 0x0000 .word w))) ∨
      t.collisions = s.collisions ∧
        ¬ ((e = .host (.read 0x0008 .word) ∧ s.busy = true) ∨
          (s.run = true ∧ ∃ w, e = .host (.write 0x0000 .word w)))) ∧
    (t.oracleFails = s.oracleFails + 1 ∧ e = .engine ∧ s.run = true ∧ isOracleCode t.result = true ∨
      t.oracleFails = s.oracleFails ∧ ¬ (e = .engine ∧ s.run = true ∧ isOracleCode t.result = true)) ∧
    (∀ u : State,
      handleEvent (.host (.read 0x0010 .word)) u = .next { u with reply := .data u.collisions } ∧
      handleEvent (.host (.read 0x0014 .word)) u = .next { u with reply := .data u.oracleFails })

/-! ### Bus accesses -/

/-- R70, R72, R66, R67, R47: exactly which accesses are admitted, by offset, width and direction; every other one is a
fault. -/
def Obligations.AdmittedAccesses : Prop :=
  (∀ (s : State) (off : Nat) (n : Width),
    let admitted :=
      off % n.bytes = 0 ∧
      ((n = .word ∧ (off = 0x0004 ∨ off = 0x0008 ∨ off = 0x0010 ∨ off = 0x0014)) ∨
       (s.run = false ∧ n = .word ∧ 0x0100 ≤ off ∧ off < 0x0100 + 4 * s.cfg.nctx) ∨
       (s.run = false ∧ n = .word ∧ 0x0140 ≤ off ∧ off < 0x0140 + 4 * s.cfg.nctx) ∨
       (s.run = false ∧ 0x1000 ≤ off ∧ off < 0x1000 + s.cfg.ibufSize) ∨
       (s.run = false ∧ 0x2000 ≤ off ∧ off < 0x2FF0))
    (admitted → ∃ t, busAccess (.read off n) s = .next t) ∧
    (¬ admitted → ∃ cause, busAccess (.read off n) s = .fault (.accessFault cause))) ∧
  (∀ (s : State) (off : Nat) (n : Width) (v : Word),
    let admitted :=
      off % n.bytes = 0 ∧
      ((n = .word ∧ off = 0x0000) ∨
       (s.run = false ∧ n = .word ∧ off = 0x000C) ∨
       (s.run = false ∧ n = .word ∧ 0x0100 ≤ off ∧ off < 0x0100 + 4 * s.cfg.nctx) ∨
       (s.run = false ∧ 0x0040 ≤ off ∧ off < 0x0060) ∨
       (s.run = false ∧ 0x1000 ≤ off ∧ off < 0x1000 + s.cfg.ibufSize))
    (admitted → ∃ t, busAccess (.write off n v) s = .next t) ∧
    (¬ admitted → ∃ cause, busAccess (.write off n v) s = .fault (.accessFault cause)))

/-- R64, R69: no admitted read other than that of `ACQUIRE` changes anything of the block. -/
def Obligations.ReadsWithoutEffect : Prop :=
  ∀ (s t : State) (off : Nat) (n : Width), busAccess (.read off n) s = .next t → off ≠ 0x0008 →
    ∃ v, t = { s with reply := .data v }

/-- R37: a read of `STATUS`, at any time, returns the flags and the result at their bits, the rest 0. -/
def Obligations.StatusRead : Prop :=
  ∀ s : State, ∃ w : Word, busAccess (.read 0x0004 .word) s = .next { s with reply := .data w } ∧
    w.getLsbD 0 = s.busy ∧ w.getLsbD 1 = s.run ∧ w.getLsbD 2 = s.done ∧
    (∀ k, 3 ≤ k → k < 8 → w.getLsbD k = false) ∧ w.extractLsb' 8 8 = s.result ∧
    (∀ k, 16 ≤ k → w.getLsbD k = false)

/-- R43: a read of `CTXSTAT[i]` while no command is in flight returns the slot's status at its bits, the rest 0. -/
def Obligations.CtxstatRead : Prop :=
  ∀ (s : State) (i : SlotId), slotExists s.cfg i = true → s.run = false →
    ∃ w : Word, busAccess (.read (0x0140 + 4 * i.toNat) .word) s = .next { s with reply := .data w } ∧
      w.getLsbD 0 = (s.slot i).ctr.init ∧
      (w.extractLsb' 1 2).toNat = (match (s.slot i).mac.phase with | .uninit => 0 | .ready => 1 | .finished => 2) ∧
      w.getLsbD 3 = (s.slot i).mac.multiblock ∧ w.extractLsb' 4 5 = (s.slot i).mac.partialLength ∧
      (∀ k, 9 ≤ k → w.getLsbD k = false)

/-- R42: `CNT[i]` reads and writes the slot's counter while no command is in flight, and a write changes nothing
else. -/
def Obligations.CounterRegister : Prop :=
  ∀ (s : State) (i : SlotId) (v : Word), slotExists s.cfg i = true → s.run = false →
    busAccess (.read (0x0100 + 4 * i.toNat) .word) s =
      .next { s with reply := .data (s.slot i).ctr.counter } ∧
    ∃ t, busAccess (.write (0x0100 + 4 * i.toNat) .word v) s = .next t ∧
      t = { s with slots := t.slots, reply := .written } ∧ OtherSlots s t i ∧
      t.slot i = { s.slot i with ctr := { (s.slot i).ctr with counter := v } }

/-- R61, R65, R44, R45: an admitted write to `KBUF` or `IBUF` stores the number's bytes, the least significant at the
lowest offset, and changes nothing else. -/
def Obligations.BufferWriteLanes : Prop :=
  ∀ (s : State) (off : Nat) (n : Width) (v : Word), s.run = false → s.mem.wf = true → off % n.bytes = 0 →
    ((0x0040 ≤ off ∧ off < 0x0060) ∨ (0x1000 ≤ off ∧ off < 0x1000 + s.cfg.ibufSize)) →
    ∃ t, busAccess (.write off n v) s = .next t ∧
      (∀ k, k < n.bytes → t.mem.read (off + k) = v.extractLsb' (8 * k) 8) ∧
      SameBytesOutside s t off n.bytes ∧ t = { s with mem := t.mem, reply := .written }

/-- R61, R64, R45, R46: an admitted read of `IBUF` or `OBUF` returns the little-endian number of the bytes, and changes
nothing. -/
def Obligations.BufferReadLanes : Prop :=
  ∀ (s : State) (off : Nat) (n : Width), s.run = false → off % n.bytes = 0 →
    ((0x1000 ≤ off ∧ off < 0x1000 + s.cfg.ibufSize) ∨ (0x2000 ≤ off ∧ off < 0x2FF0)) →
    ∃ v : Word, busAccess (.read off n) s = .next { s with reply := .data v } ∧
      v.toNat = ((List.range n.bytes).map fun k => (s.mem.read (off + k)).toNat * 2 ^ (8 * k)).sum

/-- R63: four byte writes at `a..a+3` and one 32-bit write at `a` of the little-endian composition leave the same
state. -/
def Obligations.MixedWidthSameBytes : Prop :=
  ∀ (s : State) (a : Nat) (b0 b1 b2 b3 : Byte), s.run = false → a % 4 = 0 →
    ((0x0040 ≤ a ∧ a < 0x0060) ∨ (0x1000 ≤ a ∧ a < 0x1000 + s.cfg.ibufSize)) →
    ∃ t, busAccess (.write a .word (wordOfBytes b0 b1 b2 b3)) s = .next t ∧
      runEvents [.host (.write a .byte (b0.setWidth 32)), .host (.write (a + 1) .byte (b1.setWidth 32)),
        .host (.write (a + 2) .byte (b2.setWidth 32)), .host (.write (a + 3) .byte (b3.setWidth 32))] s = .next t

/-! ### Invariants and isolation -/

/-- R48: every step keeps `RUN = 1 → BUSY = 1 ∧ DONE = 0`. -/
def Obligations.StepKeepsFlagsInvariant : Prop :=
  ∀ s t : State, FlagsInv s → step s = .next t → FlagsInv t

/-- R27: every step keeps the invariant of every CmacContext, `kctx` among them. -/
def Obligations.StepKeepsMacInvariant : Prop :=
  ∀ s t : State, MacsInv s → step s = .next t → MacsInv t

/-- Every step keeps the window's storage in canonical form, with bytes of the three buffers only (R35, R47; the
canonical form is the model's, assumption 6). -/
def Obligations.StepKeepsMemoryForm : Prop :=
  ∀ s t : State, MemInv s → step s = .next t → MemInv t

/-- R260: no step produces a reserved result code. -/
def Obligations.StepKeepsResultCodes : Prop :=
  ∀ s t : State, ResultInv s → step s = .next t → ResultInv t

/-- The invariants hold right after reset, whatever the parameters. The flags, the result and the slots have the values of
R50; that `kctx`, which R50 leaves unspecified, meets the invariant of R27 is the model's choice of its reset value
(assumption 1), and so is the canonical form of the storage (assumption 6). -/
def Obligations.ResetMeetsInvariants : Prop :=
  ∀ p : Params,
    FlagsInv (State.resetWith p) ∧ MacsInv (State.resetWith p) ∧ MemInv (State.resetWith p) ∧
    ResultInv (State.resetWith p)

/-- R50, R300: what reset leaves, after `State.reset` and after the reset event from any state; only the values R50
gives. -/
def Obligations.ResetValues : Prop :=
  ∀ t : State,
    (t = State.reset ∨ (∃ (s : State) (rest : List Event), s.inbox = .reset :: rest ∧ step s = .next t)) →
      t.busy = false ∧ t.run = false ∧ t.done = false ∧ t.result = 0x00 ∧ t.collisions = 0 ∧
      t.oracleFails = 0 ∧ (∀ a, t.mem.read a = 0x00) ∧
      ∀ i : SlotId, (t.slot i).ctr.init = false ∧ (t.slot i).ctr.counter = 0 ∧
        (t.slot i).mac.phase = .uninit ∧ (t.slot i).mac.partialLength = 0 ∧ (t.slot i).mac.multiblock = false

/-- R50, R24, R29, R33 (93_implementation_defined.md U4, U5, U6): no rule reads what the spec leaves unspecified. Two
states that differ only there step to states that differ only there, or fault alike. -/
def Obligations.UnspecifiedNeverRead : Prop :=
  ∀ s t : State, s.eraseUnread = t.eraseUnread → AgreeUpTo State.eraseUnread (step s) (step t)

/-- R24, R26, R44, R280: a host access never shows key material. Two states that differ only in key material answer
every host access alike, and go on to states that differ only in key material. -/
def Obligations.SecretsNotReadable : Prop :=
  ∀ (s t : State) (a : Access), s.eraseSecrets = t.eraseSecrets →
    AgreeUpTo State.eraseSecrets (busAccess a s) (busAccess a t)

/-- R260: the code of every result. -/
def Obligations.ResultCodes : Prop :=
  CommandResult.ok.code = 0x00 ∧ (CommandResult.oracleFailure .timeout).code = 0x01 ∧
  (CommandResult.oracleFailure .fault).code = 0x02 ∧ CommandResult.lengthFailure.code = 0x03 ∧
  CommandResult.protocolBoundsFailure.code = 0x04 ∧ CommandResult.illegalCommand.code = 0x05 ∧
  CommandResult.sequenceFailure.code = 0x06 ∧ CommandResult.operandRange.code = 0x07 ∧
  CommandResult.noClaim.code = 0x08
end

