-- ==== Sys2Proof/Laws/Memory.lean ====
section
/-!
SUPPORT. The laws of the window's storage: reading after writing, and that every operation keeps the canonical form.
-/

namespace Sys2Proof.Machine

theorem Memory.wfFrom_mono {lo lo' : Nat} (h : lo' ≤ lo) :
    ∀ {m : Memory}, Memory.wfFrom lo m = true → Memory.wfFrom lo' m = true
  | [], _ => rfl
  | (k, b) :: rest, hm => by
    simp only [Memory.wfFrom, Bool.and_eq_true, decide_eq_true_eq] at hm ⊢
    exact ⟨⟨by omega, hm.1.2⟩, hm.2⟩

/-- Below every listed address the storage reads as unlisted. -/
theorem Memory.read_below {lo a : Nat} (h : a < lo) :
    ∀ {m : Memory}, Memory.wfFrom lo m = true → m.read a = unlistedByte
  | [], _ => rfl
  | (k, b) :: rest, hm => by
    simp only [Memory.wfFrom, Bool.and_eq_true, decide_eq_true_eq] at hm
    have hk : k ≠ a := by omega
    simp only [Memory.read, hk, if_false]
    exact Memory.read_below (lo := k + 1) (by omega) hm.2

/-- Reading past the cell put in front. -/
theorem Memory.read_cons_ne {a c : Nat} (b : Byte) (rest : Memory) (h : c ≠ a) :
    (Memory.cons a b rest).read c = rest.read c := by
  unfold Memory.cons
  split
  · rfl
  · simp [Memory.read, h.symm]

/-- Reading the cell put in front, when nothing at or below its address is listed behind it. -/
theorem Memory.read_cons_self {a : Nat} (b : Byte) {rest : Memory} (h : rest.read a = unlistedByte) :
    (Memory.cons a b rest).read a = b := by
  unfold Memory.cons
  split
  · simp_all
  · simp [Memory.read]

/-- A write leaves every other address alone, whatever the storage's form. -/
theorem Memory.read_write_ne {a c : Nat} (b : Byte) (h : c ≠ a) :
    ∀ m : Memory, (m.write a b).read c = m.read c
  | [] => Memory.read_cons_ne b [] h
  | (k, d) :: rest => by
    simp only [Memory.write]
    split
    · exact Memory.read_cons_ne b _ h
    · split
      · rename_i hak
        subst hak
        rw [Memory.read_cons_ne b rest h]
        simp [Memory.read, h.symm]
      · simp only [Memory.read]
        split
        · rfl
        · exact Memory.read_write_ne b h rest

/-- A read after a write to the same address gives the byte written. -/
theorem Memory.read_write_self (a : Nat) (b : Byte) :
    ∀ {m : Memory} {lo : Nat}, Memory.wfFrom lo m = true → (m.write a b).read a = b
  | [], _, _ => Memory.read_cons_self b rfl
  | (k, d) :: rest, lo, hm => by
    simp only [Memory.wfFrom, Bool.and_eq_true, decide_eq_true_eq] at hm
    simp only [Memory.write]
    split
    · rename_i hak
      apply Memory.read_cons_self
      have hk : k ≠ a := by omega
      simp only [Memory.read, hk, if_false]
      exact Memory.read_below (lo := k + 1) (by omega) hm.2
    · split
      · rename_i hak
        exact Memory.read_cons_self b (Memory.read_below (lo := k + 1) (by omega) hm.2)
      · rename_i hak hne
        have hk : k ≠ a := fun h => hne h.symm
        simp only [Memory.read, hk, if_false]
        exact Memory.read_write_self a b hm.2

/-- Putting a cell in front keeps the form when everything behind it lies above. -/
theorem Memory.wfFrom_cons {lo a : Nat} (b : Byte) {rest : Memory} (hlo : lo ≤ a)
    (hr : Memory.wfFrom (a + 1) rest = true) : Memory.wfFrom lo (Memory.cons a b rest) = true := by
  unfold Memory.cons
  split
  · exact Memory.wfFrom_mono (by omega) hr
  · rename_i hb
    simp only [Memory.wfFrom, Bool.and_eq_true, decide_eq_true_eq]
    exact ⟨⟨hlo, hb⟩, hr⟩

/-- A write at or above the bound keeps the form above the bound. -/
theorem Memory.wfFrom_write {a : Nat} (b : Byte) :
    ∀ {m : Memory} {lo : Nat}, lo ≤ a → Memory.wfFrom lo m = true → Memory.wfFrom lo (m.write a b) = true
  | [], _, hlo, _ => Memory.wfFrom_cons b hlo rfl
  | (k, d) :: rest, lo, hlo, hm => by
    simp only [Memory.wfFrom, Bool.and_eq_true, decide_eq_true_eq] at hm
    simp only [Memory.write]
    split
    · apply Memory.wfFrom_cons b hlo
      simp only [Memory.wfFrom, Bool.and_eq_true, decide_eq_true_eq]
      exact ⟨⟨by omega, hm.1.2⟩, hm.2⟩
    · split
      · exact Memory.wfFrom_cons b hlo (Memory.wfFrom_mono (by omega) hm.2)
      · simp only [Memory.wfFrom, Bool.and_eq_true, decide_eq_true_eq]
        exact ⟨hm.1, Memory.wfFrom_write b (by omega) hm.2⟩

/-- A write of one byte keeps the canonical form. -/
theorem Memory.wf_write {m : Memory} (a : Nat) (b : Byte) (h : m.wf = true) : (m.write a b).wf = true :=
  Memory.wfFrom_write b (Nat.zero_le a) h

/-- A write of a byte string keeps the canonical form. -/
theorem Memory.wf_writeBytes : ∀ (bs : List Byte) {m : Memory} (a : Nat), m.wf = true → (m.writeBytes a bs).wf = true
  | [], _, _, h => h
  | b :: bs, _, a, h => Memory.wf_writeBytes bs (a + 1) (Memory.wf_write a b h)

/-- A write of a byte string leaves every address outside it alone. -/
theorem Memory.read_writeBytes_outside :
    ∀ (bs : List Byte) (m : Memory) (a c : Nat), c < a ∨ a + bs.length ≤ c → (m.writeBytes a bs).read c = m.read c
  | [], _, _, _, _ => rfl
  | b :: bs, m, a, c, h => by
    simp only [List.length_cons] at h
    rw [Memory.writeBytes, Memory.read_writeBytes_outside bs _ _ _ (by omega)]
    exact Memory.read_write_ne b (by omega) m

/-- A read inside a byte string just written gives its byte. -/
theorem Memory.read_writeBytes_inside :
    ∀ (bs : List Byte) (m : Memory) (a j : Nat) (hj : j < bs.length),
      m.wf = true → (m.writeBytes a bs).read (a + j) = bs[j]
  | b :: bs, m, a, 0, _, hm => by
    rw [Memory.writeBytes, Memory.read_writeBytes_outside bs _ _ _ (by omega)]
    exact Memory.read_write_self a b hm
  | b :: bs, m, a, j + 1, hj, hm => by
    rw [Memory.writeBytes]
    have h := Memory.read_writeBytes_inside bs (m.write a b) (a + 1) j (by simpa using hj) (Memory.wf_write a b hm)
    simpa [Nat.add_assoc, Nat.add_comm 1 j] using h

/-- Writing back the byte an address reads as changes no read. -/
theorem Memory.read_write {m : Memory} (a c : Nat) (b : Byte) (h : m.wf = true) :
    (m.write a b).read c = if c = a then b else m.read c := by
  split
  · rename_i hc
    subst hc
    exact Memory.read_write_self c b h
  · rename_i hc
    exact Memory.read_write_ne b hc m

@[simp] theorem Memory.length_readBytes (m : Memory) : ∀ (n a : Nat), (m.readBytes a n).length = n
  | 0, _ => rfl
  | n + 1, a => by simp [Memory.readBytes, Memory.length_readBytes m n]

/-- Byte `j` of a byte string read. -/
theorem Memory.getElem_readBytes (m : Memory) :
    ∀ (n a j : Nat) (hj : j < (m.readBytes a n).length), (m.readBytes a n)[j] = m.read (a + j)
  | 0, _, _, hj => by simp at hj
  | n + 1, a, 0, _ => by simp [Memory.readBytes]
  | n + 1, a, j + 1, hj => by
    simp only [Memory.readBytes, List.getElem_cons_succ]
    rw [Memory.getElem_readBytes m n (a + 1) j]
    congr 1
    omega

/-- Two storages that read alike give the same byte string. -/
theorem Memory.readBytes_congr {m m' : Memory} (n a : Nat)
    (h : ∀ c, a ≤ c → c < a + n → m.read c = m'.read c) : m.readBytes a n = m'.readBytes a n := by
  induction n generalizing a with
  | zero => rfl
  | succ n ih =>
    simp only [Memory.readBytes]
    rw [h a (by omega) (by omega), ih (a + 1) fun c h1 h2 => h c (by omega) (by omega)]

/-- Where the cells of a storage after a write come from. -/
theorem Memory.mem_write {a : Nat} {b : Byte} {c : Host.Cell} :
    ∀ {m : Memory}, c ∈ m.write a b → c.1 = a ∨ c ∈ m
  | [], h => by
    simp only [Memory.write, Memory.cons] at h
    split at h <;> simp_all
  | (k, d) :: rest, h => by
    simp only [Memory.write, Memory.cons] at h
    split at h
    · split at h <;> simp_all
      rcases h with h | h | h <;> simp_all
    · split at h
      · split at h <;> simp_all
        rcases h with h | h <;> simp_all
      · simp only [List.mem_cons] at h ⊢
        rcases h with h | h
        · exact .inr (.inl h)
        · rcases Memory.mem_write h with h | h
          · exact .inl h
          · exact .inr (.inr h)

/-- Where the cells of a storage after a write of a byte string come from. -/
theorem Memory.mem_writeBytes {c : Host.Cell} :
    ∀ {bs : List Byte} {m : Memory} {a : Nat},
      c ∈ m.writeBytes a bs → (a ≤ c.1 ∧ c.1 < a + bs.length) ∨ c ∈ m
  | [], _, _, h => .inr h
  | b :: bs, m, a, h => by
    rw [Memory.writeBytes] at h
    rcases Memory.mem_writeBytes h with ⟨h1, h2⟩ | h
    · exact .inl ⟨by omega, by simp; omega⟩
    · rcases Memory.mem_write h with h | h
      · exact .inl ⟨by omega, by simp; omega⟩
      · exact .inr h

end Sys2Proof.Machine
end

