-- ==== Sys2Proof/Laws/State.lean ====
section
/-!
SUPPORT. What each update of the state does to each field: one lemma per field per update, true by definition; and
what the slot updates do to `State.slot`.
-/

namespace Sys2Proof.Machine

/-! ### `setMem` -/

@[simp] theorem State.setMem_cfg (s : State) (m : Memory) : (s.setMem m).cfg = s.cfg := rfl
@[simp] theorem State.setMem_slots (s : State) (m : Memory) : (s.setMem m).slots = s.slots := rfl
@[simp] theorem State.setMem_kctx (s : State) (m : Memory) : (s.setMem m).kctx = s.kctx := rfl
@[simp] theorem State.setMem_mem (s : State) (m : Memory) : (s.setMem m).mem = m := rfl
@[simp] theorem State.setMem_cmdLatch (s : State) (m : Memory) : (s.setMem m).cmdLatch = s.cmdLatch := rfl
@[simp] theorem State.setMem_busy (s : State) (m : Memory) : (s.setMem m).busy = s.busy := rfl
@[simp] theorem State.setMem_run (s : State) (m : Memory) : (s.setMem m).run = s.run := rfl
@[simp] theorem State.setMem_done (s : State) (m : Memory) : (s.setMem m).done = s.done := rfl
@[simp] theorem State.setMem_result (s : State) (m : Memory) : (s.setMem m).result = s.result := rfl
@[simp] theorem State.setMem_collisions (s : State) (m : Memory) : (s.setMem m).collisions = s.collisions := rfl
@[simp] theorem State.setMem_oracleFails (s : State) (m : Memory) : (s.setMem m).oracleFails = s.oracleFails := rfl
@[simp] theorem State.setMem_inbox (s : State) (m : Memory) : (s.setMem m).inbox = s.inbox := rfl
@[simp] theorem State.setMem_reply (s : State) (m : Memory) : (s.setMem m).reply = s.reply := rfl
@[simp] theorem State.setMem_oracle (s : State) (m : Memory) : (s.setMem m).oracle = s.oracle := rfl
@[simp] theorem State.setMem_freeCount (s : State) (m : Memory) : (s.setMem m).freeCount = s.freeCount := rfl

/-! ### `setOracle` -/

@[simp] theorem State.setOracle_cfg (s : State) (o : OracleInput) : (s.setOracle o).cfg = s.cfg := rfl
@[simp] theorem State.setOracle_slots (s : State) (o : OracleInput) : (s.setOracle o).slots = s.slots := rfl
@[simp] theorem State.setOracle_kctx (s : State) (o : OracleInput) : (s.setOracle o).kctx = s.kctx := rfl
@[simp] theorem State.setOracle_mem (s : State) (o : OracleInput) : (s.setOracle o).mem = s.mem := rfl
@[simp] theorem State.setOracle_cmdLatch (s : State) (o : OracleInput) : (s.setOracle o).cmdLatch = s.cmdLatch := rfl
@[simp] theorem State.setOracle_busy (s : State) (o : OracleInput) : (s.setOracle o).busy = s.busy := rfl
@[simp] theorem State.setOracle_run (s : State) (o : OracleInput) : (s.setOracle o).run = s.run := rfl
@[simp] theorem State.setOracle_done (s : State) (o : OracleInput) : (s.setOracle o).done = s.done := rfl
@[simp] theorem State.setOracle_result (s : State) (o : OracleInput) : (s.setOracle o).result = s.result := rfl
@[simp] theorem State.setOracle_collisions (s : State) (o : OracleInput) : (s.setOracle o).collisions = s.collisions := rfl
@[simp] theorem State.setOracle_oracleFails (s : State) (o : OracleInput) : (s.setOracle o).oracleFails = s.oracleFails := rfl
@[simp] theorem State.setOracle_inbox (s : State) (o : OracleInput) : (s.setOracle o).inbox = s.inbox := rfl
@[simp] theorem State.setOracle_reply (s : State) (o : OracleInput) : (s.setOracle o).reply = s.reply := rfl
@[simp] theorem State.setOracle_oracle (s : State) (o : OracleInput) : (s.setOracle o).oracle = o := rfl
@[simp] theorem State.setOracle_freeCount (s : State) (o : OracleInput) : (s.setOracle o).freeCount = s.freeCount := rfl

/-! ### `setKctx` -/

@[simp] theorem State.setKctx_cfg (s : State) (c : CmacContext) : (s.setKctx c).cfg = s.cfg := rfl
@[simp] theorem State.setKctx_slots (s : State) (c : CmacContext) : (s.setKctx c).slots = s.slots := rfl
@[simp] theorem State.setKctx_kctx (s : State) (c : CmacContext) : (s.setKctx c).kctx = c := rfl
@[simp] theorem State.setKctx_mem (s : State) (c : CmacContext) : (s.setKctx c).mem = s.mem := rfl
@[simp] theorem State.setKctx_cmdLatch (s : State) (c : CmacContext) : (s.setKctx c).cmdLatch = s.cmdLatch := rfl
@[simp] theorem State.setKctx_busy (s : State) (c : CmacContext) : (s.setKctx c).busy = s.busy := rfl
@[simp] theorem State.setKctx_run (s : State) (c : CmacContext) : (s.setKctx c).run = s.run := rfl
@[simp] theorem State.setKctx_done (s : State) (c : CmacContext) : (s.setKctx c).done = s.done := rfl
@[simp] theorem State.setKctx_result (s : State) (c : CmacContext) : (s.setKctx c).result = s.result := rfl
@[simp] theorem State.setKctx_collisions (s : State) (c : CmacContext) : (s.setKctx c).collisions = s.collisions := rfl
@[simp] theorem State.setKctx_oracleFails (s : State) (c : CmacContext) : (s.setKctx c).oracleFails = s.oracleFails := rfl
@[simp] theorem State.setKctx_inbox (s : State) (c : CmacContext) : (s.setKctx c).inbox = s.inbox := rfl
@[simp] theorem State.setKctx_reply (s : State) (c : CmacContext) : (s.setKctx c).reply = s.reply := rfl
@[simp] theorem State.setKctx_oracle (s : State) (c : CmacContext) : (s.setKctx c).oracle = s.oracle := rfl
@[simp] theorem State.setKctx_freeCount (s : State) (c : CmacContext) : (s.setKctx c).freeCount = s.freeCount := rfl

/-! ### `setReply` -/

@[simp] theorem State.setReply_cfg (s : State) (r : Reply) : (s.setReply r).cfg = s.cfg := rfl
@[simp] theorem State.setReply_slots (s : State) (r : Reply) : (s.setReply r).slots = s.slots := rfl
@[simp] theorem State.setReply_kctx (s : State) (r : Reply) : (s.setReply r).kctx = s.kctx := rfl
@[simp] theorem State.setReply_mem (s : State) (r : Reply) : (s.setReply r).mem = s.mem := rfl
@[simp] theorem State.setReply_cmdLatch (s : State) (r : Reply) : (s.setReply r).cmdLatch = s.cmdLatch := rfl
@[simp] theorem State.setReply_busy (s : State) (r : Reply) : (s.setReply r).busy = s.busy := rfl
@[simp] theorem State.setReply_run (s : State) (r : Reply) : (s.setReply r).run = s.run := rfl
@[simp] theorem State.setReply_done (s : State) (r : Reply) : (s.setReply r).done = s.done := rfl
@[simp] theorem State.setReply_result (s : State) (r : Reply) : (s.setReply r).result = s.result := rfl
@[simp] theorem State.setReply_collisions (s : State) (r : Reply) : (s.setReply r).collisions = s.collisions := rfl
@[simp] theorem State.setReply_oracleFails (s : State) (r : Reply) : (s.setReply r).oracleFails = s.oracleFails := rfl
@[simp] theorem State.setReply_inbox (s : State) (r : Reply) : (s.setReply r).inbox = s.inbox := rfl
@[simp] theorem State.setReply_reply (s : State) (r : Reply) : (s.setReply r).reply = r := rfl
@[simp] theorem State.setReply_oracle (s : State) (r : Reply) : (s.setReply r).oracle = s.oracle := rfl
@[simp] theorem State.setReply_freeCount (s : State) (r : Reply) : (s.setReply r).freeCount = s.freeCount := rfl

/-! ### `setInbox` -/

@[simp] theorem State.setInbox_cfg (s : State) (q : List Event) : (s.setInbox q).cfg = s.cfg := rfl
@[simp] theorem State.setInbox_slots (s : State) (q : List Event) : (s.setInbox q).slots = s.slots := rfl
@[simp] theorem State.setInbox_kctx (s : State) (q : List Event) : (s.setInbox q).kctx = s.kctx := rfl
@[simp] theorem State.setInbox_mem (s : State) (q : List Event) : (s.setInbox q).mem = s.mem := rfl
@[simp] theorem State.setInbox_cmdLatch (s : State) (q : List Event) : (s.setInbox q).cmdLatch = s.cmdLatch := rfl
@[simp] theorem State.setInbox_busy (s : State) (q : List Event) : (s.setInbox q).busy = s.busy := rfl
@[simp] theorem State.setInbox_run (s : State) (q : List Event) : (s.setInbox q).run = s.run := rfl
@[simp] theorem State.setInbox_done (s : State) (q : List Event) : (s.setInbox q).done = s.done := rfl
@[simp] theorem State.setInbox_result (s : State) (q : List Event) : (s.setInbox q).result = s.result := rfl
@[simp] theorem State.setInbox_collisions (s : State) (q : List Event) : (s.setInbox q).collisions = s.collisions := rfl
@[simp] theorem State.setInbox_oracleFails (s : State) (q : List Event) : (s.setInbox q).oracleFails = s.oracleFails := rfl
@[simp] theorem State.setInbox_inbox (s : State) (q : List Event) : (s.setInbox q).inbox = q := rfl
@[simp] theorem State.setInbox_reply (s : State) (q : List Event) : (s.setInbox q).reply = s.reply := rfl
@[simp] theorem State.setInbox_oracle (s : State) (q : List Event) : (s.setInbox q).oracle = s.oracle := rfl
@[simp] theorem State.setInbox_freeCount (s : State) (q : List Event) : (s.setInbox q).freeCount = s.freeCount := rfl

/-! ### `setSlot` -/

@[simp] theorem State.setSlot_cfg (s : State) (i : SlotId) (sl : Slot) : (s.setSlot i sl).cfg = s.cfg := rfl
@[simp] theorem State.setSlot_slots (s : State) (i : SlotId) (sl : Slot) : (s.setSlot i sl).slots = s.slots.set i.toNat sl := rfl
@[simp] theorem State.setSlot_kctx (s : State) (i : SlotId) (sl : Slot) : (s.setSlot i sl).kctx = s.kctx := rfl
@[simp] theorem State.setSlot_mem (s : State) (i : SlotId) (sl : Slot) : (s.setSlot i sl).mem = s.mem := rfl
@[simp] theorem State.setSlot_cmdLatch (s : State) (i : SlotId) (sl : Slot) : (s.setSlot i sl).cmdLatch = s.cmdLatch := rfl
@[simp] theorem State.setSlot_busy (s : State) (i : SlotId) (sl : Slot) : (s.setSlot i sl).busy = s.busy := rfl
@[simp] theorem State.setSlot_run (s : State) (i : SlotId) (sl : Slot) : (s.setSlot i sl).run = s.run := rfl
@[simp] theorem State.setSlot_done (s : State) (i : SlotId) (sl : Slot) : (s.setSlot i sl).done = s.done := rfl
@[simp] theorem State.setSlot_result (s : State) (i : SlotId) (sl : Slot) : (s.setSlot i sl).result = s.result := rfl
@[simp] theorem State.setSlot_collisions (s : State) (i : SlotId) (sl : Slot) : (s.setSlot i sl).collisions = s.collisions := rfl
@[simp] theorem State.setSlot_oracleFails (s : State) (i : SlotId) (sl : Slot) : (s.setSlot i sl).oracleFails = s.oracleFails := rfl
@[simp] theorem State.setSlot_inbox (s : State) (i : SlotId) (sl : Slot) : (s.setSlot i sl).inbox = s.inbox := rfl
@[simp] theorem State.setSlot_reply (s : State) (i : SlotId) (sl : Slot) : (s.setSlot i sl).reply = s.reply := rfl
@[simp] theorem State.setSlot_oracle (s : State) (i : SlotId) (sl : Slot) : (s.setSlot i sl).oracle = s.oracle := rfl
@[simp] theorem State.setSlot_freeCount (s : State) (i : SlotId) (sl : Slot) : (s.setSlot i sl).freeCount = s.freeCount := rfl

/-! ### `setCtr` -/

@[simp] theorem State.setCtr_cfg (s : State) (i : SlotId) (c : AesCtrContext) : (s.setCtr i c).cfg = s.cfg := rfl
@[simp] theorem State.setCtr_kctx (s : State) (i : SlotId) (c : AesCtrContext) : (s.setCtr i c).kctx = s.kctx := rfl
@[simp] theorem State.setCtr_mem (s : State) (i : SlotId) (c : AesCtrContext) : (s.setCtr i c).mem = s.mem := rfl
@[simp] theorem State.setCtr_cmdLatch (s : State) (i : SlotId) (c : AesCtrContext) : (s.setCtr i c).cmdLatch = s.cmdLatch := rfl
@[simp] theorem State.setCtr_busy (s : State) (i : SlotId) (c : AesCtrContext) : (s.setCtr i c).busy = s.busy := rfl
@[simp] theorem State.setCtr_run (s : State) (i : SlotId) (c : AesCtrContext) : (s.setCtr i c).run = s.run := rfl
@[simp] theorem State.setCtr_done (s : State) (i : SlotId) (c : AesCtrContext) : (s.setCtr i c).done = s.done := rfl
@[simp] theorem State.setCtr_result (s : State) (i : SlotId) (c : AesCtrContext) : (s.setCtr i c).result = s.result := rfl
@[simp] theorem State.setCtr_collisions (s : State) (i : SlotId) (c : AesCtrContext) : (s.setCtr i c).collisions = s.collisions := rfl
@[simp] theorem State.setCtr_oracleFails (s : State) (i : SlotId) (c : AesCtrContext) : (s.setCtr i c).oracleFails = s.oracleFails := rfl
@[simp] theorem State.setCtr_inbox (s : State) (i : SlotId) (c : AesCtrContext) : (s.setCtr i c).inbox = s.inbox := rfl
@[simp] theorem State.setCtr_reply (s : State) (i : SlotId) (c : AesCtrContext) : (s.setCtr i c).reply = s.reply := rfl
@[simp] theorem State.setCtr_oracle (s : State) (i : SlotId) (c : AesCtrContext) : (s.setCtr i c).oracle = s.oracle := rfl
@[simp] theorem State.setCtr_freeCount (s : State) (i : SlotId) (c : AesCtrContext) : (s.setCtr i c).freeCount = s.freeCount := rfl

/-! ### `setMac` -/

@[simp] theorem State.setMac_cfg (s : State) (i : SlotId) (c : CmacContext) : (s.setMac i c).cfg = s.cfg := rfl
@[simp] theorem State.setMac_kctx (s : State) (i : SlotId) (c : CmacContext) : (s.setMac i c).kctx = s.kctx := rfl
@[simp] theorem State.setMac_mem (s : State) (i : SlotId) (c : CmacContext) : (s.setMac i c).mem = s.mem := rfl
@[simp] theorem State.setMac_cmdLatch (s : State) (i : SlotId) (c : CmacContext) : (s.setMac i c).cmdLatch = s.cmdLatch := rfl
@[simp] theorem State.setMac_busy (s : State) (i : SlotId) (c : CmacContext) : (s.setMac i c).busy = s.busy := rfl
@[simp] theorem State.setMac_run (s : State) (i : SlotId) (c : CmacContext) : (s.setMac i c).run = s.run := rfl
@[simp] theorem State.setMac_done (s : State) (i : SlotId) (c : CmacContext) : (s.setMac i c).done = s.done := rfl
@[simp] theorem State.setMac_result (s : State) (i : SlotId) (c : CmacContext) : (s.setMac i c).result = s.result := rfl
@[simp] theorem State.setMac_collisions (s : State) (i : SlotId) (c : CmacContext) : (s.setMac i c).collisions = s.collisions := rfl
@[simp] theorem State.setMac_oracleFails (s : State) (i : SlotId) (c : CmacContext) : (s.setMac i c).oracleFails = s.oracleFails := rfl
@[simp] theorem State.setMac_inbox (s : State) (i : SlotId) (c : CmacContext) : (s.setMac i c).inbox = s.inbox := rfl
@[simp] theorem State.setMac_reply (s : State) (i : SlotId) (c : CmacContext) : (s.setMac i c).reply = s.reply := rfl
@[simp] theorem State.setMac_oracle (s : State) (i : SlotId) (c : CmacContext) : (s.setMac i c).oracle = s.oracle := rfl
@[simp] theorem State.setMac_freeCount (s : State) (i : SlotId) (c : CmacContext) : (s.setMac i c).freeCount = s.freeCount := rfl

/-! ### `loseMac` -/

@[simp] theorem State.loseMac_cfg (s : State) (i : SlotId) : (s.loseMac i).cfg = s.cfg := rfl
@[simp] theorem State.loseMac_kctx (s : State) (i : SlotId) : (s.loseMac i).kctx = s.kctx := rfl
@[simp] theorem State.loseMac_mem (s : State) (i : SlotId) : (s.loseMac i).mem = s.mem := rfl
@[simp] theorem State.loseMac_cmdLatch (s : State) (i : SlotId) : (s.loseMac i).cmdLatch = s.cmdLatch := rfl
@[simp] theorem State.loseMac_busy (s : State) (i : SlotId) : (s.loseMac i).busy = s.busy := rfl
@[simp] theorem State.loseMac_run (s : State) (i : SlotId) : (s.loseMac i).run = s.run := rfl
@[simp] theorem State.loseMac_done (s : State) (i : SlotId) : (s.loseMac i).done = s.done := rfl
@[simp] theorem State.loseMac_result (s : State) (i : SlotId) : (s.loseMac i).result = s.result := rfl
@[simp] theorem State.loseMac_collisions (s : State) (i : SlotId) : (s.loseMac i).collisions = s.collisions := rfl
@[simp] theorem State.loseMac_oracleFails (s : State) (i : SlotId) : (s.loseMac i).oracleFails = s.oracleFails := rfl
@[simp] theorem State.loseMac_inbox (s : State) (i : SlotId) : (s.loseMac i).inbox = s.inbox := rfl
@[simp] theorem State.loseMac_reply (s : State) (i : SlotId) : (s.loseMac i).reply = s.reply := rfl
@[simp] theorem State.loseMac_oracle (s : State) (i : SlotId) : (s.loseMac i).oracle = s.oracle := rfl
@[simp] theorem State.loseMac_freeCount (s : State) (i : SlotId) : (s.loseMac i).freeCount = s.freeCount + 1 := rfl

/-! ### `loseKctx` -/

@[simp] theorem State.loseKctx_cfg (s : State) : s.loseKctx.cfg = s.cfg := rfl
@[simp] theorem State.loseKctx_slots (s : State) : s.loseKctx.slots = s.slots := rfl
@[simp] theorem State.loseKctx_kctx (s : State) : s.loseKctx.kctx = lostContext s.freeCount := rfl
@[simp] theorem State.loseKctx_mem (s : State) : s.loseKctx.mem = s.mem := rfl
@[simp] theorem State.loseKctx_cmdLatch (s : State) : s.loseKctx.cmdLatch = s.cmdLatch := rfl
@[simp] theorem State.loseKctx_busy (s : State) : s.loseKctx.busy = s.busy := rfl
@[simp] theorem State.loseKctx_run (s : State) : s.loseKctx.run = s.run := rfl
@[simp] theorem State.loseKctx_done (s : State) : s.loseKctx.done = s.done := rfl
@[simp] theorem State.loseKctx_result (s : State) : s.loseKctx.result = s.result := rfl
@[simp] theorem State.loseKctx_collisions (s : State) : s.loseKctx.collisions = s.collisions := rfl
@[simp] theorem State.loseKctx_oracleFails (s : State) : s.loseKctx.oracleFails = s.oracleFails := rfl
@[simp] theorem State.loseKctx_inbox (s : State) : s.loseKctx.inbox = s.inbox := rfl
@[simp] theorem State.loseKctx_reply (s : State) : s.loseKctx.reply = s.reply := rfl
@[simp] theorem State.loseKctx_oracle (s : State) : s.loseKctx.oracle = s.oracle := rfl
@[simp] theorem State.loseKctx_freeCount (s : State) : s.loseKctx.freeCount = s.freeCount + 1 := rfl

/-! ### `storeResult` -/

@[simp] theorem storeResult_cfg (s : State) (bs : List Byte) : (storeResult bs s).cfg = s.cfg := rfl
@[simp] theorem storeResult_slots (s : State) (bs : List Byte) : (storeResult bs s).slots = s.slots := rfl
@[simp] theorem storeResult_kctx (s : State) (bs : List Byte) : (storeResult bs s).kctx = s.kctx := rfl
@[simp] theorem storeResult_mem (s : State) (bs : List Byte) : (storeResult bs s).mem = s.mem.writeBytes obufBase bs := rfl
@[simp] theorem storeResult_cmdLatch (s : State) (bs : List Byte) : (storeResult bs s).cmdLatch = s.cmdLatch := rfl
@[simp] theorem storeResult_busy (s : State) (bs : List Byte) : (storeResult bs s).busy = s.busy := rfl
@[simp] theorem storeResult_run (s : State) (bs : List Byte) : (storeResult bs s).run = s.run := rfl
@[simp] theorem storeResult_done (s : State) (bs : List Byte) : (storeResult bs s).done = s.done := rfl
@[simp] theorem storeResult_result (s : State) (bs : List Byte) : (storeResult bs s).result = s.result := rfl
@[simp] theorem storeResult_collisions (s : State) (bs : List Byte) : (storeResult bs s).collisions = s.collisions := rfl
@[simp] theorem storeResult_oracleFails (s : State) (bs : List Byte) : (storeResult bs s).oracleFails = s.oracleFails := rfl
@[simp] theorem storeResult_inbox (s : State) (bs : List Byte) : (storeResult bs s).inbox = s.inbox := rfl
@[simp] theorem storeResult_reply (s : State) (bs : List Byte) : (storeResult bs s).reply = s.reply := rfl
@[simp] theorem storeResult_oracle (s : State) (bs : List Byte) : (storeResult bs s).oracle = s.oracle := rfl
@[simp] theorem storeResult_freeCount (s : State) (bs : List Byte) : (storeResult bs s).freeCount = s.freeCount := rfl

/-! ### `endCommand` -/

@[simp] theorem endCommand_cfg (s : State) (r : CommandResult) : (endCommand r s).cfg = s.cfg := rfl
@[simp] theorem endCommand_slots (s : State) (r : CommandResult) : (endCommand r s).slots = s.slots := rfl
@[simp] theorem endCommand_kctx (s : State) (r : CommandResult) : (endCommand r s).kctx = s.kctx := rfl
@[simp] theorem endCommand_mem (s : State) (r : CommandResult) : (endCommand r s).mem = s.mem := rfl
@[simp] theorem endCommand_cmdLatch (s : State) (r : CommandResult) : (endCommand r s).cmdLatch = s.cmdLatch := rfl
@[simp] theorem endCommand_busy (s : State) (r : CommandResult) : (endCommand r s).busy = s.busy := rfl
@[simp] theorem endCommand_run (s : State) (r : CommandResult) : (endCommand r s).run = false := rfl
@[simp] theorem endCommand_done (s : State) (r : CommandResult) : (endCommand r s).done = true := rfl
@[simp] theorem endCommand_result (s : State) (r : CommandResult) : (endCommand r s).result = r.code := rfl
@[simp] theorem endCommand_collisions (s : State) (r : CommandResult) : (endCommand r s).collisions = s.collisions := rfl
@[simp] theorem endCommand_oracleFails (s : State) (r : CommandResult) : (endCommand r s).oracleFails = r.countFail s.oracleFails := rfl
@[simp] theorem endCommand_inbox (s : State) (r : CommandResult) : (endCommand r s).inbox = s.inbox := rfl
@[simp] theorem endCommand_reply (s : State) (r : CommandResult) : (endCommand r s).reply = s.reply := rfl
@[simp] theorem endCommand_oracle (s : State) (r : CommandResult) : (endCommand r s).oracle = s.oracle := rfl
@[simp] theorem endCommand_freeCount (s : State) (r : CommandResult) : (endCommand r s).freeCount = s.freeCount := rfl

/-! ### Slots -/

@[simp] theorem State.slot_setSlot (s : State) (i j : SlotId) (sl : Slot) :
    (s.setSlot i sl).slot j = if i = j then sl else s.slot j := by
  simp only [State.slot, State.setSlot, Vector.getElem_set, BitVec.toNat_inj]

@[simp] theorem State.slot_setCtr (s : State) (i j : SlotId) (c : AesCtrContext) :
    (s.setCtr i c).slot j = if i = j then { s.slot i with ctr := c } else s.slot j := by
  simp [State.setCtr]

@[simp] theorem State.slot_setMac (s : State) (i j : SlotId) (c : CmacContext) :
    (s.setMac i c).slot j = if i = j then { s.slot i with mac := c } else s.slot j := by
  simp [State.setMac]

@[simp] theorem State.slot_loseMac (s : State) (i j : SlotId) :
    (s.loseMac i).slot j = if i = j then { s.slot i with mac := lostContext s.freeCount } else s.slot j := by
  show (s.setMac i _).slot j = _
  simp

@[simp] theorem State.slot_setMem (s : State) (m : Memory) (j : SlotId) : (s.setMem m).slot j = s.slot j := rfl
@[simp] theorem State.slot_setOracle (s : State) (o : OracleInput) (j : SlotId) : (s.setOracle o).slot j = s.slot j := rfl
@[simp] theorem State.slot_setKctx (s : State) (c : CmacContext) (j : SlotId) : (s.setKctx c).slot j = s.slot j := rfl
@[simp] theorem State.slot_setReply (s : State) (r : Reply) (j : SlotId) : (s.setReply r).slot j = s.slot j := rfl
@[simp] theorem State.slot_setInbox (s : State) (q : List Event) (j : SlotId) : (s.setInbox q).slot j = s.slot j := rfl
@[simp] theorem State.slot_loseKctx (s : State) (j : SlotId) : s.loseKctx.slot j = s.slot j := rfl
@[simp] theorem slot_storeResult (s : State) (bs : List Byte) (j : SlotId) : (storeResult bs s).slot j = s.slot j := rfl
@[simp] theorem slot_endCommand (s : State) (r : CommandResult) (j : SlotId) : (endCommand r s).slot j = s.slot j := rfl

end Sys2Proof.Machine
end

