-- ==== Sys2Proof/Laws/Bus.lean ====
section
/-!
SUPPORT. What a host access, the engine's turn and one step can do, said once.
-/

namespace Sys2Proof.Machine

/-- An access whose refusal has a cause faults; every other one goes on (20_memory.md R70). -/
theorem busAccess_cases (a : Access) (s : State) :
    (∃ cause, refusal s a = some cause ∧ busAccess a s = .fault (.accessFault cause)) ∨
    (refusal s a = none ∧
      ((∃ off n, a = .read off n ∧
          busAccess a s = .next ((readPlace off n s).2.setReply (.data (readPlace off n s).1))) ∨
       (∃ off n v, a = .write off n v ∧ busAccess a s = .next ((writePlace off n v s).setReply .written)))) := by
  cases a with
  | read off n =>
    cases h : refusal s (.read off n) with
    | none => exact .inr ⟨rfl, .inl ⟨off, n, rfl, by simp [busAccess, memRead, h]⟩⟩
    | some c => exact .inl ⟨c, rfl, by simp [busAccess, memRead, h]⟩
  | write off n v =>
    cases h : refusal s (.write off n v) with
    | none => exact .inr ⟨rfl, .inr ⟨off, n, v, rfl, by simp [busAccess, memWrite, h]⟩⟩
    | some c => exact .inl ⟨c, rfl, by simp [busAccess, memWrite, h]⟩

/-- An access is refused for no cause exactly when R70 gives none. -/
theorem refuseWhy_eq_none {s : State} {off : Nat} {n : Width} {dirOk : Place → Bool} :
    refuseWhy s off n dirOk = none ↔
      placeOf s.cfg off ≠ .reserved ∧ off % n.bytes = 0 ∧ ((placeOf s.cfg off).anyWidth = true ∨ n = .word) ∧
      dirOk (placeOf s.cfg off) = true ∧ (s.run = true → (placeOf s.cfg off).whileRunning = true) := by
  unfold refuseWhy
  cases hr : s.run <;> cases ha : (placeOf s.cfg off).anyWidth <;> cases hd : dirOk (placeOf s.cfg off) <;>
    cases hw : (placeOf s.cfg off).whileRunning <;> by_cases h1 : placeOf s.cfg off = .reserved <;>
    by_cases h2 : off % n.bytes = 0 <;> by_cases h3 : n = .word <;> simp_all

/-- The three cases of an issue (44_control.md R204). -/
theorem issue_cases (w : Word) (s : State) :
    (s.run = true ∧ issue w s = { s with collisions := s.collisions + 1 }) ∨
    (s.run = false ∧ s.busy = false ∧ issue w s = { s with result := 0x08, done := true }) ∨
    (s.run = false ∧ s.busy = true ∧ issue w s = { s with cmdLatch := w, run := true, done := false }) := by
  cases hr : s.run
  · cases hb : s.busy
    · exact .inr (.inl ⟨rfl, rfl, by simp [issue, hr, hb, CommandResult.code]⟩)
    · exact .inr (.inr ⟨rfl, rfl, by simp [issue, hr, hb]⟩)
  · exact .inl ⟨rfl, by simp [issue, hr, countCollision]⟩

/-- The two cases of a read of `ACQUIRE` (44_control.md R201). -/
theorem acquireClaim_cases (s : State) :
    (s.busy = true ∧ acquireClaim s = (0, { s with collisions := s.collisions + 1 })) ∨
    (s.busy = false ∧ acquireClaim s = (1, { s with busy := true })) := by
  cases hb : s.busy
  · exact .inr ⟨rfl, by simp [acquireClaim, hb]⟩
  · exact .inl ⟨rfl, by simp [acquireClaim, hb, countCollision]⟩

/-- A read whose place is not `ACQUIRE` leaves the state as it was (20_memory.md R64). -/
theorem readPlace_state {off : Nat} {n : Width} {s : State} (h : placeOf s.cfg off ≠ .acquire) :
    (readPlace off n s).2 = s := by
  unfold readPlace
  split <;> simp_all

/-- Everything the engine's turn can do (44_control.md R206). -/
theorem engineTurn_cases (s : State) :
    (s.run = false ∧ engineTurn s = .next s) ∨
    (s.run = true ∧ ∃ i, decode s.cfg s.cmdLatch = .ok i ∧ engineTurn s = exec i s) ∨
    (s.run = true ∧ ∃ e, decode s.cfg s.cmdLatch = .error e ∧ engineTurn s = .next (checkFailed 0x05 s)) := by
  cases hr : s.run
  · exact .inl ⟨rfl, by simp [engineTurn, hr]⟩
  · cases hd : decode s.cfg s.cmdLatch with
    | ok i => exact .inr (.inl ⟨rfl, i, rfl, by simp [engineTurn, hr, perform, hd]⟩)
    | error e =>
      exact .inr (.inr ⟨rfl, e, rfl, by
        simp [engineTurn, hr, perform, hd, endCommand, checkFailed, CommandResult.code, CommandResult.countFail]⟩)

/-- A step at which the engine has its turn is that turn. -/
theorem step_engineTurn {s b : State} (h : EngineTurnAt s b) : step s = engineTurn b := by
  rcases h with ⟨h, rfl⟩ | ⟨rest, h, rfl⟩ <;> simp [step, h, handleEvent, State.setInbox]

/-- The state on which the engine has its turn is the state before the step but for the events. -/
theorem EngineTurnAt.eq {s b : State} (h : EngineTurnAt s b) : b = { s with inbox := b.inbox } := by
  rcases h with ⟨-, rfl⟩ | ⟨rest, -, rfl⟩ <;> rfl

/-- One step is one event, or a turn of the engine when none waits (20_memory.md R74). -/
theorem step_cases (s : State) :
    (s.inbox = [] ∧ step s = engineTurn s) ∨
    (∃ e rest, s.inbox = e :: rest ∧ step s = handleEvent e (s.setInbox rest)) := by
  cases h : s.inbox with
  | nil => exact .inl ⟨rfl, by simp [step, h]⟩
  | cons e rest => exact .inr ⟨e, rest, rfl, by simp [step, h]⟩

end Sys2Proof.Machine
end

