-- ==== Sys2Proof/Laws/Decode.lean ====
section
/-!
SUPPORT. The four fields of a command word: a word assembled from fields has those fields, is determined by them, and
is masked field by field.
-/

namespace Sys2Proof

theorem append_and {m n : Nat} (a b : BitVec m) (c d : BitVec n) :
    (a ++ c) &&& (b ++ d) = (a &&& b) ++ (c &&& d) := by
  ext i h
  simp only [BitVec.getElem_and, BitVec.getElem_append]
  split <;> simp

theorem append_inj {m n : Nat} (a b : BitVec m) (c d : BitVec n) : a ++ c = b ++ d ↔ a = b ∧ c = d := by
  constructor
  · intro h
    have h1 := congrArg (BitVec.extractLsb' n m) h
    have h2 := congrArg (BitVec.setWidth n) h
    rw [BitVec.extractLsb'_append_eq_left, BitVec.extractLsb'_append_eq_left] at h1
    rw [BitVec.setWidth_append_eq_right, BitVec.setWidth_append_eq_right] at h2
    exact ⟨h1, h2⟩
  · rintro ⟨rfl, rfl⟩
    rfl

/-- Masking an assembled word masks each field. -/
theorem assemble_and (op ctx : BitVec 4) (olen ilen : BitVec 12) (a b : BitVec 4) (c d : BitVec 12) :
    assemble op ctx olen ilen &&& assemble a b c d =
      assemble (op &&& a) (ctx &&& b) (olen &&& c) (ilen &&& d) := by
  refine (append_and _ _ _ _).trans (congrArg (fun x => x ++ (ilen &&& d)) ?_)
  refine (append_and _ _ _ _).trans (congrArg (fun x => x ++ (olen &&& c)) ?_)
  exact append_and _ _ _ _

/-- An assembled word determines its fields. -/
theorem assemble_inj (op ctx : BitVec 4) (olen ilen : BitVec 12) (a b : BitVec 4) (c d : BitVec 12) :
    assemble op ctx olen ilen = assemble a b c d ↔ op = a ∧ ctx = b ∧ olen = c ∧ ilen = d := by
  refine (append_inj _ _ _ _).trans ?_
  rw [append_inj, append_inj, and_assoc, and_assoc]

/-- Every word is assembled from its fields. -/
theorem assemble_fields (w : Word) : assemble (opcodeField w) (ctxField w) (olenField w) (ilenField w) = w := by
  refine BitVec.eq_of_getElem_eq fun i h => ?_
  show (opcodeField w ++ ctxField w ++ olenField w ++ ilenField w)[i] = w[i]
  simp only [BitVec.getElem_append, opcodeField, ctxField, olenField, ilenField, BitVec.getElem_extractLsb']
  split
  · simp [BitVec.getLsbD_eq_getElem h]
  · split
    · simp [show 12 + (i - 12) = i by omega, BitVec.getLsbD_eq_getElem h]
    · split
      · simp [show 24 + (i - 12 - 12) = i by omega, BitVec.getLsbD_eq_getElem h]
      · simp [show 28 + (i - 12 - 12 - 4) = i by omega, BitVec.getLsbD_eq_getElem h]

/-- The fields of an assembled word are the ones it was assembled from. -/
theorem fields_assemble (op ctx : BitVec 4) (olen ilen : BitVec 12) :
    opcodeField (assemble op ctx olen ilen) = op ∧ ctxField (assemble op ctx olen ilen) = ctx ∧
      olenField (assemble op ctx olen ilen) = olen ∧ ilenField (assemble op ctx olen ilen) = ilen :=
  (assemble_inj _ _ _ _ _ _ _ _).1 (assemble_fields _)

theorem opcodeField_assemble (op ctx : BitVec 4) (olen ilen : BitVec 12) :
    opcodeField (assemble op ctx olen ilen) = op := (fields_assemble op ctx olen ilen).1

theorem ctxField_assemble (op ctx : BitVec 4) (olen ilen : BitVec 12) :
    ctxField (assemble op ctx olen ilen) = ctx := (fields_assemble op ctx olen ilen).2.1

theorem olenField_assemble (op ctx : BitVec 4) (olen ilen : BitVec 12) :
    olenField (assemble op ctx olen ilen) = olen := (fields_assemble op ctx olen ilen).2.2.1

theorem ilenField_assemble (op ctx : BitVec 4) (olen ilen : BitVec 12) :
    ilenField (assemble op ctx olen ilen) = ilen := (fields_assemble op ctx olen ilen).2.2.2

/-- The table of 30_encoding.md R93 with every match and mask value cut into the fields of R90. -/
theorem opcodeTable_fields : opcodeTable =
    [⟨"CTR.INIT", assemble 0x1 0 0 0, assemble 0xF 0 0xFFF 0xFFF⟩,
     ⟨"CTR.CRYPT", assemble 0x2 0 0 0, assemble 0xF 0 0xFFF 0⟩,
     ⟨"CMAC.INIT", assemble 0x4 0 0 0, assemble 0xF 0 0xFFF 0xFFF⟩,
     ⟨"CMAC.UPDATE", assemble 0x5 0 0 0, assemble 0xF 0 0xFFF 0⟩,
     ⟨"CMAC.FINISH", assemble 0x6 0 0 0, assemble 0xF 0 0xFFF 0xFFF⟩,
     ⟨"CMAC.COMPUTE", assemble 0x7 0 0 0, assemble 0xF 0xF 0xFFF 0⟩,
     ⟨"KDF.EXTRACT", assemble 0x8 0 0 0, assemble 0xF 0xF 0xFFF 0⟩,
     ⟨"KDF.EXPAND", assemble 0x9 0 0 0, assemble 0xF 0xF 0 0⟩] := by decide

/-- An assembled word passes a row's test exactly when each of its fields passes its part of it. -/
theorem accepts_assemble (m : String) (op ctx : BitVec 4) (olen ilen : BitVec 12) (a b a' b' : BitVec 4)
    (c d c' d' : BitVec 12) :
    (TableRow.mk m (assemble a b c d) (assemble a' b' c' d')).accepts (assemble op ctx olen ilen) =
      decide (op &&& a' = a ∧ ctx &&& b' = b ∧ olen &&& c' = c ∧ ilen &&& d' = d) := by
  simp only [TableRow.accepts, assemble_and, beq_eq_decide, assemble_inj]

end Sys2Proof
end

