-- ==== Sys2Proof/Laws/Oracle.lean ====
section
/-!
SUPPORT. What one oracle invocation can do, how computations that make several go on or end, and how invocations are
counted off.
-/

namespace Sys2Proof.Machine

theorem OracleInput.skip_zero (o : OracleInput) : o.skip 0 = o := rfl

theorem OracleInput.skip_one (o : OracleInput) : o.skip 1 = o.advance := by
  simp [OracleInput.skip, OracleInput.advance, List.drop_one]

@[simp] theorem OracleInput.skip_skip (o : OracleInput) (m n : Nat) : (o.skip m).skip n = o.skip (m + n) := by
  simp [OracleInput.skip, List.drop_drop, Nat.add_assoc]

@[simp] theorem OracleInput.advance_skip (o : OracleInput) (n : Nat) : o.advance.skip n = o.skip (n + 1) := by
  rw [← OracleInput.skip_one, OracleInput.skip_skip, Nat.add_comm]

@[simp] theorem OracleInput.skip_advance (o : OracleInput) (n : Nat) : (o.skip n).advance = o.skip (n + 1) := by
  rw [← OracleInput.skip_one, OracleInput.skip_skip]

/-- The first `m + n` invocations succeed when the first `m` do and the `n` after them do. -/
theorem okFor_add {o : OracleInput} {m n : Nat} : OkFor o (m + n) ↔ OkFor o m ∧ OkFor (o.skip m) n := by
  constructor
  · intro h
    refine ⟨fun j hj => h j (by omega), fun j hj => ?_⟩
    rw [OracleInput.skip_skip]
    exact h (m + j) (by omega)
  · rintro ⟨h1, h2⟩ j hj
    by_cases hjm : j < m
    · exact h1 j hjm
    · have h := h2 (j - m) (by omega)
      rw [OracleInput.skip_skip] at h
      rwa [show m + (j - m) = j by omega] at h

theorem OkFor.mono {o : OracleInput} {m n : Nat} (h : OkFor o n) (hm : m ≤ n) : OkFor o m :=
  fun j hj => h j (by omega)

theorem OkFor.head {o : OracleInput} {n : Nat} (h : OkFor o (n + 1)) : o.nextDraw = .ok :=
  h 0 (by omega)

/-- A failure at draw `m + k` is a failure at draw `k` after `m` that succeed. -/
theorem failsAt_add {o : OracleInput} {m k : Nat} {e : OracleError} :
    FailsAt o (m + k) e ↔ OkFor o m ∧ FailsAt (o.skip m) k e := by
  simp only [FailsAt, okFor_add, OracleInput.skip_skip, and_assoc]

/-- Everything one invocation can do: the answer `AES128(k, b)`, or an error, one draw used either way. -/
theorem invoke_cases (o : OracleInput) (k b : Block) :
    (o.nextDraw = .ok ∧ invoke o k b = (.ok (aes128 k b), o.advance)) ∨
    (∃ e : OracleError, o.nextDraw = e.draw ∧ invoke o k b = (.error e, o.advance)) := by
  unfold invoke
  cases h : o.nextDraw with
  | ok => exact .inl ⟨rfl, rfl⟩
  | timeout => exact .inr ⟨.timeout, rfl, rfl⟩
  | fault => exact .inr ⟨.fault, rfl, rfl⟩

theorem invoke_ok {o : OracleInput} (k b : Block) (h : o.nextDraw = .ok) :
    invoke o k b = (.ok (aes128 k b), o.advance) := by
  simp [invoke, h]

theorem invoke_error {o : OracleInput} {e : OracleError} (k b : Block) (h : o.nextDraw = e.draw) :
    invoke o k b = (.error e, o.advance) := by
  cases e <;> simp_all [invoke, OracleError.draw]

@[simp] theorem andThen_ok {α β : Type} (a : α) (o : OracleInput) (f : α → OracleInput → OracleResult β) :
    andThen (.ok a, o) f = f a o := rfl

@[simp] theorem andThen_error {α β : Type} (e : OracleError) (o : OracleInput)
    (f : α → OracleInput → OracleResult β) : andThen (.error e, o) f = (.error e, o) := rfl

theorem andThen_assoc {α β γ : Type} (r : OracleResult α) (f : α → OracleInput → OracleResult β)
    (g : β → OracleInput → OracleResult γ) :
    andThen (andThen r f) g = andThen r fun a o => andThen (f a o) g := by
  rcases r with ⟨_ | _, _⟩ <;> rfl

/-- A computation makes `n` invocations with value `a` when they all succeed, and ends at the first that fails: what the
callers of a shared engine operation cite. -/
def Makes {α : Type} (f : OracleInput → OracleResult α) (n : Nat) (a : α) : Prop :=
  (∀ o, OkFor o n → f o = (.ok a, o.skip n)) ∧
  (∀ o k e, k < n → FailsAt o k e → f o = (.error e, o.skip (k + 1)))

/-- One invocation. -/
theorem invoke_makes (k b : Block) : Makes (fun o => invoke o k b) 1 (aes128 k b) := by
  constructor
  · intro o h
    show invoke o k b = _
    rw [invoke_ok k b h.head, OracleInput.skip_one]
  · intro o j e hj h
    obtain rfl : j = 0 := by omega
    show invoke o k b = _
    have hd : o.nextDraw = e.draw := h.2
    rw [invoke_error k b hd, OracleInput.skip_one]

/-- No invocation. -/
theorem pure_makes {α : Type} (a : α) : Makes (fun o => (.ok a, o)) 0 a :=
  ⟨fun _ _ => rfl, fun _ _ _ hk => absurd hk (Nat.not_lt_zero _)⟩

/-- One computation after another: the invocations add up. -/
theorem andThen_makes {α β : Type} {f : OracleInput → OracleResult α} {g : α → OracleInput → OracleResult β}
    {m n : Nat} {a : α} {b : β} (hf : Makes f m a) (hg : Makes (g a) n b) :
    Makes (fun o => andThen (f o) g) (m + n) b := by
  constructor
  · intro o h
    obtain ⟨h1, h2⟩ := okFor_add.1 h
    show andThen (f o) g = _
    rw [hf.1 o h1, andThen_ok, hg.1 _ h2, OracleInput.skip_skip]
  · intro o k e hk h
    show andThen (f o) g = _
    by_cases hkm : k < m
    · rw [hf.2 o k e hkm h, andThen_error]
    · obtain ⟨j, rfl⟩ : ∃ j, k = m + j := ⟨k - m, by omega⟩
      obtain ⟨h1, h2⟩ := failsAt_add.1 h
      rw [hf.1 o h1, andThen_ok, hg.2 _ j e (by omega) h2, OracleInput.skip_skip, Nat.add_assoc]

/-- A computation and then a value made from its answer. -/
theorem andThen_pure_makes {α β : Type} {f : OracleInput → OracleResult α} {m : Nat} {a : α} (h : α → β)
    (hf : Makes f m a) : Makes (fun o => andThen (f o) fun a o => (.ok (h a), o)) m (h a) :=
  andThen_makes (g := fun a o => (.ok (h a), o)) hf (pure_makes (h a))

/-- Whatever the draws, a computation that makes `n` invocations with value `a` answers `a` or the error of one of
them. -/
theorem Makes.cases {α : Type} {f : OracleInput → OracleResult α} {n : Nat} {a : α} (h : Makes f n a)
    (o : OracleInput) :
    (OkFor o n ∧ f o = (.ok a, o.skip n)) ∨
    (∃ k e, k < n ∧ FailsAt o k e ∧ f o = (.error e, o.skip (k + 1))) := by
  have key : ∀ n, OkFor o n ∨ ∃ k e, k < n ∧ FailsAt o k e := by
    intro n
    induction n with
    | zero => exact .inl fun j hj => absurd hj (Nat.not_lt_zero _)
    | succ n ih =>
      rcases ih with ih | ⟨k, e, hk, hf⟩
      · cases hd : (o.skip n).nextDraw with
        | ok =>
          refine .inl fun j hj => ?_
          rcases Nat.lt_succ_iff_lt_or_eq.1 hj with hj | rfl
          · exact ih j hj
          · exact hd
        | timeout => exact .inr ⟨n, .timeout, by omega, ih, hd⟩
        | fault => exact .inr ⟨n, .fault, by omega, ih, hd⟩
      · exact .inr ⟨k, e, by omega, hf⟩
  rcases key n with hok | ⟨k, e, hk, hf⟩
  · exact .inl ⟨hok, h.1 o hok⟩
  · exact .inr ⟨k, e, hk, hf, h.2 o k e hk hf⟩

end Sys2Proof.Machine
end

