-- ==== Sys2Proof/Laws/Engine.lean ====
section
/-!
SUPPORT. What each shared operation of the engines can do, said once: the CMAC context operations and the KDF's
iterations as computations that make a number of invocations, the end of a command, and the perform step of every
command.
-/

namespace Sys2Proof.Machine

/-! ### The CMAC context operations, every invocation succeeding -/

/-- The context `macInit` leaves when the oracle succeeds. -/
def macInitialized (c : CmacContext) (k : Block) : CmacContext :=
  { c with
    key := k, key1 := double (aes128 k zeroBlock), key2 := double (double (aes128 k zeroBlock)),
    partialLength := 0, multiblock := false, phase := .ready }

/-- The context `macMakeRoom` leaves when the oracle succeeds. -/
def macRoomMade (c : CmacContext) : CmacContext :=
  if c.partialLength = 16 then
    { c with prev := aes128 c.key (foldInput c), multiblock := true, partialLength := 0 }
  else c

/-- The context `macUpdate` leaves when the oracle succeeds. -/
def macUpdated (c : CmacContext) : List Byte → CmacContext
  | [] => c
  | b :: bs => macUpdated ((macRoomMade c).push b) bs

/-- The number of folds of `macUpdate`. -/
def macUpdateFolds (c : CmacContext) : List Byte → Nat
  | [] => 0
  | b :: bs => (if c.partialLength = 16 then 1 else 0) + macUpdateFolds ((macRoomMade c).push b) bs

theorem macInit_makes (c : CmacContext) (k : Block) :
    Makes (fun o => macInit o c k) 1 (macInitialized c k) :=
  andThen_pure_makes (h := fun l : Block => ({ c with
    key := k, key1 := double l, key2 := double (double l),
    partialLength := 0, multiblock := false, phase := .ready } : CmacContext)) (invoke_makes k zeroBlock)

theorem macMakeRoom_makes (c : CmacContext) :
    Makes (fun o => macMakeRoom o c) (if c.partialLength = 16 then 1 else 0) (macRoomMade c) := by
  by_cases h : c.partialLength = 16
  · simpa only [macMakeRoom, macFold, macRoomMade, h, if_true] using
      andThen_pure_makes (fun y => { c with prev := y, multiblock := true, partialLength := 0 })
        (invoke_makes c.key (foldInput c))
  · simpa only [macMakeRoom, macRoomMade, h, if_false] using pure_makes c

theorem macUpdate_makes : ∀ (bs : List Byte) (c : CmacContext),
    Makes (fun o => macUpdate o c bs) (macUpdateFolds c bs) (macUpdated c bs)
  | [], c => pure_makes c
  | b :: bs, c =>
    andThen_makes (f := fun o => macMakeRoom o c) (g := fun c o => macUpdate o (c.push b) bs)
      (macMakeRoom_makes c) (macUpdate_makes bs ((macRoomMade c).push b))

theorem macFinish_makes (c : CmacContext) :
    Makes (fun o => macFinish o c) 1 (aes128 c.key (finishInput c), { c with phase := .finished }) :=
  andThen_pure_makes (h := fun tag : Block => (tag, ({ c with phase := .finished } : CmacContext)))
    (invoke_makes c.key (finishInput c))

/-- The context before `finish` of a one-shot tag when the oracle succeeds. -/
def macPrepared (c : CmacContext) (k : Block) (m : List Byte) : CmacContext :=
  macUpdated (macInitialized c k) m

theorem macOneShot_makes (c : CmacContext) (k : Block) (m : List Byte) :
    Makes (fun o => macOneShot o c k m) (1 + (macUpdateFolds (macInitialized c k) m + 1))
      (aes128 (macPrepared c k m).key (finishInput (macPrepared c k m)),
        { macPrepared c k m with phase := .finished }) :=
  andThen_makes (f := fun o => macInit o c k)
    (g := fun c o => andThen (macUpdate o c m) fun c o => macFinish o c) (macInit_makes c k)
    (andThen_makes (f := fun o => macUpdate o (macInitialized c k) m) (g := fun c o => macFinish o c)
      (macUpdate_makes m (macInitialized c k)) (macFinish_makes _))

/-- An update in two pieces is the update over both. -/
theorem macUpdated_append : ∀ (bs cs : List Byte) (c : CmacContext),
    macUpdated c (bs ++ cs) = macUpdated (macUpdated c bs) cs
  | [], _, _ => rfl
  | b :: bs, cs, c => macUpdated_append bs cs ((macRoomMade c).push b)

/-- The folds of an update in two pieces add up. -/
theorem macUpdateFolds_append : ∀ (bs cs : List Byte) (c : CmacContext),
    macUpdateFolds c (bs ++ cs) = macUpdateFolds c bs + macUpdateFolds (macUpdated c bs) cs
  | [], _, _ => (Nat.zero_add _).symm
  | b :: bs, cs, c => by
    simp only [List.cons_append, macUpdateFolds, macUpdated, macUpdateFolds_append bs cs]
    omega

/-- An update changes neither the key, nor the subkeys, nor the phase. -/
theorem macUpdated_keys : ∀ (bs : List Byte) (c : CmacContext),
    (macUpdated c bs).key = c.key ∧ (macUpdated c bs).key1 = c.key1 ∧ (macUpdated c bs).key2 = c.key2 ∧
      (macUpdated c bs).phase = c.phase
  | [], _ => ⟨rfl, rfl, rfl, rfl⟩
  | b :: bs, c => by
    have h := macUpdated_keys bs ((macRoomMade c).push b)
    have hr : ((macRoomMade c).push b).key = c.key ∧ ((macRoomMade c).push b).key1 = c.key1 ∧
        ((macRoomMade c).push b).key2 = c.key2 ∧ ((macRoomMade c).push b).phase = c.phase := by
      unfold macRoomMade
      split <;> exact ⟨rfl, rfl, rfl, rfl⟩
    simp only [macUpdated, h, hr, and_self]

/-! ### The end of a command -/

/-- A command ends with an oracle failure: its code, and one more on `ORACLE_FAILS`. -/
theorem endCommand_oracleFailure (e : OracleError) (s : State) :
    endCommand (.oracleFailure e) s =
      { s with result := oracleCode e, done := true, run := false, oracleFails := s.oracleFails + 1 } := by
  cases e <;> rfl

/-- A command on a slot either ends with `IllegalCommand` or does what its rule says. -/
theorem onSlot_cases (i : SlotId) (s : State) (f : State → State) :
    (slotExists s.cfg i = false ∧ onSlot i s f = checkFailed 0x05 s) ∨
    (slotExists s.cfg i = true ∧ onSlot i s f = f s) := by
  cases h : slotExists s.cfg i
  · exact .inl ⟨rfl, by simp [onSlot, h, endCommand, checkFailed, CommandResult.code, CommandResult.countFail]⟩
  · exact .inr ⟨rfl, by simp [onSlot, h]⟩

/-- The state a command's perform step leaves. -/
def performed : Instr → State → State
  | .ctrInit c, s => onSlot c s (ctrLoad c)
  | .ctrCrypt c n, s => onSlot c s (ctrApply c n.toNat)
  | .cmacInit c, s => onSlot c s (macSlotInit c)
  | .cmacUpdate c n, s => onSlot c s (macSlotUpdate c n.toNat)
  | .cmacFinish c, s => onSlot c s (macSlotFinish c)
  | .cmacCompute n, s => macToOutput n.toNat s
  | .kdfExtract n, s => macToOutput n.toNat s
  | .kdfExpand n l, s => kdfExpandToOutput n.toNat l.toNat s

/-- Every command goes on: `exec` never faults and never refuses. -/
theorem exec_eq (i : Instr) (s : State) : exec i s = .next (performed i s) := by
  cases i <;> rfl

/-- Everything the perform step of `CTR.CRYPT` on an existing slot can do. -/
theorem ctrApply_cases (i : SlotId) (n : Nat) (s : State) :
    (16 < n ∧ ctrApply i n s = checkFailed 0x03 s) ∨
    (n ≤ 16 ∧ (s.slot i).ctr.init = false ∧ ctrApply i n s = checkFailed 0x06 s) ∨
    (n ≤ 16 ∧ (s.slot i).ctr.init = true ∧ ∃ e, s.oracle.nextDraw = OracleError.draw e ∧
      ctrApply i n s = endCommand (.oracleFailure e) (s.setOracle s.oracle.advance)) ∨
    (n ≤ 16 ∧ (s.slot i).ctr.init = true ∧ s.oracle.nextDraw = .ok ∧ ∃ ks,
      ks = aes128 (s.slot i).ctr.key (counterBlock s.cfg.ctrOrder (s.slot i).ctr) ∧
      ctrApply i n s = endCommand .ok (storeResult (ctrOutput (dataOperand s n) ks)
        ((s.setCtr i { (s.slot i).ctr with keystream := ks }).setOracle s.oracle.advance))) := by
  unfold ctrApply
  by_cases hn : 16 < n
  · exact .inl ⟨hn, by simp [hn]; rfl⟩
  cases hi : (s.slot i).ctr.init
  · exact .inr (.inl ⟨by omega, rfl, by simp [hn]; rfl⟩)
  rcases invoke_cases s.oracle (s.slot i).ctr.key (counterBlock s.cfg.ctrOrder (s.slot i).ctr) with
    ⟨hd, h⟩ | ⟨e, hd, h⟩
  · exact .inr (.inr (.inr ⟨by omega, rfl, hd, _, rfl, by simp [hn, h]⟩))
  · exact .inr (.inr (.inl ⟨by omega, rfl, e, hd, by simp [hn, h]⟩))

/-- Everything the perform step of `CMAC.INIT` on an existing slot can do. -/
theorem macSlotInit_cases (i : SlotId) (s : State) :
    (OkFor s.oracle 1 ∧ macSlotInit i s =
      endCommand .ok ((s.setMac i (macInitialized (s.slot i).mac (keyOperand s))).setOracle (s.oracle.skip 1))) ∨
    (∃ e, FailsAt s.oracle 0 e ∧
      macSlotInit i s = endCommand (.oracleFailure e) ((s.loseMac i).setOracle (s.oracle.skip 1))) := by
  unfold macSlotInit
  rcases (macInit_makes (s.slot i).mac (keyOperand s)).cases s.oracle with ⟨ho, h⟩ | ⟨k, e, hk, hf, h⟩
  · exact .inl ⟨ho, by simp [h]⟩
  · obtain rfl : k = 0 := by omega
    exact .inr ⟨e, hf, by simp [h]⟩

/-- Everything the perform step of `CMAC.UPDATE` on an existing slot can do. -/
theorem macSlotUpdate_cases (i : SlotId) (n : Nat) (s : State) :
    (s.cfg.ibufSize < n ∧ macSlotUpdate i n s = checkFailed 0x07 s) ∨
    (n ≤ s.cfg.ibufSize ∧ (s.slot i).mac.phase ≠ .ready ∧ macSlotUpdate i n s = checkFailed 0x06 s) ∨
    (n ≤ s.cfg.ibufSize ∧ (s.slot i).mac.phase = .ready ∧
      OkFor s.oracle (macUpdateFolds (s.slot i).mac (dataOperand s n)) ∧
      macSlotUpdate i n s = endCommand .ok
        ((s.setMac i (macUpdated (s.slot i).mac (dataOperand s n))).setOracle
          (s.oracle.skip (macUpdateFolds (s.slot i).mac (dataOperand s n))))) ∨
    (n ≤ s.cfg.ibufSize ∧ (s.slot i).mac.phase = .ready ∧ ∃ k e,
      k < macUpdateFolds (s.slot i).mac (dataOperand s n) ∧ FailsAt s.oracle k e ∧
      macSlotUpdate i n s =
        endCommand (.oracleFailure e) ((s.loseMac i).setOracle (s.oracle.skip (k + 1)))) := by
  unfold macSlotUpdate
  by_cases hn : s.cfg.ibufSize < n
  · exact .inl ⟨hn, by simp [hn]; rfl⟩
  by_cases hp : (s.slot i).mac.phase = .ready
  · rcases (macUpdate_makes (dataOperand s n) (s.slot i).mac).cases s.oracle with
      ⟨ho, h⟩ | ⟨k, e, hk, hf, h⟩
    · exact .inr (.inr (.inl ⟨by omega, hp, ho, by simp [hn, hp, h]⟩))
    · exact .inr (.inr (.inr ⟨by omega, hp, k, e, hk, hf, by simp [hn, hp, h]⟩))
  · exact .inr (.inl ⟨by omega, hp, by simp [hn, hp]; rfl⟩)

/-- Everything the perform step of `CMAC.FINISH` on an existing slot can do. -/
theorem macSlotFinish_cases (i : SlotId) (s : State) :
    ((s.slot i).mac.phase ≠ .ready ∧ macSlotFinish i s = checkFailed 0x06 s) ∨
    ((s.slot i).mac.phase = .ready ∧ OkFor s.oracle 1 ∧
      macSlotFinish i s = endCommand .ok
        (storeResult (aes128 (s.slot i).mac.key (finishInput (s.slot i).mac)).toList
          ((s.setMac i { (s.slot i).mac with phase := .finished }).setOracle (s.oracle.skip 1)))) ∨
    ((s.slot i).mac.phase = .ready ∧ ∃ e, FailsAt s.oracle 0 e ∧
      macSlotFinish i s = endCommand (.oracleFailure e) ((s.loseMac i).setOracle (s.oracle.skip 1))) := by
  unfold macSlotFinish
  by_cases hp : (s.slot i).mac.phase = .ready
  · rcases (macFinish_makes (s.slot i).mac).cases s.oracle with ⟨ho, h⟩ | ⟨k, e, hk, hf, h⟩
    · exact .inr (.inl ⟨hp, ho, by simp [hp, h]⟩)
    · obtain rfl : k = 0 := by omega
      exact .inr (.inr ⟨hp, e, hf, by simp [hp, h]⟩)
  · exact .inl ⟨hp, by simp [hp]; rfl⟩

/-- The oracle invocations of a one-shot tag on the private context. -/
def oneShotCalls (n : Nat) (s : State) : Nat :=
  1 + (macUpdateFolds (macInitialized s.kctx (keyOperand s)) (dataOperand s n) + 1)

/-- Everything `CMAC.COMPUTE` and `KDF.EXTRACT` can do. -/
theorem macToOutput_cases (n : Nat) (s : State) :
    (s.cfg.ibufSize < n ∧ macToOutput n s = checkFailed 0x07 s) ∨
    (n ≤ s.cfg.ibufSize ∧ OkFor s.oracle (oneShotCalls n s) ∧ ∃ c,
      c = macPrepared s.kctx (keyOperand s) (dataOperand s n) ∧
      macToOutput n s = endCommand .ok (storeResult (aes128 c.key (finishInput c)).toList
        ((s.setKctx { c with phase := .finished }).setOracle (s.oracle.skip (oneShotCalls n s))))) ∨
    (n ≤ s.cfg.ibufSize ∧ ∃ k e, k < oneShotCalls n s ∧ FailsAt s.oracle k e ∧
      macToOutput n s = endCommand (.oracleFailure e) (s.loseKctx.setOracle (s.oracle.skip (k + 1)))) := by
  unfold macToOutput
  by_cases hn : s.cfg.ibufSize < n
  · exact .inl ⟨hn, by simp [hn]; rfl⟩
  rcases (macOneShot_makes s.kctx (keyOperand s) (dataOperand s n)).cases s.oracle with
    ⟨ho, h⟩ | ⟨k, e, hk, hf, h⟩
  · exact .inr (.inl ⟨by omega, ho, _, rfl, by simp [hn, h]; rfl⟩)
  · exact .inr (.inr ⟨by omega, k, e, hk, hf, by simp [hn, h]⟩)

/-! ### The iterations of `KDF.EXPAND` -/

/-- The context iteration `i` starts from when the oracle succeeds. -/
def expandStarted (i : Nat) (c : CmacContext) (prk : Block) : CmacContext :=
  if derivesSubkeys i then macInitialized c prk else c.rearm

/-- From a context that holds `prk` and its subkeys, it makes no difference whether they are derived anew. -/
theorem expandStarted_eq {i : Nat} {c : CmacContext} {prk : Block} (hk : c.key = prk)
    (h1 : c.key1 = double (aes128 prk zeroBlock)) (h2 : c.key2 = double (double (aes128 prk zeroBlock))) :
    expandStarted i c prk = macInitialized c prk := by
  unfold expandStarted
  split
  · rfl
  · rw [macInitialized, ← h2, ← h1, ← hk, CmacContext.rearm]

theorem expandStart_makes (i : Nat) (c : CmacContext) (prk : Block) :
    Makes (fun o => expandStart i o c prk) (if derivesSubkeys i then 1 else 0) (expandStarted i c prk) := by
  cases h : derivesSubkeys i
  · simpa only [expandStart, expandStarted, h, Bool.false_eq_true, if_false] using pure_makes c.rearm
  · simpa only [expandStart, expandStarted, h, if_true] using macInit_makes c prk

/-- Tag and context of iteration `i` when the oracle succeeds. -/
def expandStepDone (i : Nat) (c : CmacContext) (prk : Block) (m : List Byte) : Block × CmacContext :=
  let d := macUpdated (expandStarted i c prk) m
  (aes128 d.key (finishInput d), { d with phase := .finished })

/-- The oracle invocations of iteration `i`. -/
def expandStepCalls (i : Nat) (c : CmacContext) (prk : Block) (m : List Byte) : Nat :=
  (if derivesSubkeys i then 1 else 0) + (macUpdateFolds (expandStarted i c prk) m + 1)

theorem expandStep_makes (i : Nat) (c : CmacContext) (prk : Block) (m : List Byte) :
    Makes (fun o => expandStep i o c prk m) (expandStepCalls i c prk m) (expandStepDone i c prk m) :=
  andThen_makes (f := fun o => expandStart i o c prk)
    (g := fun c o => andThen (macUpdate o c m) fun c o => macFinish o c) (expandStart_makes i c prk)
    (andThen_makes (f := fun o => macUpdate o (expandStarted i c prk) m) (g := fun c o => macFinish o c)
      (macUpdate_makes m (expandStarted i c prk)) (macFinish_makes _))

/-- What `expandLoop` answers when the oracle succeeds. -/
def expandDone (prk : Block) (info : List Byte) : Nat → Nat → List Byte → CmacContext → List Byte × CmacContext
  | 0, _, _, c => ([], c)
  | n + 1, i, before, c =>
    let t := expandStepDone i c prk (expandMessage before info i)
    let rest := expandDone prk info n (i + 1) t.1.toList t.2
    (t.1.toList ++ rest.1, rest.2)

/-- The oracle invocations of `expandLoop`. -/
def expandCalls (prk : Block) (info : List Byte) : Nat → Nat → List Byte → CmacContext → Nat
  | 0, _, _, _ => 0
  | n + 1, i, before, c =>
    let m := expandMessage before info i
    let t := expandStepDone i c prk m
    expandStepCalls i c prk m + expandCalls prk info n (i + 1) t.1.toList t.2

theorem expandLoop_makes (prk : Block) (info : List Byte) : ∀ (n i : Nat) (before : List Byte) (c : CmacContext),
    Makes (fun o => expandLoop prk info n i before c o) (expandCalls prk info n i before c)
      (expandDone prk info n i before c)
  | 0, _, _, c => pure_makes ([], c)
  | n + 1, i, before, c =>
    andThen_makes (f := fun o => expandStep i o c prk (expandMessage before info i))
      (g := fun t o => andThen (expandLoop prk info n (i + 1) t.1.toList t.2 o) fun rest o =>
        (.ok (t.1.toList ++ rest.1, rest.2), o))
      (expandStep_makes i c prk (expandMessage before info i))
      (andThen_pure_makes (f := fun o => expandLoop prk info n (i + 1)
          (expandStepDone i c prk (expandMessage before info i)).1.toList
          (expandStepDone i c prk (expandMessage before info i)).2 o)
        (h := fun rest : List Byte × CmacContext =>
          ((expandStepDone i c prk (expandMessage before info i)).1.toList ++ rest.1, rest.2))
        (expandLoop_makes prk info n (i + 1) _ _))

/-- The oracle invocations of `KDF.EXPAND`. -/
def expandCommandCalls (n len : Nat) (s : State) : Nat :=
  expandCalls (keyOperand s) (dataOperand s n) (expandCount len) 1 [] s.kctx

/-- What the iterations of `KDF.EXPAND` answer when the oracle succeeds. -/
def expandCommandDone (n len : Nat) (s : State) : List Byte × CmacContext :=
  expandDone (keyOperand s) (dataOperand s n) (expandCount len) 1 [] s.kctx

/-- Everything `KDF.EXPAND` can do. -/
theorem kdfExpandToOutput_cases (n len : Nat) (s : State) :
    (s.cfg.ibufSize < n ∧ kdfExpandToOutput n len s = checkFailed 0x07 s) ∨
    (n ≤ s.cfg.ibufSize ∧ kdfMaxOut < len ∧ kdfExpandToOutput n len s = checkFailed 0x04 s) ∨
    (n ≤ s.cfg.ibufSize ∧ len ≤ kdfMaxOut ∧ OkFor s.oracle (expandCommandCalls n len s) ∧
      kdfExpandToOutput n len s = endCommand .ok
        (storeResult ((expandCommandDone n len s).1.take len)
          ((s.setKctx (expandCommandDone n len s).2).setOracle (s.oracle.skip (expandCommandCalls n len s))))) ∨
    (n ≤ s.cfg.ibufSize ∧ len ≤ kdfMaxOut ∧ ∃ k e, k < expandCommandCalls n len s ∧ FailsAt s.oracle k e ∧
      kdfExpandToOutput n len s =
        endCommand (.oracleFailure e) (s.loseKctx.setOracle (s.oracle.skip (k + 1)))) := by
  unfold kdfExpandToOutput
  by_cases hn : s.cfg.ibufSize < n
  · exact .inl ⟨hn, by simp [hn]; rfl⟩
  by_cases hl : kdfMaxOut < len
  · exact .inr (.inl ⟨by omega, hl, by simp [hn, hl]; rfl⟩)
  rcases (expandLoop_makes (keyOperand s) (dataOperand s n) (expandCount len) 1 [] s.kctx).cases s.oracle with
    ⟨ho, h⟩ | ⟨k, e, hk, hf, h⟩
  · exact .inr (.inr (.inl ⟨by omega, by omega, ho, by simp only [hn, hl, if_false, h]; rfl⟩))
  · exact .inr (.inr (.inr ⟨by omega, by omega, k, e, hk, hf, by simp only [hn, hl, if_false, h]⟩))

/-! ### Every perform step at once -/

/-- `t` is `s` but for the parts of the state an engine works on. -/
abbrev EngineFrame (s t : State) : Prop :=
  t = { s with slots := t.slots, kctx := t.kctx, mem := t.mem, oracle := t.oracle, freeCount := t.freeCount }

theorem EngineFrame.refl (s : State) : EngineFrame s s := rfl

/-- Whatever the command and the draws, its perform step ends with some result on a state that differs only in the parts
an engine works on. -/
theorem performed_shape (i : Instr) (s : State) :
    ∃ r x, performed i s = endCommand r x ∧ EngineFrame s x := by
  have slotted : ∀ (c : SlotId) (f : State → State), (∃ r x, f s = endCommand r x ∧ EngineFrame s x) →
      ∃ r x, onSlot c s f = endCommand r x ∧ EngineFrame s x := by
    intro c f h
    unfold onSlot
    split
    · exact h
    · exact ⟨_, s, rfl, EngineFrame.refl s⟩
  have failed : ∀ code : Byte, (∃ r : CommandResult, r.code = code ∧ ∀ n, r.countFail n = n) →
      ∃ r x, checkFailed code s = endCommand r x ∧ EngineFrame s x := by
    rintro _ ⟨r, rfl, h⟩
    exact ⟨r, s, by simp [endCommand, checkFailed, h], EngineFrame.refl s⟩
  cases i with
  | ctrInit c => exact slotted c _ ⟨_, _, rfl, rfl⟩
  | ctrCrypt c n =>
    apply slotted
    rcases ctrApply_cases c n.toNat s with ⟨_, h⟩ | ⟨_, _, h⟩ | ⟨_, _, e, _, h⟩ | ⟨_, _, _, ks, _, h⟩ <;> rw [h]
    · exact failed _ ⟨.lengthFailure, rfl, fun _ => rfl⟩
    · exact failed _ ⟨.sequenceFailure, rfl, fun _ => rfl⟩
    · exact ⟨_, _, rfl, rfl⟩
    · exact ⟨_, _, rfl, rfl⟩
  | cmacInit c =>
    apply slotted
    rcases macSlotInit_cases c s with ⟨_, h⟩ | ⟨_, _, h⟩ <;> rw [h] <;> exact ⟨_, _, rfl, rfl⟩
  | cmacUpdate c n =>
    apply slotted
    rcases macSlotUpdate_cases c n.toNat s with ⟨_, h⟩ | ⟨_, _, h⟩ | ⟨_, _, _, h⟩ | ⟨_, _, k, e, _, _, h⟩ <;> rw [h]
    · exact failed _ ⟨.operandRange, rfl, fun _ => rfl⟩
    · exact failed _ ⟨.sequenceFailure, rfl, fun _ => rfl⟩
    · exact ⟨_, _, rfl, rfl⟩
    · exact ⟨_, _, rfl, rfl⟩
  | cmacFinish c =>
    apply slotted
    rcases macSlotFinish_cases c s with ⟨_, h⟩ | ⟨_, _, h⟩ | ⟨_, _, _, h⟩ <;> rw [h]
    · exact failed _ ⟨.sequenceFailure, rfl, fun _ => rfl⟩
    · exact ⟨_, _, rfl, rfl⟩
    · exact ⟨_, _, rfl, rfl⟩
  | cmacCompute n =>
    show ∃ r x, macToOutput n.toNat s = endCommand r x ∧ EngineFrame s x
    rcases macToOutput_cases n.toNat s with ⟨_, h⟩ | ⟨_, _, _, _, h⟩ | ⟨_, _, _, _, _, h⟩ <;> rw [h]
    · exact failed _ ⟨.operandRange, rfl, fun _ => rfl⟩
    · exact ⟨_, _, rfl, rfl⟩
    · exact ⟨_, _, rfl, rfl⟩
  | kdfExtract n =>
    show ∃ r x, macToOutput n.toNat s = endCommand r x ∧ EngineFrame s x
    rcases macToOutput_cases n.toNat s with ⟨_, h⟩ | ⟨_, _, _, _, h⟩ | ⟨_, _, _, _, _, h⟩ <;> rw [h]
    · exact failed _ ⟨.operandRange, rfl, fun _ => rfl⟩
    · exact ⟨_, _, rfl, rfl⟩
    · exact ⟨_, _, rfl, rfl⟩
  | kdfExpand n l =>
    show ∃ r x, kdfExpandToOutput n.toNat l.toNat s = endCommand r x ∧ EngineFrame s x
    rcases kdfExpandToOutput_cases n.toNat l.toNat s with
      ⟨_, h⟩ | ⟨_, _, h⟩ | ⟨_, _, _, h⟩ | ⟨_, _, _, _, _, _, h⟩ <;> rw [h]
    · exact failed _ ⟨.operandRange, rfl, fun _ => rfl⟩
    · exact failed _ ⟨.protocolBoundsFailure, rfl, fun _ => rfl⟩
    · exact ⟨_, _, rfl, rfl⟩
    · exact ⟨_, _, rfl, rfl⟩

end Sys2Proof.Machine
end

