-- ==== Sys2Proof/Laws/PerInstr.lean ====
section
/-!
SUPPORT. Facts about every command as syntax, one lemma for each constructor of `Instr`.
-/

namespace Sys2Proof.Laws.EncodedRow

/-- The word of a command matches that command's row of the table of 30_encoding.md R93, and no other row. -/
def Statement (i : Instr) : Prop :=
  opcodeTable.filter (fun r => r.accepts (encode i)) =
    opcodeTable.filter (fun r => r.mnemonic == mnemonicOf i)

theorem ctrInit (ctx : SlotId) : Statement (.ctrInit ctx) := by
  simp [Statement, opcodeTable_fields, encode, mnemonicOf, accepts_assemble]

theorem ctrCrypt (ctx : SlotId) (ilen : BitVec 12) : Statement (.ctrCrypt ctx ilen) := by
  simp [Statement, opcodeTable_fields, encode, mnemonicOf, accepts_assemble]

theorem cmacInit (ctx : SlotId) : Statement (.cmacInit ctx) := by
  simp [Statement, opcodeTable_fields, encode, mnemonicOf, accepts_assemble]

theorem cmacUpdate (ctx : SlotId) (ilen : BitVec 12) : Statement (.cmacUpdate ctx ilen) := by
  simp [Statement, opcodeTable_fields, encode, mnemonicOf, accepts_assemble]

theorem cmacFinish (ctx : SlotId) : Statement (.cmacFinish ctx) := by
  simp [Statement, opcodeTable_fields, encode, mnemonicOf, accepts_assemble]

theorem cmacCompute (ilen : BitVec 12) : Statement (.cmacCompute ilen) := by
  simp [Statement, opcodeTable_fields, encode, mnemonicOf, accepts_assemble]

theorem kdfExtract (ilen : BitVec 12) : Statement (.kdfExtract ilen) := by
  simp [Statement, opcodeTable_fields, encode, mnemonicOf, accepts_assemble]

theorem kdfExpand (ilen olen : BitVec 12) : Statement (.kdfExpand ilen olen) := by
  simp [Statement, opcodeTable_fields, encode, mnemonicOf, accepts_assemble]

end Sys2Proof.Laws.EncodedRow
end

