-- ==== Sys2Proof/Tests/Slice0.lean ====
section
/-!
SUPPORT. The model's own tests. Expected values come from spec/95_test_vectors.md and the encoding tables; the last part
shows, for every statement with hypotheses, a state and operands that meet them.
-/

namespace Sys2Proof.Tests

open Sys2Proof.Machine

/-! ### Commands the block's encoding does not admit (30_encoding.md R91, R94 c) -/

theorem test_wellFormed_refuses_ctrInit : wellFormed Params.default (.ctrInit 8) = false := by decide
theorem test_wellFormed_refuses_ctrCrypt : wellFormed Params.default (.ctrCrypt 15 3) = false := by decide
theorem test_wellFormed_refuses_cmacInit : wellFormed Params.default (.cmacInit 9) = false := by decide
theorem test_wellFormed_refuses_cmacUpdate : wellFormed Params.default (.cmacUpdate 8 16) = false := by decide
theorem test_wellFormed_refuses_cmacFinish : wellFormed Params.default (.cmacFinish 12) = false := by decide

/-- The last slot that exists, and the commands that take none. -/
theorem test_wellFormed_accepts :
    wellFormed Params.default (.ctrInit 7) = true ∧ wellFormed Params.default (.cmacCompute 0xFFF) = true ∧
    wellFormed Params.default (.kdfExtract 0xFFF) = true ∧
    wellFormed Params.default (.kdfExpand 0xFFF 0xFFF) = true := by decide

/-! ### Decoding, word by word (30_encoding.md R90, R93, R94, R96; 95_test_vectors.md 2.7) -/

/-- `0001 0010 000000000000 000000000000`. -/
theorem test_decode_ctrInit :
    decode Params.default 0b00010010000000000000000000000000 = .ok (.ctrInit 2) := by decide
/-- `0010 0011 000000000000 000000000011`. -/
theorem test_decode_ctrCrypt :
    decode Params.default 0b00100011000000000000000000000011 = .ok (.ctrCrypt 3 3) := by decide
/-- `0100 0001 000000000000 000000000000`. -/
theorem test_decode_cmacInit :
    decode Params.default 0b01000001000000000000000000000000 = .ok (.cmacInit 1) := by decide
/-- `0101 0001 000000000000 000000010000`. -/
theorem test_decode_cmacUpdate :
    decode Params.default 0b01010001000000000000000000010000 = .ok (.cmacUpdate 1 16) := by decide
/-- `0110 0001 000000000000 000000000000`. -/
theorem test_decode_cmacFinish :
    decode Params.default 0b01100001000000000000000000000000 = .ok (.cmacFinish 1) := by decide
/-- `0111 0000 000000000000 000000010000`. -/
theorem test_decode_cmacCompute :
    decode Params.default 0b01110000000000000000000000010000 = .ok (.cmacCompute 16) := by decide
/-- `1000 0000 000000000000 000000010000`. -/
theorem test_decode_kdfExtract :
    decode Params.default 0b10000000000000000000000000010000 = .ok (.kdfExtract 16) := by decide
/-- `1001 0000 000000001100 000000010000`. -/
theorem test_decode_kdfExpand :
    decode Params.default 0b10010000000000001100000000010000 = .ok (.kdfExpand 16 12) := by decide

/-- Reserved opcodes (R94 a). -/
theorem test_decode_reserved :
    decode Params.default 0x00000000 = .error .reservedOpcode ∧
    decode Params.default 0x30000000 = .error .reservedOpcode ∧
    decode Params.default 0xA0000000 = .error .reservedOpcode ∧
    decode Params.default 0xFFFFFFFF = .error .reservedOpcode := by decide

/-- Unused fields that are not zero (R94 b). -/
theorem test_decode_unused_fields :
    decode Params.default 0x10001000 = .error .unusedFieldNotZero ∧
    decode Params.default 0x10000001 = .error .unusedFieldNotZero ∧
    decode Params.default 0x20001003 = .error .unusedFieldNotZero ∧
    decode Params.default 0x71000000 = .error .unusedFieldNotZero ∧
    decode Params.default 0x91000000 = .error .unusedFieldNotZero := by decide

/-- A slot that does not exist (R94 c), and bytes that are not one word. -/
theorem test_decode_no_slot :
    decode Params.default 0x28000001 = .error .noSuchSlot ∧
    decodeBytes Params.default [0x00, 0x00, 0x12] = .error .notOneWord ∧
    decodeBytes Params.default [0x00, 0x00, 0x00, 0x12] = .ok (.ctrInit 2) := by decide

/-- The bits of a table row, numbered as the table numbers them. -/
theorem test_decodeTableWord :
    decodeTableWord 32 0x9000C010 = some (.kdfExpand 16 12) ∧ decodeTableWord 32 0x28000001 = none := by decide

/-! ### One step of every command on a small state (95_test_vectors.md 2.3 to 2.5) -/

/-- The key of the examples, `2b7e151628aed2a6abf7158809cf4f3c`. -/
def exampleKey : Block :=
  #v[0x2b, 0x7e, 0x15, 0x16, 0x28, 0xae, 0xd2, 0xa6, 0xab, 0xf7, 0x15, 0x88, 0x09, 0xcf, 0x4f, 0x3c]

/-- The nonce of the CTR examples, `f0f1f2f3f4f5f6f7f8f9fafb`. -/
def exampleNonce : Nonce := #v[0xf0, 0xf1, 0xf2, 0xf3, 0xf4, 0xf5, 0xf6, 0xf7, 0xf8, 0xf9, 0xfa, 0xfb]

/-- `K1` of the example key. -/
def exampleK1 : Block :=
  #v[0xfb, 0xee, 0xd6, 0x18, 0x35, 0x71, 0x33, 0x66, 0x7c, 0x85, 0xe0, 0x8f, 0x72, 0x36, 0xa8, 0xde]

/-- `K2` of the example key. -/
def exampleK2 : Block :=
  #v[0xf7, 0xdd, 0xac, 0x30, 0x6a, 0xe2, 0x66, 0xcc, 0xf9, 0x0b, 0xc1, 0x1e, 0xe4, 0x6d, 0x51, 0x3b]

/-- The first 16 bytes of the CMAC examples' message. -/
def exampleData : List Byte :=
  [0x6b, 0xc1, 0xbe, 0xe2, 0x2e, 0x40, 0x9f, 0x96, 0xe9, 0x3d, 0x7e, 0x11, 0x73, 0x93, 0x17, 0x2a]

/-- A claimed block with the word `w` in flight, key and data loaded, and the coming draws settled. -/
def inFlight (w : Word) (key data : List Byte) (draws : List OracleDraw) : State :=
  { State.reset with
    mem := Memory.writeBytes (Memory.writeBytes [] 0x0040 key) 0x1000 data
    cmdLatch := w
    busy := true
    run := true
    oracle := { draws := draws, calls := 0 } }

/-- The state after one step that goes on. -/
def stepped (s : State) : State :=
  match step s with
  | .next t => t
  | .fault _ => s
  | .refused _ => s

/-- An AesCtrContext of the examples with counter `n`. -/
def exampleCtr (n : Word) : AesCtrContext :=
  { key := exampleKey, nonce := exampleNonce, counter := n, keystream := zeroBlock, init := true }

/-- A CmacContext of the example key with `n` bytes of `acc` buffered. -/
def exampleMac (acc prev : Block) (n : BitVec 5) (multi : Bool) : CmacContext :=
  { key := exampleKey, key1 := exampleK1, key2 := exampleK2, acc := acc, prev := prev, partialLength := n,
    multiblock := multi, phase := .ready }

/-- `CTR.INIT c2` loads key and nonce and zeroes a counter that was 7. -/
theorem test_ctrInit_loads :
    ((stepped ((inFlight 0x12000000 (exampleKey.toList ++ exampleNonce.toList) [] []).setCtr 2
      { AesCtrContext.reset with counter := 7 })).slot 2).ctr = exampleCtr 0 := by decide +kernel

/-- `CTR.INIT c8`: no such slot. -/
theorem test_ctrInit_no_slot : (stepped (inFlight 0x18000000 [] [] [])).result = 0x05 := by decide +kernel

/-- `CTR.CRYPT c2, 3` with `CNT[2] = 7` and data `010203` gives `5db2d6`, and the counter stays. -/
theorem test_ctrCrypt_output :
    let t := stepped ((inFlight 0x22000003 [] [1, 2, 3] [.ok]).setCtr 2 (exampleCtr 7))
    t.mem.readBytes 0x2000 4 = [0x5d, 0xb2, 0xd6, 0x00] ∧ (t.slot 2).ctr.counter = 7 := by decide +kernel

/-- `CTR.CRYPT c2, 17`: `LengthFailure`, before the slot is looked at. -/
theorem test_ctrCrypt_length : (stepped (inFlight 0x22000011 [] [] [])).result = 0x03 := by decide +kernel

/-- `CMAC.INIT c1` derives the subkeys of the example key. -/
theorem test_cmacInit_subkeys :
    ((stepped (inFlight 0x41000000 exampleKey.toList [] [.ok])).slot 1).mac =
      exampleMac zeroBlock zeroBlock 0 false := by decide +kernel

/-- `CMAC.INIT c1`, the oracle timing out: the slot's status word is 0 and the failure is counted. -/
theorem test_cmacInit_timeout :
    let t := stepped (inFlight 0x41000000 exampleKey.toList [] [.timeout])
    t.result = 0x01 ∧ t.oracleFails = 1 ∧ ctxstatWord (t.slot 1) = 0 := by decide +kernel

/-- `CMAC.UPDATE c1, 16`: 16 bytes stay buffered. -/
theorem test_cmacUpdate_keeps_full_block :
    let t := stepped ((inFlight 0x51000010 [] exampleData []).setMac 1 (exampleMac zeroBlock zeroBlock 0 false))
    ctxstatWord (t.slot 1) = 0x00000102 ∧ (t.slot 1).mac.acc.toList = exampleData := by decide +kernel

/-- `CMAC.UPDATE c1, 17`: one fold, `prev = 3ad77bb40d7a3660a89ecaf32466ef97`. -/
theorem test_cmacUpdate_folds :
    let t := stepped ((inFlight 0x51000011 [] (exampleData ++ [0xae]) [.ok]).setMac 1
      (exampleMac zeroBlock zeroBlock 0 false))
    ctxstatWord (t.slot 1) = 0x0000001A ∧
      (t.slot 1).mac.prev = #v[0x3a, 0xd7, 0x7b, 0xb4, 0x0d, 0x7a, 0x36, 0x60, 0xa8, 0x9e, 0xca, 0xf3, 0x24,
        0x66, 0xef, 0x97] := by decide +kernel

/-- `CMAC.FINISH c1` after 40 bytes: the tag `dfa66747de9ae63030ca32611497c827`, and phase `Finished`. -/
theorem test_cmacFinish_tag :
    let t := stepped ((inFlight 0x61000000 [] [] [.ok]).setMac 1
      (exampleMac #v[0x30, 0xc8, 0x1c, 0x46, 0xa3, 0x5c, 0xe4, 0x11, 0xe5, 0xfb, 0xc1, 0x19, 0x1a, 0x0a, 0x52, 0xef]
        #v[0xb1, 0x48, 0xc1, 0x7f, 0x30, 0x9e, 0xe6, 0x92, 0x28, 0x7a, 0xe5, 0x7c, 0xf1, 0x2a, 0xdd, 0x49] 8 true))
    t.mem.readBytes 0x2000 16 = [0xdf, 0xa6, 0x67, 0x47, 0xde, 0x9a, 0xe6, 0x30, 0x30, 0xca, 0x32, 0x61, 0x14, 0x97,
      0xc8, 0x27] ∧ ctxstatWord (t.slot 1) = 0x0000008C := by decide +kernel

/-- `CMAC.FINISH c1` on a slot never initialised. -/
theorem test_cmacFinish_sequence : (stepped (inFlight 0x61000000 [] [] [])).result = 0x06 := by decide +kernel

/-- `CMAC.COMPUTE 16`: the tag `070a16b46b4d4144f79bdd9dd04a287c`. -/
theorem test_cmacCompute_tag :
    (stepped (inFlight 0x70000010 exampleKey.toList exampleData [.ok, .ok])).mem.readBytes 0x2000 16 =
      [0x07, 0x0a, 0x16, 0xb4, 0x6b, 0x4d, 0x41, 0x44, 0xf7, 0x9b, 0xdd, 0x9d, 0xd0, 0x4a, 0x28, 0x7c] := by
  decide +kernel

/-- `CMAC.COMPUTE 257`: more than the input buffer holds. -/
theorem test_cmacCompute_range : (stepped (inFlight 0x70000101 [] [] [])).result = 0x07 := by decide +kernel

/-- `KDF.EXTRACT 16` of the made-up master secret: `prk = 94b0e7f347fc6eda538d270ca83b5c74`. -/
theorem test_kdfExtract_prk :
    (stepped (inFlight 0x80000010 ((List.range 16).map fun n => BitVec.ofNat 8 (16 + n))
      ((List.range 16).map fun n => BitVec.ofNat 8 n) [.ok, .ok])).mem.readBytes 0x2000 16 =
      [0x94, 0xb0, 0xe7, 0xf3, 0x47, 0xfc, 0x6e, 0xda, 0x53, 0x8d, 0x27, 0x0c, 0xa8, 0x3b, 0x5c, 0x74] := by
  decide +kernel

/-- `KDF.EXTRACT 16`, the last invocation faulting: `OracleFailure(Fault)` and nothing in `OBUF`. -/
theorem test_kdfExtract_fault :
    let t := stepped (inFlight 0x80000010 exampleKey.toList exampleData [.ok, .fault])
    t.result = 0x02 ∧ t.oracleFails = 1 ∧ t.mem.readBytes 0x2000 2 = [0x00, 0x00] := by decide +kernel

/-- `KDF.EXPAND 14, 16` with info `encryption key`: `951c29cff17769e39d7853fd2eeb8ed7`. -/
theorem test_kdfExpand_output :
    (stepped (inFlight 0x9001000E
      [0x94, 0xb0, 0xe7, 0xf3, 0x47, 0xfc, 0x6e, 0xda, 0x53, 0x8d, 0x27, 0x0c, 0xa8, 0x3b, 0x5c, 0x74]
      [0x65, 0x6e, 0x63, 0x72, 0x79, 0x70, 0x74, 0x69, 0x6f, 0x6e, 0x20, 0x6b, 0x65, 0x79]
      [.ok, .ok])).mem.readBytes 0x2000 17 =
      [0x95, 0x1c, 0x29, 0xcf, 0xf1, 0x77, 0x69, 0xe3, 0x9d, 0x78, 0x53, 0xfd, 0x2e, 0xeb, 0x8e, 0xd7, 0x00] := by
  decide +kernel

/-- `KDF.EXPAND 14, 4081`: `ProtocolBoundsFailure`. -/
theorem test_kdfExpand_bound : (stepped (inFlight 0x90FF100E [] [] [])).result = 0x04 := by decide +kernel

/-! ### The bus and the claim (95_test_vectors.md 2.6, 2.7) -/

/-- Whether an access is refused, and why. -/
def refusedFor (a : Access) (s : State) : Option AccessCause :=
  match busAccess a s with
  | .fault (.accessFault cause) => some cause
  | .next _ => none
  | .refused _ => none

/-- `MemWrite(0x1000, 4, 0x04030201)`, then `MemWrite(0x1002, 2, 0xBBAA)`, then `MemRead(0x1000, 4)`. -/
theorem test_lanes :
    ∃ t, runEvents [.host (.write 0x1000 .word 0x04030201), .host (.write 0x1002 .half 0xBBAA),
        .host (.read 0x1000 .word)] State.reset = .next t ∧
      t.reply = .data 0xBBAA0201 ∧ t.mem.readBytes 0x1000 4 = [0x01, 0x02, 0xaa, 0xbb] := ⟨_, rfl, by decide, by decide⟩

/-- The refused accesses of 95_test_vectors.md 2.7. -/
theorem test_refused_accesses :
    refusedFor (.read 0x0000 .word) State.reset = some .direction ∧
    refusedFor (.read 0x0040 .word) State.reset = some .direction ∧
    refusedFor (.write 0x2000 .word 0) State.reset = some .direction ∧
    refusedFor (.write 0x0004 .word 0) State.reset = some .direction ∧
    refusedFor (.read 0x0018 .word) State.reset = some .reserved ∧
    refusedFor (.read 0x0120 .word) State.reset = some .reserved ∧
    refusedFor (.read 0x1100 .byte) State.reset = some .reserved ∧
    refusedFor (.read 0x2FF0 .byte) State.reset = some .reserved ∧
    refusedFor (.read 0x3000 .word) State.reset = some .reserved ∧
    refusedFor (.read 0x1001 .half) State.reset = some .misaligned ∧
    refusedFor (.read 0x0004 .byte) State.reset = some .width := by decide +kernel

/-- Steps 1 to 5 of 95_test_vectors.md 2.6: an issue without claim, the claim, a collision, an issue, a dropped issue. -/
theorem test_contention :
    ∃ t, runEvents [.host (.write 0x0000 .word 0x41000000), .host (.read 0x0008 .word), .host (.read 0x0008 .word),
        .host (.write 0x0000 .word 0x70000000), .host (.write 0x0000 .word 0x12000000)] State.reset = .next t ∧
      statusWord t = 0x00000803 ∧ t.collisions = 2 ∧ t.cmdLatch = 0x70000000 := ⟨_, rfl, by decide, by decide, by decide⟩

/-! ### States and operands that meet the hypotheses of the statements -/

/-- Draws: `n` successes and then `rest`. -/
def draws (n : Nat) (rest : List OracleDraw) : OracleInput := { draws := List.replicate n .ok ++ rest, calls := 0 }

theorem okFor_draws (n : Nat) (rest : List OracleDraw) : OkFor (draws n rest) n := by
  intro j hj
  obtain ⟨m, rfl⟩ : ∃ m, n = j + (m + 1) := ⟨n - j - 1, by omega⟩
  simp [draws, OracleInput.skip, OracleInput.nextDraw, List.replicate_add, List.replicate_succ, List.append_assoc]

theorem failsAt_draws (n : Nat) (e : OracleError) : FailsAt (draws n [e.draw]) n e := by
  refine ⟨okFor_draws n _, ?_⟩
  simp [draws, OracleInput.skip, OracleInput.nextDraw]

/-- The reset block with settled draws. -/
def idle (o : OracleInput) : State := State.reset.setOracle o

/-- The same with slot 7 initialised for CTR and a CMAC context in slot 7. -/
def loaded (o : OracleInput) (c : CmacContext) : State := ((idle o).setCtr 7 (exampleCtr 0xFFFFFFFF)).setMac 7 c

/-- A `Ready` context with `n` bytes buffered. -/
def buffering (n : BitVec 5) (multi : Bool) : CmacContext := exampleMac zeroBlock zeroBlock n multi

/-- A block with a claim and the word `w` in flight. -/
def running (w : Word) : State := { State.reset with busy := true, run := true, cmdLatch := w }

/-- A block with a claim and no command in flight. -/
def claimed : State := { State.reset with busy := true }

/-- A block with the given events waiting. -/
def waiting (q : List Event) (s : State) : State := s.setInbox q

theorem witness_DecodeOfEncode :
    wellFormed Params.default (.ctrInit 7) = true ∧ wellFormed Params.default (.kdfExpand 0xFFF 0) = true := by decide

theorem witness_EncodeOfDecode : decode Params.default 0x90FFFFFF = .ok (.kdfExpand 0xFFF 0xFFF) := by decide

/-- The last slot that exists, and the first that does not. -/
theorem witness_OpcodeTableRows :
    decode Params.default 0x17000000 = .ok (.ctrInit 7) ∧
    (TableRow.mk "CTR.INIT" 0x10000000 0xF0FFFFFF ∈ opcodeTable) ∧
    ((TableRow.mk "CTR.INIT" 0x10000000 0xF0FFFFFF).accepts 0x17000000 = true ∧
      (0x17000000 : Word).toNat / 2 ^ 24 % 16 < Params.default.nctx) ∧
    ((TableRow.mk "CTR.INIT" 0x10000000 0xF0FFFFFF).accepts 0x18000000 = true ∧
      Params.default.nctx ≤ (0x18000000 : Word).toNat / 2 ^ 24 % 16) := by decide

/-- The engine's turn with no event waiting, and one that waits before a reset. -/
theorem engineTurnAt_running (w : Word) :
    EngineTurnAt (running w) (running w) ∧
    EngineTurnAt (waiting [.engine, .reset] (running w)) (waiting [.reset] (running w)) :=
  ⟨.inl ⟨rfl, rfl⟩, .inr ⟨[.reset], rfl, rfl⟩⟩

theorem witness_IllegalWordsFail :
    EngineTurnAt (running 0x30000000) (running 0x30000000) ∧
    EngineTurnAt (waiting [.engine, .reset] (running 0x30000000)) (waiting [.reset] (running 0x30000000)) ∧
    (running 0x30000000).run = true ∧
    decode (running 0x30000000).cfg (running 0x30000000).cmdLatch = .error .reservedOpcode :=
  ⟨(engineTurnAt_running _).1, (engineTurnAt_running _).2, rfl, by decide⟩

/-- A command in flight, at a turn at once and at one that waits; and no command in flight. -/
theorem witness_StepRunsDecodedCommand :
    (EngineTurnAt (running 0x9000C010) (running 0x9000C010) ∧
      EngineTurnAt (waiting [.engine, .reset] (running 0x9000C010)) (waiting [.reset] (running 0x9000C010)) ∧
      (running 0x9000C010).run = true ∧
      decode (running 0x9000C010).cfg (running 0x9000C010).cmdLatch = .ok (.kdfExpand 16 12)) ∧
    (EngineTurnAt (waiting [.engine] claimed) claimed ∧ (waiting [.engine] claimed).run = false) :=
  ⟨⟨(engineTurnAt_running _).1, (engineTurnAt_running _).2, rfl, by decide⟩, .inr ⟨[], rfl, rfl⟩, rfl⟩

theorem witness_IssuedCommandIsPerformed :
    let s := waiting [.host (.write 0x0000 .word (encode (.cmacInit 7))), .engine] claimed
    s.busy = true ∧ s.run = false ∧ wellFormed s.cfg (.cmacInit 7) = true ∧
    s.inbox = .host (.write 0x0000 .word (encode (.cmacInit 7))) :: .engine :: [] := ⟨rfl, rfl, by decide, rfl⟩

theorem witness_PerformEndsCommand :
    EngineTurnAt (running 0x71000000) (running 0x71000000) ∧
    EngineTurnAt (waiting [.engine, .reset] (running 0x71000000)) (waiting [.reset] (running 0x71000000)) ∧
    (running 0x71000000).run = true :=
  ⟨(engineTurnAt_running _).1, (engineTurnAt_running _).2, rfl⟩

/-- A claim, an issue, and the perform step of an illegal word. -/
theorem witness_CommandsFinish :
    let s := waiting [.host (.read 0x0008 .word), .host (.write 0x0000 .word 0)] State.reset
    ∃ t, runSteps (s.inbox.length + 1) s = .next t ∧ t.result = 0x05 := ⟨_, rfl, by decide⟩

theorem witness_CtrInitRule :
    slotExists State.reset.cfg 8 = false ∧ slotExists State.reset.cfg 7 = true := by decide

theorem witness_CtrCryptRule :
    slotExists State.reset.cfg 8 = false ∧
    (slotExists State.reset.cfg 7 = true ∧ 16 < (17 : BitVec 12).toNat) ∧
    ((16 : BitVec 12).toNat ≤ 16 ∧ (State.reset.slot 7).ctr.init = false) ∧
    (let s := loaded (draws 0 [OracleError.timeout.draw]) (buffering 0 false);
      slotExists s.cfg 7 = true ∧ (s.slot 7).ctr.init = true ∧ FailsAt s.oracle 0 .timeout) ∧
    (let s := loaded (draws 0 [OracleError.fault.draw]) (buffering 0 false);
      slotExists s.cfg 7 = true ∧ (s.slot 7).ctr.init = true ∧ FailsAt s.oracle 0 .fault) ∧
    (let s := loaded (draws 1 []) (buffering 0 false);
      slotExists s.cfg 7 = true ∧ (s.slot 7).ctr.init = true ∧ OkFor s.oracle 1 ∧ s.mem.wf = true) :=
  ⟨by decide, by decide, by decide, ⟨by decide, by decide, failsAt_draws 0 .timeout⟩,
    ⟨by decide, by decide, failsAt_draws 0 .fault⟩, ⟨by decide, by decide, okFor_draws 1 [], by decide⟩⟩

theorem witness_CounterBlockLayout :
    (exampleCtr 0).counter = 0 ∧ (exampleCtr 0xFFFFFFFF).counter = 0xFFFFFFFF := ⟨rfl, rfl⟩

theorem witness_CmacInitRule :
    slotExists State.reset.cfg 8 = false ∧
    (slotExists (idle (draws 0 [OracleError.fault.draw])).cfg 7 = true ∧
      FailsAt (idle (draws 0 [OracleError.fault.draw])).oracle 0 .fault) ∧
    (slotExists (idle (draws 1 [])).cfg 7 = true ∧ OkFor (idle (draws 1 [])).oracle 1) :=
  ⟨by decide, ⟨by decide, failsAt_draws 0 .fault⟩, ⟨by decide, okFor_draws 1 []⟩⟩

/-- The range and phase checks at 256 and 257 bytes; a failure in the first fold of one byte on a full buffer and in the
last fold of 256 bytes; success without and with a fold. -/
theorem witness_CmacUpdateRule :
    slotExists State.reset.cfg 8 = false ∧
    (slotExists State.reset.cfg 7 = true ∧ State.reset.cfg.ibufSize < (257 : BitVec 12).toNat) ∧
    ((256 : BitVec 12).toNat ≤ State.reset.cfg.ibufSize ∧ (State.reset.slot 7).mac.phase ≠ .ready) ∧
    (let s := loaded (draws 0 [OracleError.timeout.draw]) (buffering 16 false);
      slotExists s.cfg 7 = true ∧ (s.slot 7).mac.phase = .ready ∧ (s.slot 7).mac.partialLength.toNat ≤ 16 ∧
      0 < macFolds (s.slot 7).mac.partialLength.toNat (1 : BitVec 12).toNat ∧ FailsAt s.oracle 0 .timeout) ∧
    (let s := loaded (draws 15 [OracleError.fault.draw]) (buffering 16 true);
      slotExists s.cfg 7 = true ∧ (s.slot 7).mac.phase = .ready ∧ (s.slot 7).mac.partialLength.toNat ≤ 16 ∧
      15 < macFolds (s.slot 7).mac.partialLength.toNat (256 : BitVec 12).toNat ∧ FailsAt s.oracle 15 .fault) ∧
    (let s := loaded (draws 0 []) (buffering 0 false);
      (s.slot 7).mac.phase = .ready ∧ OkFor s.oracle (macFolds (s.slot 7).mac.partialLength.toNat 16)) ∧
    (let s := loaded (draws 16 []) (buffering 16 true);
      (s.slot 7).mac.phase = .ready ∧ OkFor s.oracle (macFolds (s.slot 7).mac.partialLength.toNat 256)) :=
  ⟨by decide, by decide, by decide, ⟨by decide, by decide, by decide, by decide, failsAt_draws 0 .timeout⟩,
    ⟨by decide, by decide, by decide, by decide, failsAt_draws 15 .fault⟩, ⟨by decide, okFor_draws 0 []⟩,
    ⟨by decide, okFor_draws 16 []⟩⟩

theorem witness_CmacFinishRule :
    slotExists State.reset.cfg 8 = false ∧
    (slotExists State.reset.cfg 7 = true ∧ (State.reset.slot 7).mac.phase ≠ .ready) ∧
    (let s := loaded (draws 0 [OracleError.fault.draw]) (buffering 15 true);
      slotExists s.cfg 7 = true ∧ (s.slot 7).mac.phase = .ready ∧ FailsAt s.oracle 0 .fault) ∧
    (let s := loaded (draws 1 []) (buffering 16 false);
      slotExists s.cfg 7 = true ∧ (s.slot 7).mac.phase = .ready ∧ OkFor s.oracle 1 ∧ s.mem.wf = true) :=
  ⟨by decide, by decide, ⟨by decide, by decide, failsAt_draws 0 .fault⟩,
    ⟨by decide, by decide, okFor_draws 1 [], by decide⟩⟩

/-- The hypotheses `CMAC.COMPUTE` and `KDF.EXTRACT` share, with 257, 256 and 0 bytes. -/
theorem witness_CmacComputeRule :
    State.reset.cfg.ibufSize < (257 : BitVec 12).toNat ∧
    ((256 : BitVec 12).toNat ≤ State.reset.cfg.ibufSize ∧ 16 < macInvocations (256 : BitVec 12).toNat ∧
      FailsAt (idle (draws 16 [OracleError.timeout.draw])).oracle 16 .timeout) ∧
    ((0 : BitVec 12).toNat ≤ State.reset.cfg.ibufSize ∧
      OkFor (idle (draws 2 [])).oracle (macInvocations (0 : BitVec 12).toNat) ∧
      (idle (draws 2 [])).mem.wf = true) :=
  ⟨by decide, ⟨by decide, by decide, failsAt_draws 16 .timeout⟩, ⟨by decide, okFor_draws 2 [], by decide⟩⟩

theorem witness_KdfExtractRule :
    State.reset.cfg.ibufSize < (257 : BitVec 12).toNat ∧
    ((0 : BitVec 12).toNat ≤ State.reset.cfg.ibufSize ∧ 0 < macInvocations (0 : BitVec 12).toNat ∧
      FailsAt (idle (draws 0 [OracleError.fault.draw])).oracle 0 .fault) ∧
    ((256 : BitVec 12).toNat ≤ State.reset.cfg.ibufSize ∧
      OkFor (idle (draws 17 [])).oracle (macInvocations (256 : BitVec 12).toNat) ∧
      (idle (draws 17 [])).mem.wf = true) :=
  ⟨by decide, ⟨by decide, by decide, failsAt_draws 0 .fault⟩, ⟨by decide, okFor_draws 17 [], by decide⟩⟩

/-- However often the subkeys are derived, 255 iterations without info make at most 765 invocations. -/
theorem expandInvocations_le (count : Nat) : expandInvocations 0 count ≤ 3 * count := by
  induction count with
  | zero => exact Nat.le_refl _
  | succ i ih =>
    have h1 : (if derivesSubkeys (i + 1) then 1 else 0) ≤ 1 := by split <;> omega
    have h2 : macBlocks (expandLength 0 (i + 1)) ≤ 2 := by
      unfold macBlocks expandLength
      split <;> omega
    simp only [expandInvocations]
    omega

/-- 257 bytes of info; 4081 bytes asked for; a failure in the last invocation for one byte; success for nothing and for
4080 bytes. -/
theorem witness_KdfExpandRule :
    State.reset.cfg.ibufSize < (257 : BitVec 12).toNat ∧
    ((256 : BitVec 12).toNat ≤ State.reset.cfg.ibufSize ∧ 4080 < (4081 : BitVec 12).toNat) ∧
    ((1 : BitVec 12).toNat ≤ 4080 ∧ 1 < expandInvocations (14 : BitVec 12).toNat (((1 : BitVec 12).toNat + 15) / 16) ∧
      FailsAt (idle (draws 1 [OracleError.timeout.draw])).oracle 1 .timeout) ∧
    (OkFor (idle (draws 0 [])).oracle (expandInvocations (256 : BitVec 12).toNat (((0 : BitVec 12).toNat + 15) / 16)) ∧
      (idle (draws 0 [])).mem.wf = true) ∧
    ((4080 : BitVec 12).toNat ≤ 4080 ∧
      OkFor (idle (draws 765 [])).oracle
        (expandInvocations (0 : BitVec 12).toNat (((4080 : BitVec 12).toNat + 15) / 16)) ∧
      (idle (draws 765 [])).mem.wf = true) :=
  ⟨by decide, by decide, ⟨by decide, by decide, failsAt_draws 1 .timeout⟩, ⟨okFor_draws 0 [], by decide⟩,
    ⟨by decide, (okFor_draws 765 []).mono (expandInvocations_le 255), by decide⟩⟩

theorem witness_ExpandInvocationCounts : (0 : Nat) = 0 ∧ 1 ≤ 255 := by decide

/-- Every outcome is a next state; one that fails writes nothing. -/
theorem witness_CommandsAndBuffers :
    ∃ t, exec (.ctrCrypt 7 17) State.reset = .next t ∧ t.result ≠ 0x00 := ⟨_, rfl, by decide +kernel⟩

theorem witness_ResultsOfEachCommand :
    (∃ t, exec (.kdfExpand 0 1) (idle (draws 0 [.timeout])) = .next t ∧ isOracleCode t.result = true) ∧
    (∃ t, exec (.cmacUpdate 7 1) (loaded (draws 0 [.fault]) (buffering 16 false)) = .next t ∧
      isOracleCode t.result = true ∧
      ((loaded (draws 0 [.fault]) (buffering 16 false)).slot 7).mac.partialLength.toNat ≤ 16) :=
  ⟨⟨_, rfl, by decide +kernel⟩, ⟨_, rfl, by decide +kernel, by decide⟩⟩

theorem witness_SlotHalvesIndependent :
    (∃ t, exec (.ctrInit 7) (loaded (draws 0 []) (buffering 3 true)) = .next t) ∧
    (∃ t, exec (.cmacInit 7) (loaded (draws 1 []) (buffering 3 true)) = .next t) := ⟨⟨_, rfl⟩, ⟨_, rfl⟩⟩

theorem witness_CounterChangedOnlyBy :
    (let s := { loaded (draws 0 []) (buffering 0 false) with busy := true, run := true, cmdLatch := 0x17000000 };
      ∃ t, handleEvent .engine s = .next t ∧ (t.slot 7).ctr.counter ≠ (s.slot 7).ctr.counter) ∧
    (∃ t, handleEvent (.host (.write 0x011C .word 9)) State.reset = .next t ∧
      (t.slot 7).ctr.counter ≠ (State.reset.slot 7).ctr.counter) :=
  ⟨⟨_, rfl, by decide +kernel⟩, ⟨_, rfl, by decide +kernel⟩⟩

theorem witness_MacLifecycle :
    (∃ t, exec (.cmacInit 7) (idle (draws 1 [])) = .next t ∧ t.result = 0x00 ∧
      (t.slot 7).mac.phase ≠ ((idle (draws 1 [])).slot 7).mac.phase) ∧
    (∃ t, exec (.cmacInit 7) (idle (draws 0 [.timeout])) = .next t ∧ isOracleCode t.result = true) ∧
    (∃ t, exec (.cmacUpdate 7 1) (loaded (draws 1 []) (buffering 16 false)) = .next t ∧ t.result = 0x00) ∧
    (∃ t, exec (.cmacUpdate 7 1) (loaded (draws 0 [.fault]) (buffering 16 false)) = .next t ∧
      isOracleCode t.result = true) ∧
    (∃ t, exec (.cmacFinish 7) (loaded (draws 1 []) (buffering 15 false)) = .next t ∧ t.result = 0x00) ∧
    (∃ t, exec (.cmacFinish 7) (loaded (draws 0 [.fault]) (buffering 16 true)) = .next t ∧
      isOracleCode t.result = true) ∧
    (∃ t, exec (.cmacFinish 7) State.reset = .next t ∧ t.result = 0x06 ∧
      (State.reset.slot 7).mac.phase ≠ .ready ∧ slotExists State.reset.cfg 7 = true) ∧
    (∃ t, exec (.cmacUpdate 7 256) State.reset = .next t ∧ (256 : BitVec 12).toNat ≤ State.reset.cfg.ibufSize) :=
  ⟨⟨_, rfl, by decide +kernel, by decide +kernel⟩, ⟨_, rfl, by decide +kernel⟩, ⟨_, rfl, by decide +kernel⟩,
    ⟨_, rfl, by decide +kernel⟩, ⟨_, rfl, by decide +kernel⟩, ⟨_, rfl, by decide +kernel⟩,
    ⟨_, rfl, by decide +kernel, by decide, by decide⟩, ⟨_, rfl, by decide⟩⟩

/-- No piece at all; and pieces of 256, 0 and 1 bytes. -/
theorem witness_StreamingEqualsOneShot :
    (slotExists (idle (draws 2 [])).cfg 7 = true ∧ (idle (draws 2 [])).mem.wf = true ∧
      OkFor (idle (draws 2 [])).oracle (macInvocations ([] : List (List Byte)).flatten.length)) ∧
    (let pieces : List (List Byte) := [List.replicate 256 0x5A, [], [0x01]];
      (∀ m ∈ pieces, m.length ≤ (idle (draws 18 [])).cfg.ibufSize) ∧
      OkFor (idle (draws 18 [])).oracle (macInvocations pieces.flatten.length)) ∧
    (let v := (idle (draws 2 [])).setMem (Memory.writeBytes [] 0x1000 exampleData);
      (16 : BitVec 12).toNat = [exampleData].flatten.length ∧ 16 ≤ v.cfg.ibufSize ∧ v.mem.wf = true ∧
      (∀ j : Fin 16, zeroBlock[j] = v.mem.read (0x0040 + j.val)) ∧
      v.mem.readBytes 0x1000 16 = [exampleData].flatten ∧ OkFor v.oracle (macInvocations 16)) :=
  ⟨⟨by decide, by decide, okFor_draws 2 []⟩, ⟨by decide +kernel, (okFor_draws 18 []).mono (by decide +kernel)⟩,
    ⟨by decide, by decide, by decide +kernel, by decide +kernel, by decide +kernel, okFor_draws 2 []⟩⟩

theorem witness_CtrInvolution :
    let s := loaded (draws 2 []) (buffering 0 false)
    slotExists s.cfg 7 = true ∧ (s.slot 7).ctr.init = true ∧ (16 : BitVec 12).toNat ≤ 16 ∧
    exampleData.length = (16 : BitVec 12).toNat ∧ s.mem.wf = true ∧ OkFor s.oracle 2 :=
  ⟨by decide, by decide, by decide, by decide, by decide, okFor_draws 2 []⟩

theorem witness_AesPermutesBlocks : aes128 exampleKey exampleK1 = aes128 exampleKey exampleK1 := rfl

theorem witness_CtrKeystreamsDiffer :
    (exampleCtr 0).key = (exampleCtr 1).key ∧ (exampleCtr 0).nonce = (exampleCtr 1).nonce ∧
    (exampleCtr 0).counter ≠ (exampleCtr 1).counter := by decide

theorem witness_PadLayout :
    (15 ≤ 15) ∧ (∀ j : Fin 16, j.val < 15 → zeroBlock[j] = (zeroBlock.set 15 0xFF)[j]) ∧
    (∀ j : Fin 16, j.val < 0 → exampleK1[j] = exampleK2[j]) := by decide +kernel

theorem witness_AcquireTestAndSet :
    (waiting [.host (.read 0x0008 .word)] claimed).inbox = .host (.read 0x0008 .word) :: [] ∧
    ((waiting [.host (.read 0x0008 .half)] claimed).inbox = .host (.read 0x0008 .half) :: [] ∧
      0x0008 ≤ 0x0008 ∧ Width.half ≠ .word) ∧
    ((waiting [.host (.read 0x000B .word)] claimed).inbox = .host (.read 0x000B .word) :: [] ∧
      0x000B < 0x000C ∧ 0x000B ≠ 0x0008) := by decide +kernel

theorem witness_ReleaseClearsClaim :
    ((waiting [.host (.write 0x000C .word 5)] claimed).inbox = .host (.write 0x000C .word 5) :: [] ∧
      (waiting [.host (.write 0x000C .word 5)] claimed).run = false) ∧
    ((waiting [.host (.write 0x000C .word 5)] (running 0)).inbox = .host (.write 0x000C .word 5) :: [] ∧
      (waiting [.host (.write 0x000C .word 5)] (running 0)).run = true) :=
  ⟨⟨rfl, rfl⟩, ⟨rfl, rfl⟩⟩

theorem witness_IssueOutcomes :
    (let s := waiting [.host (.write 0x0000 .word 7)] (running 0);
      s.inbox = .host (.write 0x0000 .word 7) :: [] ∧ s.run = true) ∧
    (let s := waiting [.host (.write 0x0000 .word 7)] State.reset;
      s.inbox = .host (.write 0x0000 .word 7) :: [] ∧ s.run = false ∧ s.busy = false) ∧
    (let s := waiting [.host (.write 0x0000 .word 7)] claimed;
      s.inbox = .host (.write 0x0000 .word 7) :: [] ∧ s.run = false ∧ s.busy = true) ∧
    (let s := waiting [.host (.write 0x0003 .byte 7)] claimed;
      s.inbox = .host (.write 0x0003 .byte 7) :: [] ∧ 0x0003 < 0x0004 ∧ (0x0003 ≠ 0x0000 ∨ Width.byte ≠ .word)) := by
  decide +kernel

/-- Between the two reads of `ACQUIRE` a status read and a turn of the engine. -/
theorem witness_ClaimExcludes :
    (∃ t u, State.reset.busy = false ∧
      (∀ e ∈ [Event.host (.read 0x0004 .word), .engine], leavesClaim e = true) ∧
      handleEvent (.host (.read 0x0008 .word)) State.reset = .next t ∧
      runEvents ([.host (.read 0x0004 .word), .engine] ++ [.host (.read 0x0008 .word)]) t = .next u ∧
      u.collisions = 1) ∧
    (claimed.busy = true ∧ claimed.run = false) :=
  ⟨⟨_, _, rfl, by decide, rfl, rfl, by decide⟩, rfl, rfl⟩

theorem witness_BusyKeptUntilRelease :
    (∃ t, handleEvent (.host (.write 0x000C .word 0)) claimed = .next t ∧ claimed.busy = true ∧ t.busy = false) ∧
    (∃ t, handleEvent .reset (running 0) = .next t ∧ (running 0).busy = true ∧ t.busy = false) :=
  ⟨⟨_, rfl, rfl, rfl⟩, ⟨_, rfl, rfl, rfl⟩⟩

theorem witness_EventCounters :
    (∃ t, handleEvent (.host (.read 0x0008 .word)) claimed = .next t ∧ t.collisions = 1) ∧
    (∃ t, handleEvent (.host (.write 0x0000 .word 0)) (running 0) = .next t ∧ t.collisions = 1) ∧
    (∃ t, handleEvent .engine ((running 0x47000000).setOracle (draws 0 [.timeout])) = .next t ∧
      t.oracleFails = 1) ∧
    (∃ t, handleEvent .engine (running 0) = .next t ∧ t.oracleFails = 0) :=
  ⟨⟨_, rfl, by decide⟩, ⟨_, rfl, by decide⟩, ⟨_, rfl, by decide +kernel⟩, ⟨_, rfl, by decide +kernel⟩⟩

/-- One access at a boundary of each range the statement admits, and one just past it. -/
theorem witness_AdmittedAccesses :
    refusedFor (.read 0x0014 .word) (running 0) = none ∧ refusedFor (.read 0x011C .word) State.reset = none ∧
    refusedFor (.read 0x015C .word) State.reset = none ∧ refusedFor (.read 0x10FF .byte) State.reset = none ∧
    refusedFor (.read 0x2FEF .byte) State.reset = none ∧ refusedFor (.write 0x0000 .word 0) (running 0) = none ∧
    refusedFor (.write 0x000C .word 0) State.reset = none ∧ refusedFor (.write 0x011C .word 0) State.reset = none ∧
    refusedFor (.write 0x005E .half 0) State.reset = none ∧ refusedFor (.write 0x10FC .word 0) State.reset = none ∧
    refusedFor (.read 0x0160 .word) State.reset = some .reserved ∧
    refusedFor (.write 0x000C .word 0) (running 0) = some .running ∧
    refusedFor (.write 0x0060 .byte 0) State.reset = some .reserved := by decide +kernel

theorem witness_ReadsWithoutEffect :
    ∃ t, busAccess (.read 0x2FEC .word) State.reset = .next t ∧ (0x2FEC : Nat) ≠ 0x0008 := ⟨_, rfl, by decide⟩

theorem witness_CtxstatRead : slotExists State.reset.cfg 7 = true ∧ State.reset.run = false := by decide

theorem witness_CounterRegister : slotExists claimed.cfg 0 = true ∧ claimed.run = false := by decide

theorem witness_BufferWriteLanes :
    State.reset.run = false ∧ State.reset.mem.wf = true ∧
    ((0x005C % Width.word.bytes = 0 ∧ 0x005C < 0x0060) ∧ (0x0040 % Width.half.bytes = 0 ∧ 0x0040 ≤ 0x0040)) ∧
    (0x10FF % Width.byte.bytes = 0 ∧ 0x1000 ≤ 0x10FF ∧ 0x10FF < 0x1000 + State.reset.cfg.ibufSize) := by decide

theorem witness_BufferReadLanes :
    State.reset.run = false ∧
    (0x10FE % Width.half.bytes = 0 ∧ 0x1000 ≤ 0x10FE ∧ 0x10FE < 0x1000 + State.reset.cfg.ibufSize) ∧
    (0x2FEC % Width.word.bytes = 0 ∧ 0x2000 ≤ 0x2FEC ∧ 0x2FEC < 0x2FF0) := by decide

theorem witness_MixedWidthSameBytes :
    State.reset.run = false ∧ (0x005C % 4 = 0 ∧ 0x0040 ≤ 0x005C ∧ 0x005C < 0x0060) ∧
    (0x10FC % 4 = 0 ∧ 0x10FC < 0x1000 + State.reset.cfg.ibufSize) := by decide

/-- A command in flight meets the flags' invariant and its perform step goes on. -/
theorem witness_StepKeepsFlagsInvariant :
    FlagsInv (running 0x71000000) ∧ ∃ t, step (running 0x71000000) = .next t :=
  ⟨fun _ => ⟨rfl, rfl⟩, ⟨_, rfl⟩⟩

/-- Slot 7 in the middle of a message, an update of it in flight. -/
theorem witness_StepKeepsMacInvariant :
    let s := { loaded (draws 0 []) (buffering 3 true) with busy := true, run := true, cmdLatch := 0x57000001 }
    MacsInv s ∧ ∃ t, step s = .next t ∧ (t.slot 7).mac.partialLength = 4 := by
  refine ⟨⟨?_, ?_⟩, ⟨_, rfl, by decide +kernel⟩⟩
  · unfold MacInv
    decide +kernel
  · unfold MacInv
    decide +kernel

/-- A byte in `KBUF` and one in `OBUF`, and a write to `IBUF`. -/
theorem witness_StepKeepsMemoryForm :
    let s := waiting [.host (.write 0x1000 .byte 0x11)] (State.reset.setMem [(0x0040, 0x2b), (0x2FEF, 0x01)])
    MemInv s ∧ ∃ t, step s = .next t ∧ t.mem = [(0x0040, 0x2b), (0x1000, 0x11), (0x2FEF, 0x01)] := by
  refine ⟨⟨by decide, ?_⟩, ⟨_, rfl, by decide +kernel⟩⟩
  unfold inBuffer
  decide +kernel

theorem witness_StepKeepsResultCodes :
    ResultInv { running 0 with result := 0x08 } ∧ ∃ t, step { running 0 with result := 0x08 } = .next t :=
  ⟨by unfold ResultInv; decide, ⟨_, rfl⟩⟩

theorem witness_ResetValues :
    (waiting [.reset] (running 0x70000000)).inbox = .reset :: [] ∧
    ∃ t, step (waiting [.reset] (running 0x70000000)) = .next t := ⟨rfl, ⟨_, rfl⟩⟩

/-- Two states that differ in a key no rule reads, both of which answer a read of `CTXSTAT[7]`. -/
theorem witness_UnspecifiedNeverRead :
    let s := State.reset.setMac 7 { CmacContext.reset with key := exampleKey, prev := exampleK1 }
    let t := { State.reset with cmdLatch := 0x70000000, freeCount := 3 }
    s ≠ t ∧ s.eraseUnread = t.eraseUnread ∧ ∃ u, step s = .next u := by
  refine ⟨by decide +kernel, by decide +kernel, ⟨_, rfl⟩⟩

/-- Two states with different keys in `KBUF` and in a slot, an access that goes on and one that faults. -/
theorem witness_SecretsNotReadable :
    let s := (State.reset.setMem [(0x0040, 0x2b)]).setMac 7 (exampleMac exampleK1 exampleK2 3 true)
    let t := State.reset.setMac 7 (exampleMac zeroBlock zeroBlock 3 true)
    s ≠ t ∧ s.eraseSecrets = t.eraseSecrets ∧ (∃ u, busAccess (.read 0x015C .word) s = .next u) ∧
      ∃ r, busAccess (.read 0x0040 .word) s = .fault r := by
  refine ⟨by decide +kernel, by decide +kernel, ⟨_, rfl⟩, ⟨_, rfl⟩⟩

end Sys2Proof.Tests
end

/-! ## What one event does, said once -/

namespace Sys2Proof.Machine

/-! ### The map of the window, read backwards -/

/-- The offsets at which a place stands (10_state.md R35); nothing is said of the reserved ones. -/
def Place.Covers (p : Params) (off : Nat) : Place → Prop
  | .cmd => off < 0x0004
  | .status => 0x0004 ≤ off ∧ off < 0x0008
  | .acquire => 0x0008 ≤ off ∧ off < 0x000C
  | .release => 0x000C ≤ off ∧ off < 0x0010
  | .collisions => 0x0010 ≤ off ∧ off < 0x0014
  | .oracleFails => 0x0014 ≤ off ∧ off < 0x0018
  | .kbuf => 0x0040 ≤ off ∧ off < 0x0060
  | .cnt i => 0x0100 ≤ off ∧ i.toNat = (off - 0x0100) / 4 ∧ i.toNat < p.nctx
  | .ctxstat i => 0x0140 ≤ off ∧ i.toNat = (off - 0x0140) / 4 ∧ i.toNat < p.nctx
  | .ibuf => 0x1000 ≤ off ∧ off < 0x1000 + p.ibufSize
  | .obuf => 0x2000 ≤ off ∧ off < 0x2FF0
  | .reserved => True

theorem placeOf_covers (p : Params) (off : Nat) : (placeOf p off).Covers p off := by
  have hp := p.nctx_le
  unfold placeOf
  repeat' refine iteInduction (motive := Place.Covers p off) (fun _ => ?_) (fun _ => ?_)
  all_goals simp only [Place.Covers, BitVec.toNat_ofNat] <;> omega

/-- A word-aligned offset of `CNT[i]` is `0x0100 + 4 i`, for a slot that exists. -/
theorem placeOf_cnt {p : Params} {off : Nat} {i : SlotId} (h : placeOf p off = .cnt i) (ha : off % 4 = 0) :
    off = 0x0100 + 4 * i.toNat ∧ slotExists p i = true := by
  obtain ⟨hlo, hi, hn⟩ : Place.Covers p off (.cnt i) := h ▸ placeOf_covers p off
  exact ⟨by omega, by simpa [slotExists] using hn⟩

theorem placeOf_cntOffset {p : Params} {i : SlotId} (h : slotExists p i = true) :
    placeOf p (0x0100 + 4 * i.toNat) = .cnt i := by
  have hi : i.toNat < p.nctx := by simpa [slotExists] using h
  have hge : ∀ k, k ≤ 0x0100 → ¬ 0x0100 + 4 * i.toNat < k := by omega
  simp [placeOf, hi, hge]

theorem placeOf_ctxstatOffset {p : Params} {i : SlotId} (h : slotExists p i = true) :
    placeOf p (0x0140 + 4 * i.toNat) = .ctxstat i := by
  have hi : i.toNat < p.nctx := by simpa [slotExists] using h
  have hp := p.nctx_le
  have hge : ∀ k, k ≤ 0x0140 → ¬ 0x0140 + 4 * i.toNat < k := by omega
  simp [placeOf, hi, hge, show 0x0100 + 4 * p.nctx ≤ 0x0140 by omega]

/-! ### Reads of a register of the map -/

/-- An admitted read goes on with the number and the state of its place (20_memory.md R64). -/
theorem busAccess_read {s : State} {off : Nat} {n : Width} (h : refusal s (.read off n) = none) :
    busAccess (.read off n) s = .next ((readPlace off n s).2.setReply (.data (readPlace off n s).1)) := by
  simp [busAccess, memRead, h]

/-- An admitted write goes on with the state its place gives (20_memory.md R65). -/
theorem busAccess_write {s : State} {off : Nat} {n : Width} {v : Word} (h : refusal s (.write off n v) = none) :
    busAccess (.write off n v) s = .next ((writePlace off n v s).setReply .written) := by
  simp [busAccess, memWrite, h]

/-- What goes on was admitted. -/
theorem busAccess_admitted {a : Access} {s t : State} (h : busAccess a s = .next t) : refusal s a = none := by
  rcases busAccess_cases a s with ⟨c, -, hf⟩ | ⟨hr, -⟩
  · simp [hf] at h
  · exact hr

/-! ### The effect of one event -/

/-- The `n` bytes from `off` stand in one of the two buffers the host writes, `KBUF` and `IBUF`. -/
def InHostBuffer (p : Params) (off : Nat) (n : Width) : Prop :=
  (kbufBase ≤ off ∧ off + n.bytes ≤ kbufBase + kbufSize) ∨
  (ibufBase ≤ off ∧ off + n.bytes ≤ ibufBase + p.ibufSize)

/-- Everything one event of 20_memory.md R74 that is no fault can do, one constructor for each rule. -/
inductive EventEffect (s : State) : Event → State → Prop
  /-- The reset event (70_reset_and_hazards.md R300). -/
  | reset : EventEffect s .reset (resetBlock s)
  /-- The engine's turn with no command in flight (60_exceptions.md R285). -/
  | idle (hrun : s.run = false) : EventEffect s .engine s
  /-- The perform step of an illegal word (30_encoding.md R94). -/
  | illegal (hrun : s.run = true) (e : DecodeError) (hd : decode s.cfg s.cmdLatch = .error e) :
    EventEffect s .engine (checkFailed 0x05 s)
  /-- The perform step of a command (44_control.md R206). -/
  | command (hrun : s.run = true) (i : Instr) (hd : decode s.cfg s.cmdLatch = .ok i) :
    EventEffect s .engine (performed i s)
  /-- A read of `ACQUIRE` while the claim is held (44_control.md R201). -/
  | acquireHeld (hbusy : s.busy = true) :
    EventEffect s (.host (.read 0x0008 .word)) { s with collisions := s.collisions + 1, reply := .data 0 }
  /-- A read of `ACQUIRE` that takes the claim (44_control.md R201). -/
  | acquireTaken (hbusy : s.busy = false) :
    EventEffect s (.host (.read 0x0008 .word)) { s with busy := true, reply := .data 1 }
  /-- Any other read (20_memory.md R64). -/
  | read (off : Nat) (n : Width) (v : Word) (hoff : off ≠ 0x0008) :
    EventEffect s (.host (.read off n)) (s.setReply (.data v))
  /-- A write of `CMD` while a command is in flight (44_control.md R204). -/
  | issueAbandoned (w : Word) (hrun : s.run = true) :
    EventEffect s (.host (.write 0x0000 .word w)) { s with collisions := s.collisions + 1, reply := .written }
  /-- A write of `CMD` without a claim (44_control.md R204). -/
  | issueRefused (w : Word) (hrun : s.run = false) (hbusy : s.busy = false) :
    EventEffect s (.host (.write 0x0000 .word w)) { s with result := 0x08, done := true, reply := .written }
  /-- An accepted write of `CMD` (44_control.md R204). -/
  | issueAccepted (w : Word) (hrun : s.run = false) (hbusy : s.busy = true) :
    EventEffect s (.host (.write 0x0000 .word w))
      { s with cmdLatch := w, run := true, done := false, reply := .written }
  /-- A write of `RELEASE` (44_control.md R202). -/
  | released (v : Word) (hrun : s.run = false) :
    EventEffect s (.host (.write 0x000C .word v)) { s with busy := false, reply := .written }
  /-- A write of `CNT[i]` (10_state.md R42). -/
  | counterSet (i : SlotId) (v : Word) (hrun : s.run = false) (hi : slotExists s.cfg i = true) :
    EventEffect s (.host (.write (0x0100 + 4 * i.toNat) .word v))
      ((s.setCtr i { (s.slot i).ctr with counter := v }).setReply .written)
  /-- A write into `KBUF` or `IBUF` (10_state.md R44, R45). -/
  | bufferSet (off : Nat) (n : Width) (v : Word) (hrun : s.run = false) (hbuf : InHostBuffer s.cfg off n) :
    EventEffect s (.host (.write off n v))
      ((s.setMem (s.mem.writeBytes off (laneBytes v n))).setReply .written)

theorem hostRead_effect {s t : State} {off : Nat} {n : Width} (h : busAccess (.read off n) s = .next t) :
    EventEffect s (.host (.read off n)) t := by
  have hr := busAccess_admitted h
  obtain rfl : (readPlace off n s).2.setReply (.data (readPlace off n s).1) = t := by
    simpa [busAccess_read hr] using h
  obtain ⟨-, halign, hwidth, -, -⟩ := refuseWhy_eq_none.1 hr
  have hc := placeOf_covers s.cfg off
  by_cases hp : placeOf s.cfg off = .acquire
  · rw [hp] at hc hwidth
    obtain rfl : n = .word := by simpa [Place.anyWidth] using hwidth
    obtain ⟨hlo, hhi⟩ := hc
    obtain rfl : off = 0x0008 := by simp only [Width.bytes] at halign; omega
    have hread : readPlace 0x0008 .word s = acquireClaim s := by simp [readPlace, hp]
    rw [hread]
    rcases acquireClaim_cases s with ⟨hb, ha⟩ | ⟨hb, ha⟩ <;> rw [ha]
    · exact .acquireHeld hb
    · exact .acquireTaken hb
  · rw [readPlace_state hp]
    refine .read off n _ ?_
    rintro rfl
    exact hp (by simp [placeOf])

/-- An aligned access whose first byte stands in a buffer of whole words has all its bytes there. -/
theorem aligned_le {off lo size : Nat} {n : Width} (halign : off % n.bytes = 0) (hlo : lo % 4 = 0)
    (hsize : size % 4 = 0) (h : off < lo + size) : off + n.bytes ≤ lo + size := by
  cases n <;> simp only [Width.bytes] at * <;> omega

/-- An admitted write into a buffer has all its bytes there (20_memory.md R66, R70). -/
theorem inHostBuffer_of_admitted {s : State} {off : Nat} {n : Width} {v : Word}
    (hr : refusal s (.write off n v) = none) (hp : placeOf s.cfg off = .kbuf ∨ placeOf s.cfg off = .ibuf) :
    InHostBuffer s.cfg off n := by
  obtain ⟨-, halign, -, -, -⟩ := refuseWhy_eq_none.1 hr
  have hc := placeOf_covers s.cfg off
  rcases hp with hp | hp <;> rw [hp] at hc
  · exact .inl ⟨hc.1, aligned_le (lo := kbufBase) (size := kbufSize) halign rfl rfl hc.2⟩
  · exact .inr ⟨hc.1, aligned_le (lo := ibufBase) halign rfl s.cfg.ibufSize_mul hc.2⟩

theorem hostWrite_effect {s t : State} {off : Nat} {n : Width} {v : Word}
    (h : busAccess (.write off n v) s = .next t) : EventEffect s (.host (.write off n v)) t := by
  have hr := busAccess_admitted h
  obtain rfl : (writePlace off n v s).setReply .written = t := by simpa [busAccess_write hr] using h
  obtain ⟨-, halign, hwidth, hdir, hwhile⟩ := refuseWhy_eq_none.1 hr
  have hidle : (placeOf s.cfg off).whileRunning = false → s.run = false := fun hw =>
    Bool.eq_false_iff.2 fun hrun => by simp [hwhile hrun] at hw
  have hword : (placeOf s.cfg off).anyWidth = false → n = .word ∧ off % 4 = 0 := fun hw => by
    obtain rfl : n = .word := by simpa [hw] using hwidth
    exact ⟨rfl, halign⟩
  have hc := placeOf_covers s.cfg off
  unfold writePlace
  cases hp : placeOf s.cfg off with
  | cmd =>
    rw [hp] at hc hword
    obtain ⟨rfl, ha⟩ := hword rfl
    obtain rfl : off = 0x0000 := by simp only [Place.Covers] at hc; omega
    rcases issue_cases v s with ⟨hrun, hi⟩ | ⟨hrun, hb, hi⟩ | ⟨hrun, hb, hi⟩ <;> simp only [hi]
    · exact .issueAbandoned v hrun
    · exact .issueRefused v hrun hb
    · exact .issueAccepted v hrun hb
  | release =>
    rw [hp] at hc hword hidle
    obtain ⟨rfl, ha⟩ := hword rfl
    obtain rfl : off = 0x000C := by simp only [Place.Covers] at hc; omega
    exact .released v (hidle rfl)
  | cnt i =>
    rw [hp] at hword hidle
    obtain ⟨rfl, ha⟩ := hword rfl
    obtain ⟨rfl, hi⟩ := placeOf_cnt hp ha
    exact .counterSet i v (hidle rfl) hi
  | kbuf =>
    rw [hp] at hidle
    exact .bufferSet off n v (hidle rfl) (inHostBuffer_of_admitted hr (.inl hp))
  | ibuf =>
    rw [hp] at hidle
    exact .bufferSet off n v (hidle rfl) (inHostBuffer_of_admitted hr (.inr hp))
  | _ => simp [hp, Place.writable] at hdir

/-- Every event that is no fault has one of the effects. -/
theorem handleEvent_effect {e : Event} {s t : State} (h : handleEvent e s = .next t) : EventEffect s e t := by
  cases e with
  | reset =>
    obtain rfl : resetBlock s = t := by simpa [handleEvent] using h
    exact .reset
  | engine =>
    change engineTurn s = .next t at h
    rcases engineTurn_cases s with ⟨hr, he⟩ | ⟨hr, i, hd, he⟩ | ⟨hr, err, hd, he⟩
    · obtain rfl : s = t := by simpa [he] using h
      exact .idle hr
    · obtain rfl : performed i s = t := by simpa [he, exec_eq] using h
      exact .command hr i hd
    · obtain rfl : checkFailed 0x05 s = t := by simpa [he] using h
      exact .illegal hr err hd
  | host a =>
    cases a with
    | read off n => exact hostRead_effect h
    | write off n v => exact hostWrite_effect h

/-- Every step is one event on the state without it, the engine's turn when none waits. -/
theorem step_effect {s t : State} (h : step s = .next t) : ∃ e q, EventEffect (s.setInbox q) e t := by
  rcases step_cases s with ⟨hi, hs⟩ | ⟨e, rest, -, hs⟩
  · refine ⟨.engine, [], handleEvent_effect ?_⟩
    rw [show s.setInbox [] = s by simp [State.setInbox, ← hi]]
    exact hs.symm.trans h
  · exact ⟨e, rest, handleEvent_effect (hs.symm.trans h)⟩

/-- A predicate that does not look at the events to come and that every event keeps is kept by every step. -/
theorem step_keeps {P : State → Prop} (hinbox : ∀ s q, P s → P (s.setInbox q))
    (hevent : ∀ s e t, EventEffect s e t → P s → P t) {s t : State} (hs : P s) (h : step s = .next t) : P t := by
  obtain ⟨e, q, he⟩ := step_effect h
  exact hevent _ e t he (hinbox s q hs)

end Sys2Proof.Machine

/-! ## What one command does, said once -/

namespace Sys2Proof.Machine

/-! ### Result codes and failed checks -/

@[simp] theorem code_oracleFailure (e : OracleError) : (CommandResult.oracleFailure e).code = oracleCode e := by
  cases e <;> rfl

theorem code_oracleFailure_ne_ok (e : OracleError) : (CommandResult.oracleFailure e).code ≠ 0x00 := by
  cases e <;> decide

theorem code_oracleFailure_ne_sequenceFailure (e : OracleError) :
    (CommandResult.oracleFailure e).code ≠ 0x06 := by
  cases e <;> decide

@[simp] theorem isOracleCode_oracleCode (e : OracleError) : isOracleCode (oracleCode e) = true := by cases e <;> rfl

@[simp] theorem checkFailed_result (code : Byte) (s : State) : (checkFailed code s).result = code := rfl

/-! ### The invariant of a CmacContext through the engine's operations -/

theorem macInv_reset : MacInv CmacContext.reset := ⟨by decide, by decide, fun _ => ⟨rfl, rfl⟩⟩

theorem macInv_lostContext (n : Nat) : MacInv (lostContext n) :=
  ⟨by simp [lostContext], by simp [lostContext], fun _ => ⟨rfl, rfl⟩⟩

theorem macInv_macInitialized (c : CmacContext) (k : Block) : MacInv (macInitialized c k) :=
  ⟨by simp [macInitialized], by simp [macInitialized], by simp [macInitialized]⟩

theorem macInv_rearm (c : CmacContext) : MacInv c.rearm :=
  ⟨by simp [CmacContext.rearm], by simp [CmacContext.rearm], by simp [CmacContext.rearm]⟩

theorem macInv_finished {c : CmacContext} (h : MacInv c) : MacInv { c with phase := .finished } :=
  ⟨h.1, by simp, by simp⟩

theorem macRoomMade_phase (c : CmacContext) : (macRoomMade c).phase = c.phase := by
  unfold macRoomMade
  split <;> rfl

/-- After room has been made at most 15 bytes are buffered. -/
theorem macRoomMade_partialLength {c : CmacContext} (h : c.partialLength.toNat ≤ 16) :
    (macRoomMade c).partialLength.toNat ≤ 15 := by
  unfold macRoomMade
  split
  · simp
  · next hne =>
    have : c.partialLength.toNat ≠ 16 := fun h16 => hne (BitVec.eq_of_toNat_eq h16)
    omega

/-- A byte buffered where at most 15 are leaves between 1 and 16. -/
theorem push_partialLength {c : CmacContext} (h : c.partialLength.toNat ≤ 15) (b : Byte) :
    (c.push b).partialLength.toNat = c.partialLength.toNat + 1 := by
  have h1 : (1 : BitVec 5).toNat = 1 := rfl
  simp only [CmacContext.push, BitVec.toNat_add, h1]
  omega

/-- One byte keeps the invariant of a context in phase `Ready`: it leaves the buffer neither empty nor overfull. -/
theorem macInv_roomMade_push {c : CmacContext} (h : MacInv c) (hp : c.phase = .ready) (b : Byte) :
    MacInv ((macRoomMade c).push b) := by
  have hroom := macRoomMade_partialLength h.1
  have hlen := push_partialLength hroom b
  have hphase : ((macRoomMade c).push b).phase = .ready := (macRoomMade_phase c).trans hp
  exact ⟨by omega, fun _ _ => by omega, by simp [hphase]⟩

theorem macInv_macUpdated : ∀ (bs : List Byte) {c : CmacContext}, MacInv c → c.phase = .ready →
    MacInv (macUpdated c bs)
  | [], _, h, _ => h
  | b :: bs, c, h, hp =>
    macInv_macUpdated bs (macInv_roomMade_push h hp b) ((macRoomMade_phase c).trans hp)

theorem expandStarted_ready (i : Nat) (c : CmacContext) (prk : Block) :
    MacInv (expandStarted i c prk) ∧ (expandStarted i c prk).phase = .ready := by
  unfold expandStarted
  split
  · exact ⟨macInv_macInitialized c prk, rfl⟩
  · exact ⟨macInv_rearm c, rfl⟩

theorem macInv_expandStepDone (i : Nat) (c : CmacContext) (prk : Block) (m : List Byte) :
    MacInv (expandStepDone i c prk m).2 :=
  macInv_finished (macInv_macUpdated m (expandStarted_ready i c prk).1 (expandStarted_ready i c prk).2)

/-- The iterations of `KDF.EXPAND`, however many, keep the invariant of the private context. -/
theorem macInv_expandDone (prk : Block) (info : List Byte) : ∀ (n i : Nat) (before : List Byte) {c : CmacContext},
    MacInv c → MacInv (expandDone prk info n i before c).2
  | 0, _, _, _, h => h
  | n + 1, i, before, c, _ =>
    macInv_expandDone prk info n (i + 1) _ (macInv_expandStepDone i c prk (expandMessage before info i))

/-! ### The outcomes of a command -/

/-- The slot whose AesCtrContext a command works on. -/
def ctrSlotOf : Instr → Option SlotId
  | .ctrInit c => some c
  | .ctrCrypt c _ => some c
  | _ => none

/-- The slot whose CmacContext a command works on. -/
def macSlotOf : Instr → Option SlotId
  | .cmacInit c => some c
  | .cmacUpdate c _ => some c
  | .cmacFinish c => some c
  | _ => none

/-- The CMAC commands that reach the oracle on slot `c`: all but `CMAC.INIT` need phase `Ready` (42_cmac.md R154,
R156, R158). -/
def RunsMacOn (s : State) (c : SlotId) (i : Instr) : Prop :=
  i = .cmacInit c ∨ ((s.slot c).mac.phase = .ready ∧ ((∃ n, i = .cmacUpdate c n) ∨ i = .cmacFinish c))

/-- Everything a command's perform step can do, one constructor for each way it ends. -/
inductive CommandOutcome (s : State) : Instr → State → Prop
  /-- A check before the oracle failed (60_exceptions.md R262). -/
  | failedCheck (i : Instr) (code : Byte) (hok : code ≠ 0x00) (horacle : isOracleCode code = false) :
    CommandOutcome s i (checkFailed code s)
  /-- `CTR.INIT` (41_ctr.md R132). -/
  | ctrLoaded (c : SlotId) : CommandOutcome s (.ctrInit c) (ctrLoad c s)
  /-- `CTR.CRYPT` did its work (41_ctr.md R133). -/
  | ctrApplied (c : SlotId) (n : BitVec 12) (ks : Block) (o : OracleInput) :
    CommandOutcome s (.ctrCrypt c n) (endCommand .ok (storeResult (ctrOutput (dataOperand s n.toNat) ks)
      ((s.setCtr c { (s.slot c).ctr with keystream := ks }).setOracle o)))
  /-- `CTR.CRYPT` failed in the oracle (60_exceptions.md R262). -/
  | ctrFailed (c : SlotId) (n : BitVec 12) (e : OracleError) (o : OracleInput) :
    CommandOutcome s (.ctrCrypt c n) (endCommand (.oracleFailure e) (s.setOracle o))
  /-- `CMAC.INIT` did its work (42_cmac.md R154). -/
  | macStarted (c : SlotId) (o : OracleInput) :
    CommandOutcome s (.cmacInit c)
      (endCommand .ok ((s.setMac c (macInitialized (s.slot c).mac (keyOperand s))).setOracle o))
  /-- `CMAC.UPDATE` did its work (42_cmac.md R156). -/
  | macFed (c : SlotId) (n : BitVec 12) (o : OracleInput) (hphase : (s.slot c).mac.phase = .ready) :
    CommandOutcome s (.cmacUpdate c n)
      (endCommand .ok ((s.setMac c (macUpdated (s.slot c).mac (dataOperand s n.toNat))).setOracle o))
  /-- `CMAC.FINISH` did its work (42_cmac.md R158). -/
  | macDone (c : SlotId) (tag : Block) (o : OracleInput) (hphase : (s.slot c).mac.phase = .ready) :
    CommandOutcome s (.cmacFinish c)
      (endCommand .ok (storeResult tag.toList
        ((s.setMac c { (s.slot c).mac with phase := .finished }).setOracle o)))
  /-- A CMAC command on a slot failed in the oracle (60_exceptions.md R262). -/
  | macLost (i : Instr) (c : SlotId) (e : OracleError) (o : OracleInput) (hruns : RunsMacOn s c i) :
    CommandOutcome s i (endCommand (.oracleFailure e) ((s.loseMac c).setOracle o))
  /-- `CMAC.COMPUTE`, `KDF.EXTRACT` or `KDF.EXPAND` did its work (42_cmac.md R160, 43_ckdf.md R181, R183). -/
  | kctxDone (i : Instr) (bs : List Byte) (c : CmacContext) (o : OracleInput)
    (hctr : ctrSlotOf i = none) (hmac : macSlotOf i = none) (hlen : bs.length ≤ obufSize)
    (hinv : MacInv s.kctx → MacInv c) :
    CommandOutcome s i (endCommand .ok (storeResult bs ((s.setKctx c).setOracle o)))
  /-- One of these three failed in the oracle (60_exceptions.md R262). -/
  | kctxLost (i : Instr) (e : OracleError) (o : OracleInput) (hctr : ctrSlotOf i = none) (hmac : macSlotOf i = none) :
    CommandOutcome s i (endCommand (.oracleFailure e) (s.loseKctx.setOracle o))

/-- A command on a slot that does not exist is refused; on one that does it ends as its rule says. -/
theorem onSlot_outcome {i : Instr} {c : SlotId} {s : State} {f : State → State} (h : CommandOutcome s i (f s)) :
    CommandOutcome s i (onSlot c s f) := by
  rcases onSlot_cases c s f with ⟨-, he⟩ | ⟨-, he⟩ <;> rw [he]
  · exact .failedCheck i 0x05 (by decide) rfl
  · exact h

theorem macToOutput_outcome {i : Instr} (n : Nat) (s : State) (hctr : ctrSlotOf i = none) (hmac : macSlotOf i = none) :
    CommandOutcome s i (macToOutput n s) := by
  rcases macToOutput_cases n s with ⟨-, h⟩ | ⟨-, -, c, hc, h⟩ | ⟨-, k, e, -, -, h⟩ <;> rw [h]
  · exact .failedCheck i 0x07 (by decide) rfl
  · refine .kctxDone i _ _ _ hctr hmac (by simp [obufSize]) fun _ => ?_
    rw [hc]
    exact macInv_finished (macInv_macUpdated _ (macInv_macInitialized _ _) rfl)
  · exact .kctxLost i e _ hctr hmac

/-- Every perform step of a command has one of the outcomes. -/
theorem performed_outcome (i : Instr) (s : State) : CommandOutcome s i (performed i s) := by
  cases i with
  | ctrInit c => exact onSlot_outcome (.ctrLoaded c)
  | ctrCrypt c n =>
    apply onSlot_outcome
    rcases ctrApply_cases c n.toNat s with ⟨-, h⟩ | ⟨-, -, h⟩ | ⟨-, -, e, -, h⟩ | ⟨-, -, -, ks, -, h⟩ <;> rw [h]
    · exact .failedCheck _ 0x03 (by decide) rfl
    · exact .failedCheck _ 0x06 (by decide) rfl
    · exact .ctrFailed c n e _
    · exact .ctrApplied c n ks _
  | cmacInit c =>
    apply onSlot_outcome
    rcases macSlotInit_cases c s with ⟨-, h⟩ | ⟨e, -, h⟩ <;> rw [h]
    · exact .macStarted c _
    · exact .macLost _ c e _ (.inl rfl)
  | cmacUpdate c n =>
    apply onSlot_outcome
    rcases macSlotUpdate_cases c n.toNat s with
      ⟨-, h⟩ | ⟨-, -, h⟩ | ⟨-, hp, -, h⟩ | ⟨-, hp, k, e, -, -, h⟩ <;> rw [h]
    · exact .failedCheck _ 0x07 (by decide) rfl
    · exact .failedCheck _ 0x06 (by decide) rfl
    · exact .macFed c n _ hp
    · exact .macLost _ c e _ (.inr ⟨hp, .inl ⟨n, rfl⟩⟩)
  | cmacFinish c =>
    apply onSlot_outcome
    rcases macSlotFinish_cases c s with ⟨-, h⟩ | ⟨hp, -, h⟩ | ⟨hp, e, -, h⟩ <;> rw [h]
    · exact .failedCheck _ 0x06 (by decide) rfl
    · exact .macDone c _ _ hp
    · exact .macLost _ c e _ (.inr ⟨hp, .inr rfl⟩)
  | cmacCompute n => exact macToOutput_outcome n.toNat s rfl rfl
  | kdfExtract n => exact macToOutput_outcome n.toNat s rfl rfl
  | kdfExpand n l =>
    change CommandOutcome s _ (kdfExpandToOutput n.toNat l.toNat s)
    rcases kdfExpandToOutput_cases n.toNat l.toNat s with
      ⟨-, h⟩ | ⟨-, -, h⟩ | ⟨-, hl, -, h⟩ | ⟨-, -, k, e, -, -, h⟩ <;> rw [h]
    · exact .failedCheck _ 0x07 (by decide) rfl
    · exact .failedCheck _ 0x04 (by decide) rfl
    · exact .kctxDone _ _ _ _ rfl rfl ((List.length_take_le _ _).trans hl) (macInv_expandDone _ _ _ _ _)
    · exact .kctxLost _ e _ rfl rfl

/-- What `exec` answers has one of the outcomes. -/
theorem exec_outcome {i : Instr} {s t : State} (h : exec i s = .next t) : CommandOutcome s i t := by
  obtain rfl : performed i s = t := by simpa [exec_eq] using h
  exact performed_outcome i s

end Sys2Proof.Machine

/-! ## Invariants of the state, and what commands and events leave alone -/

namespace Sys2Proof.Machine

/-! ### The flags (10_state.md R48) -/

theorem eventEffect_keeps_flagsInv {s t : State} {e : Event} (h : EventEffect s e t) (hs : FlagsInv s) :
    FlagsInv t := by
  have ended : ∀ {u : State}, u.run = false → FlagsInv u := fun hu hrun => by simp [hu] at hrun
  cases h with
  | reset => exact ended rfl
  | idle _ => exact hs
  | illegal _ _ _ => exact ended rfl
  | command _ i _ =>
    obtain ⟨r, x, hx, -⟩ := performed_shape i s
    exact ended (by rw [hx, endCommand_run])
  | acquireHeld _ => exact hs
  | acquireTaken _ => exact fun hrun => ⟨rfl, (hs hrun).2⟩
  | read _ _ _ _ => exact hs
  | issueAbandoned _ _ => exact hs
  | issueRefused _ hrun _ => exact ended hrun
  | issueAccepted _ _ hbusy => exact fun _ => ⟨hbusy, rfl⟩
  | released _ hrun => exact ended hrun
  | counterSet _ _ _ _ => exact hs
  | bufferSet _ _ _ _ _ => exact hs

/-- Settles O48: the invariant of the flags is kept by every event, case by case. -/
theorem stepKeepsFlagsInvariant : Obligations.StepKeepsFlagsInvariant := by
  intro s t hs h
  exact step_keeps (fun _ _ hs => hs) (fun _ _ _ he => eventEffect_keeps_flagsInv he) hs h

/-! ### The CmacContexts (10_state.md R27) -/

/-- Replacing one slot's CmacContext by one that meets the invariant keeps the invariant of all slots. -/
theorem macInv_setMac {s : State} {c : CmacContext} (hs : ∀ i : SlotId, MacInv (s.slot i).mac) (j : SlotId)
    (hc : MacInv c) (i : SlotId) : MacInv ((s.setMac j c).slot i).mac := by
  rw [State.slot_setMac]
  split
  · exact hc
  · exact hs i

/-- Replacing one slot's AesCtrContext touches no CmacContext. -/
theorem mac_setCtr (s : State) (j i : SlotId) (c : AesCtrContext) :
    ((s.setCtr j c).slot i).mac = (s.slot i).mac := by
  rw [State.slot_setCtr]
  split
  · next h => rw [h]
  · rfl

/-- Replacing one slot's CmacContext touches no AesCtrContext. -/
theorem ctr_setMac (s : State) (j i : SlotId) (c : CmacContext) :
    ((s.setMac j c).slot i).ctr = (s.slot i).ctr := by
  rw [State.slot_setMac]
  split
  · next h => rw [h]
  · rfl

theorem commandOutcome_keeps_macsInv {s t : State} {i : Instr} (h : CommandOutcome s i t) (hs : MacsInv s) :
    MacsInv t := by
  obtain ⟨hslots, hkctx⟩ := hs
  cases h with
  | failedCheck _ _ _ _ => exact ⟨hslots, hkctx⟩
  | ctrLoaded c => exact ⟨fun j => (mac_setCtr s c j _).symm ▸ hslots j, hkctx⟩
  | ctrApplied c _ _ _ => exact ⟨fun j => (mac_setCtr s c j _).symm ▸ hslots j, hkctx⟩
  | ctrFailed _ _ _ _ => exact ⟨hslots, hkctx⟩
  | macStarted c _ => exact ⟨macInv_setMac hslots c (macInv_macInitialized _ _), hkctx⟩
  | macFed c n _ hp => exact ⟨macInv_setMac hslots c (macInv_macUpdated _ (hslots c) hp), hkctx⟩
  | macDone c _ _ _ => exact ⟨macInv_setMac hslots c (macInv_finished (hslots c)), hkctx⟩
  | macLost _ c _ _ _ => exact ⟨macInv_setMac hslots c (macInv_lostContext _), hkctx⟩
  | kctxDone _ _ _ _ _ _ _ hinv => exact ⟨hslots, hinv hkctx⟩
  | kctxLost _ _ _ _ _ => exact ⟨hslots, macInv_lostContext _⟩

theorem slot_resetBlock (s : State) (i : SlotId) : (resetBlock s).slot i = Slot.reset := by
  simp [State.slot, resetBlock, State.resetWith]

theorem eventEffect_keeps_macsInv {s t : State} {e : Event} (h : EventEffect s e t) (hs : MacsInv s) :
    MacsInv t := by
  cases h with
  | reset => exact ⟨fun i => (slot_resetBlock s i).symm ▸ macInv_reset, macInv_reset⟩
  | command _ i _ => exact commandOutcome_keeps_macsInv (performed_outcome i s) hs
  | counterSet i _ _ _ => exact ⟨fun j => (mac_setCtr s i j _).symm ▸ hs.1 j, hs.2⟩
  | _ => exact hs

/-- Settles O49: the one thing to see is that a byte is buffered only after room was made for it, so that the buffer
is neither overfull nor, after a fold, empty (`macInv_roomMade_push`). -/
theorem stepKeepsMacInvariant : Obligations.StepKeepsMacInvariant := by
  intro s t hs h
  exact step_keeps (fun _ _ hs => hs) (fun _ _ _ he => eventEffect_keeps_macsInv he) hs h

/-! ### The window's bytes -/

/-- What a command does to the window: nothing, or, when it ends with `OK`, a result of at most the size of `OBUF`
at its start (10_state.md R32). -/
theorem commandOutcome_mem {s t : State} {i : Instr} (h : CommandOutcome s i t) :
    t.mem = s.mem ∨
      (t.result = 0x00 ∧ ∃ bs, bs.length ≤ obufSize ∧ t.mem = s.mem.writeBytes obufBase bs) := by
  cases h with
  | ctrApplied c n ks o =>
    refine .inr ⟨rfl, _, ?_, rfl⟩
    simp only [ctrOutput, List.length_zipWith, Vector.length_toList, obufSize]
    omega
  | macDone c tag o _ => exact .inr ⟨rfl, _, by simp [obufSize], rfl⟩
  | kctxDone _ bs _ _ _ _ hlen _ => exact .inr ⟨rfl, bs, hlen, rfl⟩
  | _ => exact .inl rfl

/-- A byte string written inside a buffer keeps the form of the storage. -/
theorem memInv_writeBytes {s t : State} {lo : Nat} {bs : List Byte} (hs : MemInv s) (hcfg : t.cfg = s.cfg)
    (hmem : t.mem = s.mem.writeBytes lo bs) (hin : ∀ a, lo ≤ a → a < lo + bs.length → inBuffer s.cfg a) :
    MemInv t := by
  obtain ⟨hwf, hcells⟩ := hs
  refine ⟨hmem ▸ Memory.wf_writeBytes bs lo hwf, fun c hc => ?_⟩
  rw [hmem] at hc
  rw [hcfg]
  rcases Memory.mem_writeBytes hc with ⟨hlo, hhi⟩ | hc
  · exact hin c.1 hlo hhi
  · exact hcells c hc

theorem commandOutcome_keeps_memInv {s t : State} {i : Instr} (h : CommandOutcome s i t) (hcfg : t.cfg = s.cfg)
    (hs : MemInv s) : MemInv t := by
  rcases commandOutcome_mem h with hmem | ⟨-, bs, hlen, hmem⟩
  · unfold MemInv
    rw [hmem, hcfg]
    exact hs
  · exact memInv_writeBytes hs hcfg hmem fun a hlo hhi => .inr (.inr ⟨hlo, by omega⟩)

theorem performed_cfg (i : Instr) (s : State) : (performed i s).cfg = s.cfg := by
  obtain ⟨r, x, hx, hframe⟩ := performed_shape i s
  rw [hx, endCommand_cfg, hframe]

@[simp] theorem length_laneBytes (v : Word) (n : Width) : (laneBytes v n).length = n.bytes := by cases n <;> rfl

theorem eventEffect_keeps_memInv {s t : State} {e : Event} (h : EventEffect s e t) (hs : MemInv s) :
    MemInv t := by
  cases h with
  | reset => exact ⟨rfl, fun _ hc => nomatch hc⟩
  | command _ i _ => exact commandOutcome_keeps_memInv (performed_outcome i s) (performed_cfg i s) hs
  | bufferSet off n v _ hbuf =>
    refine memInv_writeBytes hs rfl rfl fun a hlo hhi => ?_
    rw [length_laneBytes] at hhi
    rcases hbuf with ⟨hb, he⟩ | ⟨hb, he⟩
    · exact .inl ⟨by omega, by omega⟩
    · exact .inr (.inl ⟨by omega, by omega⟩)
  | _ => exact hs

/-- Settles O50: every write, the host's and the command's, lies inside one buffer. -/
theorem stepKeepsMemoryForm : Obligations.StepKeepsMemoryForm := by
  intro s t hs h
  exact step_keeps (fun _ _ hs => hs) (fun _ _ _ he => eventEffect_keeps_memInv he) hs h

/-- Settles O21: a command writes at most a result, and that to `OBUF` and only when it ends with `OK`. -/
theorem commandsAndBuffers : Obligations.CommandsAndBuffers := by
  intro i s t h
  rcases commandOutcome_mem (exec_outcome h) with hmem | ⟨hok, bs, hlen, hmem⟩
  · simp [SameBytes, hmem]
  · refine ⟨fun a ha => ?_, fun hne => absurd hok hne⟩
    rw [hmem]
    apply Memory.read_writeBytes_outside
    simp only [obufBase, obufSize] at *
    omega

/-! ### The halves of the slots (10_state.md R23) -/

/-- A command changes no AesCtrContext but that of the slot it names, and only if it is a CTR command. -/
theorem commandOutcome_ctr {s t : State} {i : Instr} (h : CommandOutcome s i t) {j : SlotId}
    (hj : ctrSlotOf i ≠ some j) : (t.slot j).ctr = (s.slot j).ctr := by
  have other : ∀ {c : SlotId} (x : AesCtrContext), some c ≠ some j → ((s.setCtr c x).slot j).ctr = (s.slot j).ctr := by
    intro c x hc
    rw [State.slot_setCtr, if_neg fun h => hc (congrArg some h)]
  cases h with
  | ctrLoaded c => exact other _ hj
  | ctrApplied c _ _ _ => exact other _ hj
  | macStarted c _ => exact ctr_setMac s c j _
  | macFed c _ _ _ => exact ctr_setMac s c j _
  | macDone c _ _ _ => exact ctr_setMac s c j _
  | macLost _ c _ _ _ => exact ctr_setMac s c j _
  | _ => rfl

theorem RunsMacOn.macSlotOf {s : State} {c : SlotId} {i : Instr} (h : RunsMacOn s c i) : macSlotOf i = some c := by
  rcases h with rfl | ⟨-, ⟨n, rfl⟩ | rfl⟩ <;> rfl

/-- A command changes no CmacContext but that of the slot it names, and only if it is a CMAC command. -/
theorem commandOutcome_mac {s t : State} {i : Instr} (h : CommandOutcome s i t) {j : SlotId}
    (hj : macSlotOf i ≠ some j) : (t.slot j).mac = (s.slot j).mac := by
  have other : ∀ {c : SlotId} (x : CmacContext), some c ≠ some j → ((s.setMac c x).slot j).mac = (s.slot j).mac := by
    intro c x hc
    rw [State.slot_setMac, if_neg fun h => hc (congrArg some h)]
  cases h with
  | ctrLoaded c => exact mac_setCtr s c j _
  | ctrApplied c _ _ _ => exact mac_setCtr s c j _
  | macStarted c _ => exact other _ hj
  | macFed c _ _ _ => exact other _ hj
  | macDone c _ _ _ => exact other _ hj
  | macLost _ c _ _ hruns => exact other _ (hruns.macSlotOf ▸ hj)
  | _ => rfl

/-- A slot a command does not name stays as it was. -/
theorem commandOutcome_slot {s t : State} {i : Instr} (h : CommandOutcome s i t) {j : SlotId}
    (hctr : ctrSlotOf i ≠ some j) (hmac : macSlotOf i ≠ some j) : t.slot j = s.slot j := by
  have hc := commandOutcome_ctr h hctr
  have hm := commandOutcome_mac h hmac
  revert hc hm
  cases t.slot j
  cases s.slot j
  rintro rfl rfl
  rfl

/-- Settles O23: each command names one half of one slot, or none. -/
theorem slotHalvesIndependent : Obligations.SlotHalvesIndependent := by
  intro i s t h
  have ho := exec_outcome h
  have onCtr : ∀ c, ctrSlotOf i = some c → macSlotOf i = none →
      (t.slot c).mac = (s.slot c).mac ∧ OtherSlots s t c := fun c hc hm =>
    ⟨commandOutcome_mac ho (by simp [hm]),
      fun j hj => commandOutcome_slot ho (by simpa [hc] using hj.symm) (by simp [hm])⟩
  have onMac : ∀ c, macSlotOf i = some c → ctrSlotOf i = none →
      (t.slot c).ctr = (s.slot c).ctr ∧ OtherSlots s t c := fun c hm hc =>
    ⟨commandOutcome_ctr ho (by simp [hc]),
      fun j hj => commandOutcome_slot ho (by simp [hc]) (by simpa [hm] using hj.symm)⟩
  have onNone : ctrSlotOf i = none → macSlotOf i = none → SameSlots s t := fun hc hm j =>
    commandOutcome_slot ho (by simp [hc]) (by simp [hm])
  cases i with
  | ctrInit c => exact onCtr c rfl rfl
  | ctrCrypt c _ => exact onCtr c rfl rfl
  | cmacInit c => exact onMac c rfl rfl
  | cmacUpdate c _ => exact onMac c rfl rfl
  | cmacFinish c => exact onMac c rfl rfl
  | cmacCompute _ => exact onNone rfl rfl
  | kdfExtract _ => exact onNone rfl rfl
  | kdfExpand _ _ => exact onNone rfl rfl

/-! ### The slot counters (10_state.md R24, R25) -/

/-- A command leaves a slot's counter alone, but for `CTR.INIT` on the slot, which zeroes it (41_ctr.md R132). -/
theorem commandOutcome_counter {s t : State} {i : Instr} (h : CommandOutcome s i t) (j : SlotId) :
    (t.slot j).ctr.counter = (s.slot j).ctr.counter ∨ (i = .ctrInit j ∧ (t.slot j).ctr.counter = 0) := by
  by_cases hj : ctrSlotOf i = some j
  · cases h with
    | ctrLoaded c =>
      obtain rfl : c = j := Option.some.inj hj
      exact .inr ⟨rfl, by simp [ctrLoad]⟩
    | ctrApplied c _ _ _ =>
      obtain rfl : c = j := Option.some.inj hj
      exact .inl (by simp)
    | macStarted _ _ => exact nomatch hj
    | macFed _ _ _ _ => exact nomatch hj
    | macDone _ _ _ _ => exact nomatch hj
    | macLost _ c _ _ _ => exact .inl (congrArg _ (ctr_setMac s c j _))
    | _ => exact .inl rfl
  · exact .inl (congrArg _ (commandOutcome_ctr h hj))

/-- Settles O24: case by case over the effects of an event. -/
theorem counterChangedOnlyBy : Obligations.CounterChangedOnlyBy := by
  intro e s t j h hne
  cases handleEvent_effect h with
  | reset => exact .inl rfl
  | command hrun i hd =>
    rcases commandOutcome_counter (performed_outcome i s) j with hsame | ⟨rfl, hzero⟩
    · exact absurd hsame hne
    · exact .inr (.inl ⟨rfl, hrun, hd, hzero⟩)
  | counterSet i v _ _ =>
    obtain rfl : i = j := by
      by_contra hij
      exact hne (by simp [hij])
    exact .inr (.inr ⟨v, rfl, by simp⟩)
  | _ => exact absurd rfl hne

end Sys2Proof.Machine

/-! ## The lifecycle of a CmacContext, the claim, the event counters, the status registers, reset -/

namespace Sys2Proof.Machine

/-! ### The lifecycle of a CmacContext (10_state.md R28) -/

/-- The phase a CMAC command on a slot leaves when it ends with `OK`. -/
def doneMacPhase : Instr → MacPhase
  | .cmacFinish _ => .finished
  | _ => .ready

theorem RunsMacOn.ready {s : State} {c : SlotId} {i : Instr} (h : RunsMacOn s c i) (hi : i ≠ .cmacInit c) :
    (s.slot c).mac.phase = .ready := by
  rcases h with h | ⟨hp, -⟩
  · exact absurd h hi
  · exact hp

/-- A CMAC command on a slot that ends with `OK` found the slot as it needs it and leaves the phase of its row. -/
theorem commandOutcome_phase_ok {s t : State} {i : Instr} {j : SlotId} (h : CommandOutcome s i t)
    (hj : macSlotOf i = some j) (hok : t.result = 0x00) :
    RunsMacOn s j i ∧ (t.slot j).mac.phase = doneMacPhase i := by
  cases h with
  | failedCheck _ code hne _ => exact absurd hok hne
  | ctrLoaded _ => exact nomatch hj
  | ctrApplied _ _ _ _ => exact nomatch hj
  | ctrFailed _ _ e _ => exact nomatch hj
  | macStarted c _ =>
    obtain rfl : c = j := Option.some.inj hj
    exact ⟨.inl rfl, by simp [macInitialized, doneMacPhase]⟩
  | macFed c n _ hp =>
    obtain rfl : c = j := Option.some.inj hj
    exact ⟨.inr ⟨hp, .inl ⟨n, rfl⟩⟩, by simpa [doneMacPhase, macUpdated_keys] using hp⟩
  | macDone c _ _ hp =>
    obtain rfl : c = j := Option.some.inj hj
    exact ⟨.inr ⟨hp, .inr rfl⟩, by simp [doneMacPhase]⟩
  | macLost _ _ e _ _ => exact absurd hok (code_oracleFailure_ne_ok e)
  | kctxDone _ _ _ _ _ hmac _ _ => simp [hmac] at hj
  | kctxLost _ e _ _ hmac => simp [hmac] at hj

/-- A CMAC command on a slot that fails in the oracle found the slot as it needs it and leaves phase `Uninit`. -/
theorem commandOutcome_phase_oracleFailure {s t : State} {i : Instr} {j : SlotId} (h : CommandOutcome s i t)
    (hj : macSlotOf i = some j) (hfail : isOracleCode t.result = true) :
    RunsMacOn s j i ∧ (t.slot j).mac.phase = .uninit := by
  cases h with
  | failedCheck _ code _ hno => simp [hno] at hfail
  | ctrLoaded _ => exact nomatch hj
  | ctrApplied _ _ _ _ => exact nomatch hj
  | ctrFailed _ _ _ _ => exact nomatch hj
  | macStarted _ _ => exact nomatch hfail
  | macFed _ _ _ _ => exact nomatch hfail
  | macDone _ _ _ _ => exact nomatch hfail
  | macLost _ c _ _ hruns =>
    obtain rfl : c = j := Option.some.inj (hruns.macSlotOf.symm.trans hj)
    exact ⟨hruns, by simp [lostContext]⟩
  | kctxDone _ _ _ _ _ hmac _ _ => simp [hmac] at hj
  | kctxLost _ _ _ _ hmac => simp [hmac] at hj

/-- Only a check that fails ends with `SequenceFailure`, so no slot changes (60_exceptions.md R262). -/
theorem commandOutcome_sequenceFailure {s t : State} {i : Instr} (h : CommandOutcome s i t)
    (hseq : t.result = 0x06) : SameSlots s t := by
  cases h with
  | failedCheck _ _ _ _ => exact fun _ => rfl
  | ctrFailed _ _ e _ => exact absurd hseq (code_oracleFailure_ne_sequenceFailure e)
  | macLost _ _ e _ _ => exact absurd hseq (code_oracleFailure_ne_sequenceFailure e)
  | kctxLost _ e _ _ _ => exact absurd hseq (code_oracleFailure_ne_sequenceFailure e)
  | _ => exact nomatch hseq

/-- `CMAC.UPDATE` and `CMAC.FINISH` on an existing slot that is not `Ready` end with `SequenceFailure` and change
nothing else, the range check of `CMAC.UPDATE` passed. -/
theorem performed_notReady {s : State} {j : SlotId} (hp : (s.slot j).mac.phase ≠ .ready)
    (hj : slotExists s.cfg j = true) :
    (∀ n : BitVec 12, n.toNat ≤ s.cfg.ibufSize → performed (.cmacUpdate j n) s = checkFailed 0x06 s) ∧
      performed (.cmacFinish j) s = checkFailed 0x06 s := by
  constructor
  · intro n hn
    rw [performed, onSlot, if_pos hj]
    rcases macSlotUpdate_cases j n.toNat s with ⟨hlt, -⟩ | ⟨-, -, h⟩ | ⟨-, hr, -⟩ | ⟨-, hr, -⟩
    · omega
    · exact h
    · exact absurd hr hp
    · exact absurd hr hp
  · rw [performed, onSlot, if_pos hj]
    rcases macSlotFinish_cases j s with ⟨-, h⟩ | ⟨hr, -⟩ | ⟨hr, -⟩
    · exact h
    · exact absurd hr hp
    · exact absurd hr hp

/-- Only the three CMAC commands on a slot change its phase. -/
theorem commandOutcome_phase_changed {s t : State} {i : Instr} {j : SlotId} (h : CommandOutcome s i t)
    (hne : (t.slot j).mac.phase ≠ (s.slot j).mac.phase) :
    i = .cmacInit j ∨ (∃ n, i = .cmacUpdate j n) ∨ i = .cmacFinish j := by
  have hj : macSlotOf i = some j := by
    by_contra hj
    exact hne (congrArg _ (commandOutcome_mac h hj))
  cases i with
  | cmacInit c => exact .inl (congrArg _ (Option.some.inj hj))
  | cmacUpdate c n => exact .inr (.inl ⟨n, congrArg (Instr.cmacUpdate · n) (Option.some.inj hj)⟩)
  | cmacFinish c => exact .inr (.inr (congrArg _ (Option.some.inj hj)))
  | _ => exact nomatch hj

/-- Settles O25: the rows of R28, each by the lemma over the outcomes it is about. -/
theorem macLifecycle : Obligations.MacLifecycle := by
  intro i s t j h
  have ho := exec_outcome h
  have ok := @commandOutcome_phase_ok s t i j ho
  have lost := @commandOutcome_phase_oracleFailure s t i j ho
  have ht : performed i s = t := by simpa [exec_eq] using h
  refine ⟨?_, ?_, ?_, ?_, ?_, ?_, ?_, commandOutcome_sequenceFailure ho, commandOutcome_phase_changed ho⟩
  · rintro rfl hr
    exact (ok rfl hr).2
  · rintro rfl hr
    exact (lost rfl hr).2
  · rintro n rfl hr
    exact ⟨(ok rfl hr).1.ready nofun, (ok rfl hr).2⟩
  · rintro n rfl hr
    exact ⟨(lost rfl hr).1.ready nofun, (lost rfl hr).2⟩
  · rintro rfl hr
    exact ⟨(ok rfl hr).1.ready nofun, (ok rfl hr).2⟩
  · rintro rfl hr
    exact ⟨(lost rfl hr).1.ready nofun, (lost rfl hr).2⟩
  · intro hp hj
    obtain ⟨hupdate, hfinish⟩ := performed_notReady hp hj
    constructor
    · rintro n rfl hn
      exact ht ▸ hupdate n hn
    · rintro rfl
      exact ht ▸ hfinish

/-! ### The claim and the event counters -/

theorem performed_busy (i : Instr) (s : State) : (performed i s).busy = s.busy := by
  obtain ⟨r, x, hx, hframe⟩ := performed_shape i s
  rw [hx, endCommand_busy, hframe]

theorem performed_collisions (i : Instr) (s : State) : (performed i s).collisions = s.collisions := by
  obtain ⟨r, x, hx, hframe⟩ := performed_shape i s
  rw [hx, endCommand_collisions, hframe]

/-- Settles O38: case by case over the effects of an event. -/
theorem busyKeptUntilRelease : Obligations.BusyKeptUntilRelease := by
  intro e s t h hbusy hfree
  cases handleEvent_effect h with
  | reset => exact .inl rfl
  | command _ i _ => simp [performed_busy, hbusy] at hfree
  | released v hrun => exact .inr ⟨hrun, v, rfl⟩
  | acquireTaken _ => exact nomatch hfree
  | _ => exact absurd (hbusy.symm.trans hfree) nofun

/-- A result counts as an oracle failure exactly when its code is one of the two (10_state.md R41). -/
theorem countFail_cases (r : CommandResult) (n : Word) :
    (isOracleCode r.code = true ∧ r.countFail n = n + 1) ∨ (isOracleCode r.code = false ∧ r.countFail n = n) := by
  cases r with
  | oracleFailure e => exact .inl ⟨by simp, rfl⟩
  | _ => exact .inr ⟨rfl, rfl⟩

/-- The events that count as a collision: a read of `ACQUIRE` while the claim is held, a write of `CMD` while a
command is in flight (10_state.md R40). -/
def Collides (s : State) (e : Event) : Prop :=
  (e = .host (.read 0x0008 .word) ∧ s.busy = true) ∨ (s.run = true ∧ ∃ w, e = .host (.write 0x0000 .word w))

theorem eventEffect_collisions {s t : State} {e : Event} (h : EventEffect s e t) (hne : e ≠ .reset) :
    (t.collisions = s.collisions + 1 ∧ Collides s e) ∨ (t.collisions = s.collisions ∧ ¬ Collides s e) := by
  cases h with
  | reset => exact absurd rfl hne
  | idle _ => exact .inr ⟨rfl, by simp [Collides]⟩
  | illegal _ _ _ => exact .inr ⟨rfl, by simp [Collides]⟩
  | command _ i _ => exact .inr ⟨performed_collisions i s, by simp [Collides]⟩
  | acquireHeld hbusy => exact .inl ⟨rfl, .inl ⟨rfl, hbusy⟩⟩
  | acquireTaken hbusy => exact .inr ⟨rfl, by simp [Collides, hbusy]⟩
  | read _ _ _ hoff => exact .inr ⟨rfl, by simp [Collides, hoff]⟩
  | issueAbandoned w hrun => exact .inl ⟨rfl, .inr ⟨hrun, w, rfl⟩⟩
  | issueRefused _ hrun _ => exact .inr ⟨rfl, by simp [Collides, hrun]⟩
  | issueAccepted _ hrun _ => exact .inr ⟨rfl, by simp [Collides, hrun]⟩
  | released _ hrun => exact .inr ⟨rfl, by simp [Collides, hrun]⟩
  | counterSet _ _ hrun _ => exact .inr ⟨rfl, by simp [Collides, hrun]⟩
  | bufferSet _ _ _ hrun _ => exact .inr ⟨rfl, by simp [Collides, hrun]⟩

theorem eventEffect_oracleFails {s t : State} {e : Event} (h : EventEffect s e t) (hne : e ≠ .reset) :
    (t.oracleFails = s.oracleFails + 1 ∧ e = .engine ∧ s.run = true ∧ isOracleCode t.result = true) ∨
      (t.oracleFails = s.oracleFails ∧ ¬ (e = .engine ∧ s.run = true ∧ isOracleCode t.result = true)) := by
  cases h with
  | reset => exact absurd rfl hne
  | idle hrun => exact .inr ⟨rfl, by simp [hrun]⟩
  | illegal _ _ _ => exact .inr ⟨rfl, by simp [isOracleCode]⟩
  | command hrun i _ =>
    obtain ⟨r, x, hx, hframe⟩ := performed_shape i s
    have hx' : x.oracleFails = s.oracleFails := by rw [hframe]
    rw [hx, endCommand_oracleFails, endCommand_result, hx']
    rcases countFail_cases r s.oracleFails with ⟨hcode, hcount⟩ | ⟨hcode, hcount⟩
    · exact .inl ⟨hcount, rfl, hrun, hcode⟩
    · exact .inr ⟨hcount, by simp [hcode]⟩
  | _ => exact .inr ⟨rfl, by simp⟩

/-- A readable register answers a word read, while a command is in flight only if R72 admits it (20_memory.md R72). -/
theorem busAccess_readWord {s : State} {off : Nat} {p : Place} (hp : placeOf s.cfg off = p) (ha : off % 4 = 0)
    (hr : p.readable = true) (hw : s.run = true → p.whileRunning = true) :
    busAccess (.read off .word) s =
      .next ((readPlace off .word s).2.setReply (.data (readPlace off .word s).1)) := by
  subst hp
  refine busAccess_read (refuseWhy_eq_none.2 ⟨fun h => ?_, ha, .inr rfl, hr, hw⟩)
  simp [h, Place.readable] at hr

/-- The two event counters can be read in every state, and show their value (10_state.md R40, R41). -/
theorem eventCounters_readable (u : State) :
    handleEvent (.host (.read 0x0010 .word)) u = .next { u with reply := .data u.collisions } ∧
      handleEvent (.host (.read 0x0014 .word)) u = .next { u with reply := .data u.oracleFails } := by
  have hc : placeOf u.cfg 0x0010 = .collisions := by simp [placeOf]
  have ho : placeOf u.cfg 0x0014 = .oracleFails := by simp [placeOf]
  constructor
  · rw [handleEvent, busAccess_readWord hc rfl rfl fun _ => rfl]
    simp [readPlace, hc, State.setReply]
  · rw [handleEvent, busAccess_readWord ho rfl rfl fun _ => rfl]
    simp [readPlace, ho, State.setReply]

/-- Settles O39. -/
theorem eventCounters : Obligations.EventCounters := by
  intro e s t h hne
  exact ⟨eventEffect_collisions (handleEvent_effect h) hne, eventEffect_oracleFails (handleEvent_effect h) hne,
    eventCounters_readable⟩

/-! ### The status registers and the counter register -/

theorem getLsbD_bit (b : Bool) (k : Nat) : (bit b).getLsbD k = (decide (k = 0) && b) := by
  simp [bit]

/-- Bit by bit, `STATUS` (10_state.md R37). -/
theorem getLsbD_statusWord (s : State) (k : Nat) :
    (statusWord s).getLsbD k =
      if k = 0 then s.busy else if k = 1 then s.run else if k = 2 then s.done
      else if k < 8 then false else s.result.getLsbD (k - 8) := by
  simp only [statusWord, BitVec.getLsbD_append, getLsbD_bit]
  rcases k with _ | _ | _ | k
  case succ.succ.succ =>
    by_cases hk : k - 5 < 8
    · simp [hk, show k + 3 < 8 ↔ k < 5 by omega]
    · simp [hk, show ¬ k < 5 by omega, show ¬ k + 3 < 8 by omega, BitVec.getLsbD_of_ge s.result (k - 5) (by omega)]
  all_goals simp

/-- Bit by bit, `CTXSTAT[i]` (10_state.md R43). -/
theorem getLsbD_ctxstatWord (sl : Slot) (k : Nat) :
    (ctxstatWord sl).getLsbD k =
      if k = 0 then sl.ctr.init else if k < 3 then sl.mac.phase.code.getLsbD (k - 1)
      else if k = 3 then sl.mac.multiblock else sl.mac.partialLength.getLsbD (k - 4) := by
  simp only [ctxstatWord, BitVec.getLsbD_append, getLsbD_bit]
  rcases k with _ | _ | _ | _ | k
  case succ.succ.succ.succ =>
    by_cases hk : k < 5
    · simp [hk, show ¬ k + 4 < 3 by omega]
    · simp [hk, show ¬ k + 4 < 3 by omega, BitVec.getLsbD_of_ge sl.mac.partialLength k (by omega)]
  all_goals simp

/-- Settles O42. -/
theorem statusRead : Obligations.StatusRead := by
  intro s
  have hp : placeOf s.cfg 0x0004 = .status := by simp [placeOf]
  have hread : busAccess (.read 0x0004 .word) s = .next { s with reply := .data (statusWord s) } := by
    rw [busAccess_readWord hp rfl rfl fun _ => rfl]
    simp [readPlace, hp, State.setReply]
  refine ⟨statusWord s, hread, getLsbD_statusWord s 0, getLsbD_statusWord s 1, getLsbD_statusWord s 2,
    fun k h3 h8 => ?_, BitVec.eq_of_getLsbD_eq fun k hk => ?_, fun k hk => ?_⟩
  · rw [getLsbD_statusWord, if_neg (by omega), if_neg (by omega), if_neg (by omega), if_pos h8]
  · rw [BitVec.getLsbD_extractLsb', getLsbD_statusWord, if_neg (by omega), if_neg (by omega), if_neg (by omega),
      if_neg (by omega), Nat.add_sub_cancel_left]
    simp [hk]
  · rw [getLsbD_statusWord, if_neg (by omega), if_neg (by omega), if_neg (by omega), if_neg (by omega)]
    exact BitVec.getLsbD_of_ge _ _ (by omega)

/-- Settles O43. -/
theorem ctxstatRead : Obligations.CtxstatRead := by
  intro s i hi hrun
  have hp := placeOf_ctxstatOffset hi
  have hread : busAccess (.read (0x0140 + 4 * i.toNat) .word) s =
      .next { s with reply := .data (ctxstatWord (s.slot i)) } := by
    rw [busAccess_readWord hp (by omega) rfl (by simp [hrun])]
    simp [readPlace, hp, State.setReply]
  have hphase : (ctxstatWord (s.slot i)).extractLsb' 1 2 = (s.slot i).mac.phase.code := by
    refine BitVec.eq_of_getLsbD_eq fun k hk => ?_
    rw [BitVec.getLsbD_extractLsb', getLsbD_ctxstatWord, if_neg (by omega), if_pos (by omega),
      Nat.add_sub_cancel_left]
    simp [hk]
  refine ⟨ctxstatWord (s.slot i), hread, getLsbD_ctxstatWord _ 0, ?_, getLsbD_ctxstatWord _ 3,
    BitVec.eq_of_getLsbD_eq fun k hk => ?_, fun k hk => ?_⟩
  · rw [hphase]
    cases (s.slot i).mac.phase <;> rfl
  · rw [BitVec.getLsbD_extractLsb', getLsbD_ctxstatWord, if_neg (by omega), if_neg (by omega), if_neg (by omega),
      Nat.add_sub_cancel_left]
    simp [hk]
  · rw [getLsbD_ctxstatWord, if_neg (by omega), if_neg (by omega), if_neg (by omega)]
    exact BitVec.getLsbD_of_ge _ _ (by omega)

/-- Settles O44. -/
theorem counterRegister : Obligations.CounterRegister := by
  intro s i v hi hrun
  have hp := placeOf_cntOffset hi
  constructor
  · rw [busAccess_readWord hp (by omega) rfl (by simp [hrun])]
    simp [readPlace, hp, State.setReply]
  · have hadmitted : refusal s (.write (0x0100 + 4 * i.toNat) .word v) = none :=
      refuseWhy_eq_none.2 ⟨by simp [hp], by simp only [Width.bytes]; omega, .inr rfl, by simp [hp, Place.writable],
        by simp [hrun]⟩
    refine ⟨_, busAccess_write hadmitted, ?_⟩
    rw [writePlace, hp]
    exact ⟨rfl, fun j hj => by simp [hj.symm], by simp⟩

/-! ### Reset (10_state.md R50) -/

theorem slot_resetWith (p : Params) (i : SlotId) : (State.resetWith p).slot i = Slot.reset := by
  simp [State.slot, State.resetWith]

/-- Settles O52. -/
theorem resetMeetsInvariants : Obligations.ResetMeetsInvariants := fun p =>
  ⟨nofun, ⟨fun i => (slot_resetWith p i).symm ▸ macInv_reset, macInv_reset⟩, ⟨rfl, nofun⟩, Nat.zero_le 8⟩

/-- Settles O53: the reset event leaves the architectural state `State.resetWith` names. -/
theorem resetValues : Obligations.ResetValues := by
  rintro t (rfl | ⟨s, rest, hs, h⟩)
  · exact ⟨rfl, rfl, rfl, rfl, rfl, rfl, fun _ => rfl, fun i => by
      rw [State.reset, slot_resetWith]
      exact ⟨rfl, rfl, rfl, rfl, rfl⟩⟩
  · obtain rfl : resetBlock (s.setInbox rest) = t := by simpa [step, hs, handleEvent] using h
    exact ⟨rfl, rfl, rfl, rfl, rfl, rfl, fun _ => rfl, fun i => by
      rw [slot_resetBlock]
      exact ⟨rfl, rfl, rfl, rfl, rfl⟩⟩

end Sys2Proof.Machine

/-! ## What the host cannot read -/

namespace Sys2Proof.Machine

/-! ### Outcomes that agree up to an erasure -/

theorem agreeUpTo_next {erase : State → State} {a b : State} (h : erase a = erase b) :
    AgreeUpTo erase (.next a) (.next b) :=
  ⟨fun _ hs => ⟨b, rfl, Host.Outcome.next.inj hs ▸ h⟩, nofun⟩

theorem agreeUpTo_fault (erase : State → State) (r : Fault) : AgreeUpTo erase (.fault r) (.fault r) :=
  ⟨nofun, fun _ h => h⟩

/-! ### Two states the bus does not tell apart -/

/-- What a host access can look at (10_state.md R35): the parameters, the flags, the event counters, `CNT[i]`,
`CTXSTAT[i]`, `IBUF` and `OBUF`. -/
structure BusAlike (s t : State) : Prop where
  cfg : s.cfg = t.cfg
  busy : s.busy = t.busy
  run : s.run = t.run
  status : statusWord s = statusWord t
  collisions : s.collisions = t.collisions
  oracleFails : s.oracleFails = t.oracleFails
  counter : ∀ i : SlotId, (s.slot i).ctr.counter = (t.slot i).ctr.counter
  ctxstat : ∀ i : SlotId, ctxstatWord (s.slot i) = ctxstatWord (t.slot i)
  bytes : ∀ a, ibufBase ≤ a → s.mem.read a = t.mem.read a

theorem BusAlike.refusal {s t : State} (h : BusAlike s t) (a : Access) : refusal s a = refusal t a := by
  cases a <;> simp only [Machine.refusal, refuseWhy, h.cfg, h.run]

theorem readLanes_congr {m m' : Memory} {off : Nat} (n : Width) (h : ∀ a, off ≤ a → m.read a = m'.read a) :
    readLanes m off n = readLanes m' off n := by
  cases n <;> simp only [readLanes, h _ (Nat.le_refl off), h _ (Nat.le_add_right off _)]

/-- Such states answer a read with the same number. -/
theorem BusAlike.readPlace {s t : State} (h : BusAlike s t) (off : Nat) (n : Width) :
    (readPlace off n s).1 = (readPlace off n t).1 := by
  have hc := placeOf_covers s.cfg off
  unfold Machine.readPlace
  rw [← h.cfg]
  cases hp : placeOf s.cfg off with
  | status => exact h.status
  | acquire => simp only [acquireClaim, h.busy]; split <;> rfl
  | collisions => exact h.collisions
  | oracleFails => exact h.oracleFails
  | cnt i => exact h.counter i
  | ctxstat i => exact h.ctxstat i
  | ibuf =>
    rw [hp] at hc
    exact readLanes_congr n fun a ha => h.bytes a (hc.1.trans ha)
  | obuf =>
    rw [hp] at hc
    exact readLanes_congr n fun a ha => h.bytes a (Nat.le_trans (by decide) (hc.1.trans ha))
  | _ => rfl

/-- The erasure leaves alone what the claim, the issue and the bus's answer work on. -/
structure KeepsControl (erase : State → State) : Prop where
  reply : ∀ (s : State) (r : Reply), erase (s.setReply r) = (erase s).setReply r
  acquire : ∀ s, erase (acquireClaim s).2 = (acquireClaim (erase s)).2
  release : ∀ s, erase (releaseClaim s) = releaseClaim (erase s)
  issue : ∀ w s, erase (issue w s) = issue w (erase s)

/-- Two states that agree up to an erasure, and that the bus does not tell apart, answer every host access alike and
go on alike, if writes of `CNT[i]` and of the buffers keep the agreement. -/
theorem busAccess_agree {erase : State → State} (he : KeepsControl erase) {s t : State} (h : erase s = erase t)
    (halike : BusAlike s t)
    (hcnt : ∀ (i : SlotId) (v : Word), erase (s.setCtr i { (s.slot i).ctr with counter := v }) =
      erase (t.setCtr i { (t.slot i).ctr with counter := v }))
    (hbuf : ∀ (off : Nat) (n : Width) (v : Word), InHostBuffer s.cfg off n →
      erase (s.setMem (s.mem.writeBytes off (laneBytes v n))) =
        erase (t.setMem (t.mem.writeBytes off (laneBytes v n))))
    (a : Access) : AgreeUpTo erase (busAccess a s) (busAccess a t) := by
  cases hr : refusal s a with
  | some cause =>
    have hr' := (halike.refusal a).symm.trans hr
    cases a <;> simp only [busAccess, memRead, memWrite, hr, hr'] <;> exact agreeUpTo_fault erase _
  | none =>
    have hr' := (halike.refusal a).symm.trans hr
    cases a with
    | read off n =>
      rw [busAccess_read hr, busAccess_read hr', halike.readPlace]
      refine agreeUpTo_next ?_
      rw [he.reply, he.reply]
      congr 1
      by_cases hp : placeOf s.cfg off = .acquire
      · have hp' : placeOf t.cfg off = .acquire := halike.cfg ▸ hp
        simp only [readPlace, hp, hp', he.acquire, h]
      · rw [readPlace_state hp, readPlace_state (halike.cfg ▸ hp), h]
    | write off n v =>
      rw [busAccess_write hr, busAccess_write hr']
      refine agreeUpTo_next ?_
      rw [he.reply, he.reply]
      congr 1
      unfold writePlace
      rw [← halike.cfg]
      cases hp : placeOf s.cfg off with
      | cmd => simp only [he.issue, h]
      | release => simp only [he.release, h]
      | cnt i => exact hcnt i v
      | kbuf => exact hbuf off n v (inHostBuffer_of_admitted hr (.inl hp))
      | ibuf => exact hbuf off n v (inHostBuffer_of_admitted hr (.inr hp))
      | _ => exact h

/-! ### Storage without `KBUF` -/

/-- The storage without the bytes of `KBUF`. -/
def Memory.withoutKbuf (m : Memory) : Memory := m.filter fun c => !inKbuf c.1

theorem inKbuf_above {a : Nat} (h : kbufBase + kbufSize ≤ a) : inKbuf a = false := by
  simp [inKbuf]
  omega

theorem Memory.withoutKbuf_cell_inside {k : Nat} (hk : inKbuf k = true) (b : Byte) (m : Memory) :
    Memory.withoutKbuf ((k, b) :: m) = m.withoutKbuf := by
  simp [Memory.withoutKbuf, hk]

theorem Memory.withoutKbuf_cell_outside {k : Nat} (hk : inKbuf k = false) (b : Byte) (m : Memory) :
    Memory.withoutKbuf ((k, b) :: m) = (k, b) :: m.withoutKbuf := by
  simp [Memory.withoutKbuf, hk]

theorem Memory.withoutKbuf_cons_inside {a : Nat} (ha : inKbuf a = true) (b : Byte) (m : Memory) :
    (Memory.cons a b m).withoutKbuf = m.withoutKbuf := by
  unfold Memory.cons
  split
  · rfl
  · exact Memory.withoutKbuf_cell_inside ha b m

theorem Memory.withoutKbuf_cons_outside {a : Nat} (ha : inKbuf a = false) (b : Byte) (m : Memory) :
    (Memory.cons a b m).withoutKbuf = Memory.cons a b m.withoutKbuf := by
  unfold Memory.cons
  split
  · rfl
  · exact Memory.withoutKbuf_cell_outside ha b m

/-- Outside `KBUF` nothing reads otherwise. -/
theorem Memory.read_withoutKbuf {a : Nat} (ha : inKbuf a = false) : ∀ m : Memory, m.withoutKbuf.read a = m.read a
  | [] => rfl
  | (k, b) :: rest => by
    have ih := Memory.read_withoutKbuf ha rest
    cases hk : inKbuf k
    · simp only [Memory.withoutKbuf_cell_outside hk, Memory.read, ih]
    · have hka : k ≠ a := by
        rintro rfl
        exact nomatch ha.symm.trans hk
      simp only [Memory.withoutKbuf_cell_inside hk, Memory.read, hka, if_false, ih]

/-- A write into `KBUF` leaves the rest of the storage alone. -/
theorem Memory.withoutKbuf_write_inside {a : Nat} (ha : inKbuf a = true) (b : Byte) :
    ∀ m : Memory, (m.write a b).withoutKbuf = m.withoutKbuf
  | [] => Memory.withoutKbuf_cons_inside ha b []
  | (k, c) :: rest => by
    have ih := Memory.withoutKbuf_write_inside ha b rest
    rw [Memory.write]
    split
    · exact Memory.withoutKbuf_cons_inside ha b _
    · split
      · next hak => rw [Memory.withoutKbuf_cons_inside ha, Memory.withoutKbuf_cell_inside (hak ▸ ha)]
      · cases hk : inKbuf k
        · rw [Memory.withoutKbuf_cell_outside hk, Memory.withoutKbuf_cell_outside hk, ih]
        · rw [Memory.withoutKbuf_cell_inside hk, Memory.withoutKbuf_cell_inside hk, ih]

/-- A write above `KBUF` does not depend on what `KBUF` holds. -/
theorem Memory.withoutKbuf_write_above {a : Nat} (ha : kbufBase + kbufSize ≤ a) (b : Byte) :
    ∀ m : Memory, (m.write a b).withoutKbuf = m.withoutKbuf.write a b
  | [] => Memory.withoutKbuf_cons_outside (inKbuf_above ha) b []
  | (k, c) :: rest => by
    have ih := Memory.withoutKbuf_write_above ha b rest
    have hout := inKbuf_above ha
    cases hk : inKbuf k
    · rw [Memory.withoutKbuf_cell_outside hk, Memory.write, Memory.write]
      split
      · rw [Memory.withoutKbuf_cons_outside hout, Memory.withoutKbuf_cell_outside hk]
      · split
        · exact Memory.withoutKbuf_cons_outside hout b rest
        · rw [Memory.withoutKbuf_cell_outside hk, ih]
    · have hlt : k < a := by
        simp [inKbuf] at hk
        omega
      rw [Memory.write, if_neg (by omega), if_neg (by omega), Memory.withoutKbuf_cell_inside hk,
        Memory.withoutKbuf_cell_inside hk, ih]

theorem Memory.withoutKbuf_writeBytes_inside : ∀ (bs : List Byte) (m : Memory) (a : Nat), kbufBase ≤ a →
    a + bs.length ≤ kbufBase + kbufSize → (m.writeBytes a bs).withoutKbuf = m.withoutKbuf
  | [], _, _, _, _ => rfl
  | b :: bs, m, a, hlo, hhi => by
    rw [List.length_cons] at hhi
    rw [Memory.writeBytes, Memory.withoutKbuf_writeBytes_inside bs _ _ (by omega) (by omega)]
    exact Memory.withoutKbuf_write_inside (by simp [inKbuf]; omega) b m

theorem Memory.withoutKbuf_writeBytes_above : ∀ (bs : List Byte) (m : Memory) (a : Nat), kbufBase + kbufSize ≤ a →
    (m.writeBytes a bs).withoutKbuf = m.withoutKbuf.writeBytes a bs
  | [], _, _, _ => rfl
  | b :: bs, m, a, ha => by
    rw [Memory.writeBytes, Memory.withoutKbuf_writeBytes_above bs _ _ (by omega),
      Memory.withoutKbuf_write_above ha, Memory.writeBytes]

/-- Two storages alike but for `KBUF` stay so under a write into `KBUF` or `IBUF`. -/
theorem Memory.withoutKbuf_hostWrite {m m' : Memory} (h : m.withoutKbuf = m'.withoutKbuf) {p : Params} {off : Nat}
    {n : Width} (hbuf : InHostBuffer p off n) (v : Word) :
    (m.writeBytes off (laneBytes v n)).withoutKbuf = (m'.writeBytes off (laneBytes v n)).withoutKbuf := by
  rcases hbuf with ⟨hlo, hhi⟩ | ⟨hlo, -⟩
  · rw [Memory.withoutKbuf_writeBytes_inside _ _ _ hlo (by simpa using hhi),
      Memory.withoutKbuf_writeBytes_inside _ _ _ hlo (by simpa using hhi), h]
  · have habove : kbufBase + kbufSize ≤ off := Nat.le_trans (by decide) hlo
    rw [Memory.withoutKbuf_writeBytes_above _ _ _ habove, Memory.withoutKbuf_writeBytes_above _ _ _ habove, h]

/-! ### Key material -/

/-- A slot with its key material set to zero. -/
def Slot.eraseSecrets (sl : Slot) : Slot where
  ctr := { AesCtrContext.reset with counter := sl.ctr.counter, init := sl.ctr.init }
  mac := { CmacContext.reset with
    partialLength := sl.mac.partialLength, multiblock := sl.mac.multiblock, phase := sl.mac.phase }

theorem State.slot_eraseSecrets (s : State) (i : SlotId) : s.eraseSecrets.slot i = (s.slot i).eraseSecrets := by
  simp [State.slot, State.eraseSecrets, Slot.eraseSecrets]

theorem State.eraseSecrets_setCtr (s : State) (i : SlotId) (c : AesCtrContext) :
    (s.setCtr i c).eraseSecrets = s.eraseSecrets.setSlot i { s.slot i with ctr := c }.eraseSecrets := by
  simp only [State.setCtr, State.setSlot, State.eraseSecrets, Vector.map_set, Slot.eraseSecrets]

theorem State.eraseSecrets_setMem (s : State) (m : Memory) :
    (s.setMem m).eraseSecrets = s.eraseSecrets.setMem m.withoutKbuf := rfl

theorem keepsControl_eraseSecrets : KeepsControl State.eraseSecrets where
  reply _ _ := rfl
  acquire s := by
    cases hb : s.busy <;> simp [acquireClaim, State.eraseSecrets, hb, countCollision]
  release _ := rfl
  issue w s := by
    rcases issue_cases w s with ⟨hr, h⟩ | ⟨hr, hb, h⟩ | ⟨hr, hb, h⟩ <;> rw [h]
    · simp [issue, State.eraseSecrets, hr, countCollision]
    · simp [issue, State.eraseSecrets, hr, hb, CommandResult.code]
    · simp [issue, State.eraseSecrets, hr, hb]

/-- The host's view of a slot shows nothing of what is erased. -/
theorem busAlike_eraseSecrets {s t : State} (h : s.eraseSecrets = t.eraseSecrets) : BusAlike s t := by
  have hslot : ∀ i : SlotId, (s.slot i).eraseSecrets = (t.slot i).eraseSecrets := fun i => by
    rw [← State.slot_eraseSecrets, ← State.slot_eraseSecrets, h]
  have hmem : s.mem.withoutKbuf = t.mem.withoutKbuf := congrArg State.mem h
  exact {
    cfg := (congrArg State.cfg h :)
    busy := (congrArg State.busy h :)
    run := (congrArg State.run h :)
    status := (congrArg statusWord h :)
    collisions := (congrArg State.collisions h :)
    oracleFails := (congrArg State.oracleFails h :)
    counter := fun i => congrArg (·.ctr.counter) (hslot i)
    ctxstat := fun i => (congrArg ctxstatWord (hslot i) :)
    bytes := fun a ha => by
      have hout : inKbuf a = false := inKbuf_above (Nat.le_trans (by decide) ha)
      rw [← Memory.read_withoutKbuf hout, hmem, Memory.read_withoutKbuf hout] }

/-- Settles O55: the places the host reads are none of those erased, and what it writes does not depend on them. -/
theorem secretsNotReadable : Obligations.SecretsNotReadable := by
  intro s t a h
  have halike := busAlike_eraseSecrets h
  refine busAccess_agree keepsControl_eraseSecrets h halike (fun i v => ?_) (fun off n v hbuf => ?_) a
  · have hslot : (s.slot i).eraseSecrets = (t.slot i).eraseSecrets := by
      rw [← State.slot_eraseSecrets, ← State.slot_eraseSecrets, h]
    rw [State.eraseSecrets_setCtr, State.eraseSecrets_setCtr, h]
    exact congrArg (fun sl : Slot => t.eraseSecrets.setSlot i { sl with ctr := { sl.ctr with counter := v } }) hslot
  · rw [State.eraseSecrets_setMem, State.eraseSecrets_setMem, h,
      Memory.withoutKbuf_hostWrite (congrArg State.mem h) hbuf]

end Sys2Proof.Machine

/-! ## What no rule reads -/

namespace Sys2Proof.Machine

/-! ### Computations that end alike -/

/-- Two computations that make the same number of invocations both end with their values, or both at the same
failure. -/
theorem Makes.end_alike {α β : Type} {f : OracleInput → OracleResult α} {g : OracleInput → OracleResult β} {n : Nat}
    {a : α} {b : β} (hf : Makes f n a) (hg : Makes g n b) (o : OracleInput) :
    (f o = (.ok a, o.skip n) ∧ g o = (.ok b, o.skip n)) ∨
      (∃ e p, f o = (.error e, p) ∧ g o = (.error e, p)) := by
  rcases hf.cases o with ⟨hok, h⟩ | ⟨k, e, hk, hfail, h⟩
  · exact .inl ⟨h, hg.1 o hok⟩
  · exact .inr ⟨e, _, h, hg.2 o k e hk hfail⟩

/-! ### Contexts in phase `Ready` that differ in unread bytes only -/

/-- Two contexts in phase `Ready` that agree in all a rule may read: the stale bytes of `acc` may differ, and `prev`
until a block has been folded (10_state.md R26, R27 c). -/
structure ReadyAlike (c d : CmacContext) : Prop where
  phase : c.phase = .ready
  phase' : d.phase = .ready
  key : c.key = d.key
  key1 : c.key1 = d.key1
  key2 : c.key2 = d.key2
  partialLength : c.partialLength = d.partialLength
  multiblock : c.multiblock = d.multiblock
  acc : ∀ (k : Nat) (hk : k < 16), k < c.partialLength.toNat → c.acc[k] = d.acc[k]
  prev : c.multiblock = true → c.prev = d.prev

theorem CmacContext.eraseUnread_phase (c : CmacContext) : c.eraseUnread.phase = c.phase := by
  unfold CmacContext.eraseUnread
  split <;> rfl

theorem readyAlike_of_eraseUnread {c d : CmacContext} (hp : c.phase = .ready) (h : c.eraseUnread = d.eraseUnread) :
    ReadyAlike c d := by
  have hp' : d.phase = .ready := by rw [← d.eraseUnread_phase, ← h, c.eraseUnread_phase, hp]
  simp only [CmacContext.eraseUnread, hp, hp', if_true, CmacContext.mk.injEq, and_true] at h
  obtain ⟨hkey, hkey1, hkey2, hacc, hprev, hlen, hmulti⟩ := h
  refine ⟨hp, hp', hkey, hkey1, hkey2, hlen, hmulti, fun k hk hlt => ?_, fun hm => ?_⟩
  · have hbyte := congrArg (·[k]) hacc
    simpa [hlt, ← hlen] using hbyte
  · simpa [CmacContext.chainValue, hm, ← hmulti] using hprev

theorem ReadyAlike.eraseUnread {c d : CmacContext} (h : ReadyAlike c d) : c.eraseUnread = d.eraseUnread := by
  simp only [CmacContext.eraseUnread, h.phase, h.phase', if_true, CmacContext.mk.injEq]
  refine ⟨h.key, h.key1, h.key2, Vector.ext fun k hk => ?_, ?_, h.partialLength, h.multiblock, trivial⟩
  · simp only [Vector.getElem_ofFn, ← h.partialLength]
    split
    · next hlt => exact h.acc k hk hlt
    · rfl
  · simp only [CmacContext.chainValue, ← h.multiblock]
    split
    · next hm => exact h.prev hm
    · rfl

/-- A context made ready depends on nothing but key and subkeys. -/
theorem readyAlike_macInitialized (c d : CmacContext) (k : Block) :
    ReadyAlike (macInitialized c k) (macInitialized d k) :=
  ⟨rfl, rfl, rfl, rfl, rfl, rfl, rfl, nofun, nofun⟩

/-- A full buffer is read whole. -/
theorem ReadyAlike.acc_full {c d : CmacContext} (h : ReadyAlike c d) (h16 : c.partialLength = 16) : c.acc = d.acc :=
  Vector.ext fun k hk => h.acc k hk (by rw [h16]; exact hk)

theorem ReadyAlike.foldInput {c d : CmacContext} (h : ReadyAlike c d) (h16 : c.partialLength = 16) :
    foldInput c = foldInput d := by
  simp only [Machine.foldInput, ← h.multiblock, h.acc_full h16]
  split
  · next hm => rw [h.prev hm]
  · rfl

theorem ReadyAlike.macRoomMade {c d : CmacContext} (h : ReadyAlike c d) :
    ReadyAlike (macRoomMade c) (macRoomMade d) := by
  unfold Machine.macRoomMade
  rw [← h.partialLength]
  split
  · next h16 =>
    exact ⟨h.phase, h.phase', h.key, h.key1, h.key2, rfl, rfl, nofun, fun _ => by
      simp only [h.key, h.foldInput h16]⟩
  · exact h

/-- A byte buffered becomes valid with the bytes before it; the bytes after it stay stale. -/
theorem ReadyAlike.push {c d : CmacContext} (h : ReadyAlike c d) (b : Byte) : ReadyAlike (c.push b) (d.push b) := by
  refine ⟨h.phase, h.phase', h.key, h.key1, h.key2, congrArg (· + 1) h.partialLength, h.multiblock,
    fun k hk hlt => ?_, h.prev⟩
  simp only [CmacContext.push, ← h.partialLength, Vector.getElem_setIfInBounds] at hlt ⊢
  split
  · rfl
  · next hne =>
    refine h.acc k hk ?_
    have hle : (c.partialLength + 1).toNat ≤ c.partialLength.toNat + 1 := by
      rw [BitVec.toNat_add]
      exact Nat.mod_le _ _
    omega

theorem ReadyAlike.macUpdated : ∀ (bs : List Byte) {c d : CmacContext}, ReadyAlike c d →
    ReadyAlike (macUpdated c bs) (macUpdated d bs) ∧ macUpdateFolds c bs = macUpdateFolds d bs
  | [], _, _, h => ⟨h, rfl⟩
  | b :: bs, c, d, h => by
    obtain ⟨hdone, hfolds⟩ := ReadyAlike.macUpdated bs (h.macRoomMade.push b)
    exact ⟨hdone, by rw [macUpdateFolds, macUpdateFolds, hfolds, h.partialLength]⟩

/-- The last block is read from the valid bytes alone (42_cmac.md R157, R158). -/
theorem ReadyAlike.finishInput {c d : CmacContext} (h : ReadyAlike c d) : finishInput c = finishInput d := by
  have hpad : padBlock c.acc c.partialLength.toNat = padBlock d.acc c.partialLength.toNat :=
    Vector.ext fun k hk => by
      simp only [padBlock, Vector.getElem_ofFn]
      split
      · next hlt => exact h.acc k hk hlt
      · rfl
  have hlast : (if c.partialLength = 16 then blockXor c.acc c.key1
        else blockXor (padBlock c.acc c.partialLength.toNat) c.key2) =
      if c.partialLength = 16 then blockXor d.acc d.key1
        else blockXor (padBlock d.acc c.partialLength.toNat) d.key2 := by
    rw [hpad, h.key1, h.key2]
    split
    · next h16 => rw [h.acc_full h16]
    · rfl
  simp only [Machine.finishInput, ← h.partialLength, ← h.multiblock, hlast]
  split
  · next hm => rw [h.prev hm]
  · rfl

/-- A one-shot tag depends on neither context it starts from. -/
theorem macPrepared_alike (c d : CmacContext) (k : Block) (m : List Byte) :
    ReadyAlike (macPrepared c k m) (macPrepared d k m) :=
  ((readyAlike_macInitialized c d k).macUpdated m).1

/-! ### The iterations of `KDF.EXPAND` -/

/-- Two contexts that hold the same key and subkeys. -/
def SameKeys (c d : CmacContext) : Prop := c.key = d.key ∧ c.key1 = d.key1 ∧ c.key2 = d.key2

/-- What an iteration may start from: any two contexts if it derives the subkeys anew, else two that hold the same. -/
def MayStart (i : Nat) (c d : CmacContext) : Prop := derivesSubkeys i = true ∨ SameKeys c d

theorem readyAlike_expandStarted {i : Nat} {c d : CmacContext} (h : MayStart i c d) (prk : Block) :
    ReadyAlike (expandStarted i c prk) (expandStarted i d prk) := by
  unfold expandStarted
  split
  · exact readyAlike_macInitialized c d prk
  · next hi =>
    obtain ⟨hkey, hkey1, hkey2⟩ := h.resolve_left hi
    exact ⟨rfl, rfl, hkey, hkey1, hkey2, rfl, rfl, nofun, nofun⟩

/-- An iteration gives the same tag after as many invocations, and leaves contexts that hold the same keys. -/
theorem expandStep_alike {i : Nat} {c d : CmacContext} (h : MayStart i c d) (prk : Block) (m : List Byte) :
    expandStepCalls i c prk m = expandStepCalls i d prk m ∧
      (expandStepDone i c prk m).1 = (expandStepDone i d prk m).1 ∧
      SameKeys (expandStepDone i c prk m).2 (expandStepDone i d prk m).2 := by
  obtain ⟨hdone, hfolds⟩ := (readyAlike_expandStarted h prk).macUpdated m
  refine ⟨by rw [expandStepCalls, expandStepCalls, hfolds], ?_, hdone.key, hdone.key1, hdone.key2⟩
  simp only [expandStepDone, hdone.key, hdone.finishInput]

theorem expandLoop_alike (prk : Block) (info : List Byte) : ∀ (n i : Nat) (before : List Byte) {c d : CmacContext},
    MayStart i c d →
      expandCalls prk info n i before c = expandCalls prk info n i before d ∧
      (expandDone prk info n i before c).1 = (expandDone prk info n i before d).1
  | 0, _, _, _, _, _ => ⟨rfl, rfl⟩
  | n + 1, i, before, c, d, h => by
    obtain ⟨hcalls, htag, hkeys⟩ := expandStep_alike h prk (expandMessage before info i)
    obtain ⟨hcalls', hrest⟩ := expandLoop_alike prk info n (i + 1)
      (expandStepDone i c prk (expandMessage before info i)).1.toList (.inr hkeys)
    simp only [expandCalls, expandDone]
    rw [hcalls, hcalls', hrest, htag]
    exact ⟨rfl, rfl⟩

/-! ### States that agree up to what no rule reads -/

/-- A slot with the fields no rule reads set to zero. -/
def Slot.eraseUnread (sl : Slot) : Slot where
  ctr := sl.ctr.eraseUnread
  mac := sl.mac.eraseUnread

theorem State.slot_eraseUnread (s : State) (i : SlotId) : s.eraseUnread.slot i = (s.slot i).eraseUnread := by
  simp [State.slot, State.eraseUnread, Slot.eraseUnread]

theorem State.eraseUnread_setSlot (s : State) (i : SlotId) (sl : Slot) :
    (s.setSlot i sl).eraseUnread = s.eraseUnread.setSlot i sl.eraseUnread := by
  simp only [State.setSlot, State.eraseUnread, Vector.map_set]
  rfl

theorem AesCtrContext.eraseUnread_init (c : AesCtrContext) : c.eraseUnread.init = c.init := by
  cases h : c.init <;> simp [AesCtrContext.eraseUnread, AesCtrContext.reset, h]

theorem AesCtrContext.eraseUnread_counter (c : AesCtrContext) : c.eraseUnread.counter = c.counter := by
  cases h : c.init <;> simp [AesCtrContext.eraseUnread, h]

theorem AesCtrContext.eraseUnread_setCounter (c : AesCtrContext) (v : Word) :
    { c with counter := v }.eraseUnread = { c.eraseUnread with counter := v } := by
  cases h : c.init <;> simp [AesCtrContext.eraseUnread, h]

/-- Once `CTR.INIT` has run, key, nonce and counter are read. -/
theorem AesCtrContext.read_of_eraseUnread {c d : AesCtrContext} (hi : c.init = true)
    (h : c.eraseUnread = d.eraseUnread) : c.key = d.key ∧ c.nonce = d.nonce ∧ c.counter = d.counter := by
  have hi' : d.init = true := by rw [← d.eraseUnread_init, ← h, c.eraseUnread_init, hi]
  simp only [AesCtrContext.eraseUnread, hi, hi', if_true, AesCtrContext.mk.injEq, and_true] at h
  exact h

section Alike

variable {s t : State} (h : s.eraseUnread = t.eraseUnread)
include h

theorem cfg_alike : s.cfg = t.cfg := (congrArg State.cfg h :)

theorem run_alike : s.run = t.run := (congrArg State.run h :)

theorem mem_alike : s.mem = t.mem := (congrArg State.mem h :)

theorem oracle_alike : s.oracle = t.oracle := (congrArg State.oracle h :)

theorem keyOperand_alike : keyOperand s = keyOperand t := by
  simp only [keyOperand, State.kbuf, mem_alike h]

theorem nonceOperand_alike : nonceOperand s = nonceOperand t := by
  simp only [nonceOperand, State.kbuf, mem_alike h]

theorem dataOperand_alike (n : Nat) : dataOperand s n = dataOperand t n := by
  simp only [dataOperand, mem_alike h]

theorem slot_alike (i : SlotId) : (s.slot i).eraseUnread = (t.slot i).eraseUnread := by
  rw [← State.slot_eraseUnread, ← State.slot_eraseUnread, h]

theorem ctr_alike (i : SlotId) : (s.slot i).ctr.eraseUnread = (t.slot i).ctr.eraseUnread :=
  (congrArg Slot.ctr (slot_alike h i) :)

theorem mac_alike (i : SlotId) : (s.slot i).mac.eraseUnread = (t.slot i).mac.eraseUnread :=
  (congrArg Slot.mac (slot_alike h i) :)

theorem macPhase_alike (i : SlotId) : (s.slot i).mac.phase = (t.slot i).mac.phase := by
  rw [← CmacContext.eraseUnread_phase, mac_alike h, CmacContext.eraseUnread_phase]

theorem setOracle_alike (o : OracleInput) : (s.setOracle o).eraseUnread = (t.setOracle o).eraseUnread :=
  (congrArg (State.setOracle · o) h :)

theorem setInbox_alike (q : List Event) : (s.setInbox q).eraseUnread = (t.setInbox q).eraseUnread :=
  (congrArg (State.setInbox · q) h :)

theorem storeResult_alike (bs : List Byte) : (storeResult bs s).eraseUnread = (storeResult bs t).eraseUnread :=
  (congrArg (storeResult bs) h :)

/-- Nothing reads the private context between commands. -/
theorem setKctx_alike (c d : CmacContext) : (s.setKctx c).eraseUnread = (t.setKctx d).eraseUnread := h

theorem loseKctx_alike : s.loseKctx.eraseUnread = t.loseKctx.eraseUnread := h

theorem setCtr_alike (i : SlotId) {c d : AesCtrContext} (hc : c.eraseUnread = d.eraseUnread) :
    (s.setCtr i c).eraseUnread = (t.setCtr i d).eraseUnread := by
  rw [State.setCtr, State.setCtr, State.eraseUnread_setSlot, State.eraseUnread_setSlot, h]
  simp only [Slot.eraseUnread, hc, mac_alike h]

theorem setMac_alike (i : SlotId) {c d : CmacContext} (hc : c.eraseUnread = d.eraseUnread) :
    (s.setMac i c).eraseUnread = (t.setMac i d).eraseUnread := by
  rw [State.setMac, State.setMac, State.eraseUnread_setSlot, State.eraseUnread_setSlot, h]
  simp only [Slot.eraseUnread, hc, ctr_alike h]

/-- The free values of a lost context are among what no rule reads (60_exceptions.md R262). -/
theorem loseMac_alike (i : SlotId) : (s.loseMac i).eraseUnread = (t.loseMac i).eraseUnread :=
  setMac_alike h i (c := lostContext s.freeCount) (d := lostContext t.freeCount) rfl

/-- When a command ends, `CMDLATCH` becomes unread. -/
theorem endCommand_alike (r : CommandResult) : (endCommand r s).eraseUnread = (endCommand r t).eraseUnread :=
  (congrArg (fun u => { endCommand r u with cmdLatch := 0 }) h :)

theorem checkFailed_alike (code : Byte) : (checkFailed code s).eraseUnread = (checkFailed code t).eraseUnread :=
  (congrArg (fun u => { checkFailed code u with cmdLatch := 0 }) h :)

theorem resetBlock_alike : (resetBlock s).eraseUnread = (resetBlock t).eraseUnread :=
  (congrArg (fun u => (resetBlock u).eraseUnread) h :)

theorem cmdLatch_alike (hrun : s.run = true) : s.cmdLatch = t.cmdLatch := by
  have hl : (if s.run then s.cmdLatch else 0) = if t.run then t.cmdLatch else 0 := (congrArg State.cmdLatch h :)
  simpa [hrun, ← run_alike h] using hl

/-! ### Every perform step -/

theorem onSlot_alike (i : SlotId) {f : State → State} (hf : (f s).eraseUnread = (f t).eraseUnread) :
    (onSlot i s f).eraseUnread = (onSlot i t f).eraseUnread := by
  unfold onSlot
  rw [cfg_alike h]
  split
  · exact hf
  · exact endCommand_alike h _

theorem ctrLoad_alike (i : SlotId) : (ctrLoad i s).eraseUnread = (ctrLoad i t).eraseUnread := by
  refine endCommand_alike (setCtr_alike h i ?_) _
  simp only [AesCtrContext.eraseUnread, if_true, keyOperand_alike h, nonceOperand_alike h]

theorem ctrApply_alike (i : SlotId) (n : Nat) : (ctrApply i n s).eraseUnread = (ctrApply i n t).eraseUnread := by
  have hinit : (s.slot i).ctr.init = (t.slot i).ctr.init := by
    rw [← AesCtrContext.eraseUnread_init, ctr_alike h, AesCtrContext.eraseUnread_init]
  unfold ctrApply
  rw [← hinit]
  split
  · exact endCommand_alike h _
  split
  · exact endCommand_alike h _
  · next hi =>
    have hi : (s.slot i).ctr.init = true := by simpa using hi
    obtain ⟨hkey, hnonce, hcounter⟩ := AesCtrContext.read_of_eraseUnread hi (ctr_alike h i)
    have hblock : counterBlock s.cfg.ctrOrder (s.slot i).ctr = counterBlock t.cfg.ctrOrder (t.slot i).ctr := by
      simp only [counterBlock, hnonce, hcounter, cfg_alike h]
    rw [hkey, hblock, oracle_alike h, dataOperand_alike h]
    rcases invoke_cases t.oracle (t.slot i).ctr.key (counterBlock t.cfg.ctrOrder (t.slot i).ctr) with
      ⟨-, hinv⟩ | ⟨e, -, hinv⟩ <;> rw [hinv]
    · refine endCommand_alike (storeResult_alike (setOracle_alike (setCtr_alike h i ?_) _) _) _
      simp only [AesCtrContext.eraseUnread, ← hinit, hi, if_true, hkey, hnonce, hcounter]
    · exact endCommand_alike (setOracle_alike h _) _

theorem macSlotInit_alike (i : SlotId) : (macSlotInit i s).eraseUnread = (macSlotInit i t).eraseUnread := by
  unfold macSlotInit
  rw [keyOperand_alike h, oracle_alike h]
  rcases (macInit_makes (s.slot i).mac (keyOperand t)).end_alike (macInit_makes (t.slot i).mac (keyOperand t))
    t.oracle with ⟨hs, ht⟩ | ⟨e, p, hs, ht⟩ <;> simp only [hs, ht]
  · exact endCommand_alike (setOracle_alike
      (setMac_alike h i (readyAlike_macInitialized (s.slot i).mac (t.slot i).mac _).eraseUnread) _) _
  · exact endCommand_alike (setOracle_alike (loseMac_alike h i) _) _

theorem macSlotUpdate_alike (i : SlotId) (n : Nat) :
    (macSlotUpdate i n s).eraseUnread = (macSlotUpdate i n t).eraseUnread := by
  unfold macSlotUpdate
  rw [cfg_alike h, ← macPhase_alike h]
  split
  · exact endCommand_alike h _
  split
  · exact endCommand_alike h _
  · next hp =>
    obtain ⟨hdone, hfolds⟩ := (readyAlike_of_eraseUnread (not_not.1 hp) (mac_alike h i)).macUpdated (dataOperand t n)
    rw [dataOperand_alike h, oracle_alike h]
    rcases (macUpdate_makes (dataOperand t n) (s.slot i).mac).end_alike
      (hfolds ▸ macUpdate_makes (dataOperand t n) (t.slot i).mac) t.oracle with
      ⟨hs, ht⟩ | ⟨e, p, hs, ht⟩ <;> simp only [hs, ht]
    · exact endCommand_alike (setOracle_alike (setMac_alike h i hdone.eraseUnread) _) _
    · exact endCommand_alike (setOracle_alike (loseMac_alike h i) _) _

theorem macSlotFinish_alike (i : SlotId) : (macSlotFinish i s).eraseUnread = (macSlotFinish i t).eraseUnread := by
  unfold macSlotFinish
  rw [← macPhase_alike h]
  split
  · exact endCommand_alike h _
  · next hp =>
    have hready := readyAlike_of_eraseUnread (not_not.1 hp) (mac_alike h i)
    rw [oracle_alike h]
    rcases (macFinish_makes (s.slot i).mac).end_alike (macFinish_makes (t.slot i).mac) t.oracle with
      ⟨hs, ht⟩ | ⟨e, p, hs, ht⟩ <;> simp only [hs, ht]
    · rw [hready.key, hready.finishInput]
      refine endCommand_alike (storeResult_alike (setOracle_alike (setMac_alike h i ?_) _) _) _
      simp [CmacContext.eraseUnread, hready.partialLength, hready.multiblock]
    · exact endCommand_alike (setOracle_alike (loseMac_alike h i) _) _

theorem macToOutput_alike (n : Nat) : (macToOutput n s).eraseUnread = (macToOutput n t).eraseUnread := by
  unfold macToOutput
  rw [cfg_alike h]
  split
  · exact endCommand_alike h _
  · have hready := macPrepared_alike s.kctx t.kctx (keyOperand t) (dataOperand t n)
    have hfolds := ((readyAlike_macInitialized s.kctx t.kctx (keyOperand t)).macUpdated (dataOperand t n)).2
    rw [keyOperand_alike h, dataOperand_alike h, oracle_alike h]
    rcases (macOneShot_makes s.kctx (keyOperand t) (dataOperand t n)).end_alike
      (hfolds ▸ macOneShot_makes t.kctx (keyOperand t) (dataOperand t n)) t.oracle with
      ⟨hs, ht⟩ | ⟨e, p, hs, ht⟩ <;> simp only [hs, ht]
    · rw [hready.key, hready.finishInput]
      exact endCommand_alike (storeResult_alike (setOracle_alike (setKctx_alike h _ _) _) _) _
    · exact endCommand_alike (setOracle_alike (loseKctx_alike h) _) _

theorem kdfExpandToOutput_alike (n len : Nat) :
    (kdfExpandToOutput n len s).eraseUnread = (kdfExpandToOutput n len t).eraseUnread := by
  unfold kdfExpandToOutput
  rw [cfg_alike h]
  split
  · exact endCommand_alike h _
  split
  · exact endCommand_alike h _
  · obtain ⟨hcalls, hokm⟩ := expandLoop_alike (keyOperand t) (dataOperand t n) (expandCount len) 1 []
      (c := s.kctx) (d := t.kctx) (.inl rfl)
    rw [keyOperand_alike h, dataOperand_alike h, oracle_alike h]
    rcases (expandLoop_makes (keyOperand t) (dataOperand t n) (expandCount len) 1 [] s.kctx).end_alike
      (hcalls ▸ expandLoop_makes (keyOperand t) (dataOperand t n) (expandCount len) 1 [] t.kctx) t.oracle with
      ⟨hs, ht⟩ | ⟨e, p, hs, ht⟩ <;> simp only [hs, ht]
    · rw [hokm]
      exact endCommand_alike (storeResult_alike (setOracle_alike (setKctx_alike h _ _) _) _) _
    · exact endCommand_alike (setOracle_alike (loseKctx_alike h) _) _

/-- No command reads what no rule reads. -/
theorem performed_alike (i : Instr) : (performed i s).eraseUnread = (performed i t).eraseUnread := by
  cases i with
  | ctrInit c => exact onSlot_alike h c (ctrLoad_alike h c)
  | ctrCrypt c n => exact onSlot_alike h c (ctrApply_alike h c n.toNat)
  | cmacInit c => exact onSlot_alike h c (macSlotInit_alike h c)
  | cmacUpdate c n => exact onSlot_alike h c (macSlotUpdate_alike h c n.toNat)
  | cmacFinish c => exact onSlot_alike h c (macSlotFinish_alike h c)
  | cmacCompute n => exact macToOutput_alike h n.toNat
  | kdfExtract n => exact macToOutput_alike h n.toNat
  | kdfExpand n l => exact kdfExpandToOutput_alike h n.toNat l.toNat

/-! ### Every step -/

/-- `CMDLATCH` is read by a perform step alone, when a command is in flight. -/
theorem engineTurn_alike : AgreeUpTo State.eraseUnread (engineTurn s) (engineTurn t) := by
  unfold engineTurn
  rw [← run_alike h]
  split
  · next hrun =>
    unfold perform
    rw [cfg_alike h, cmdLatch_alike h hrun]
    cases decode t.cfg t.cmdLatch with
    | ok i =>
      simp only [exec_eq]
      exact agreeUpTo_next (performed_alike h i)
    | error e => exact agreeUpTo_next (endCommand_alike h _)
  · exact agreeUpTo_next h

theorem busAlike_eraseUnread : BusAlike s t where
  cfg := cfg_alike h
  busy := (congrArg State.busy h :)
  run := run_alike h
  status := (congrArg statusWord h :)
  collisions := (congrArg State.collisions h :)
  oracleFails := (congrArg State.oracleFails h :)
  counter i := by
    rw [← AesCtrContext.eraseUnread_counter, ctr_alike h, AesCtrContext.eraseUnread_counter]
  ctxstat i := by
    have hslot : ∀ sl : Slot, ctxstatWord sl.eraseUnread = ctxstatWord sl := fun sl => by
      cases hp : sl.mac.phase <;>
        simp [ctxstatWord, Slot.eraseUnread, CmacContext.eraseUnread, AesCtrContext.eraseUnread_init, hp]
    rw [← hslot, slot_alike h, hslot]
  bytes a _ := by rw [mem_alike h]

end Alike

theorem keepsControl_eraseUnread : KeepsControl State.eraseUnread where
  reply _ _ := rfl
  acquire s := by
    cases hb : s.busy <;> simp [acquireClaim, State.eraseUnread, hb, countCollision]
  release _ := rfl
  issue w s := by
    rcases issue_cases w s with ⟨hr, h⟩ | ⟨hr, hb, h⟩ | ⟨hr, hb, h⟩ <;> rw [h]
    · simp [issue, State.eraseUnread, hr, countCollision]
    · simp [issue, State.eraseUnread, hr, hb, CommandResult.code]
    · simp [issue, State.eraseUnread, hr, hb]

theorem handleEvent_alike {s t : State} (h : s.eraseUnread = t.eraseUnread) (e : Event) :
    AgreeUpTo State.eraseUnread (handleEvent e s) (handleEvent e t) := by
  cases e with
  | host a =>
    refine busAccess_agree keepsControl_eraseUnread h (busAlike_eraseUnread h) (fun i v => ?_) (fun off n v _ => ?_) a
    · refine setCtr_alike h i ?_
      rw [AesCtrContext.eraseUnread_setCounter (s.slot i).ctr, AesCtrContext.eraseUnread_setCounter (t.slot i).ctr,
        ctr_alike h]
    · rw [mem_alike h]
      exact (congrArg (State.setMem · _) h :)
  | engine => exact engineTurn_alike h
  | reset => exact agreeUpTo_next (resetBlock_alike h)

/-- Settles O54: state by state, event by event, command by command; a command that reaches the oracle reads only the
valid bytes of a context in phase `Ready` (`ReadyAlike`), and the private context only after it was made ready. -/
theorem unspecifiedNeverRead : Obligations.UnspecifiedNeverRead := by
  intro s t h
  have hinbox : s.inbox = t.inbox := (congrArg State.inbox h :)
  rcases step_cases s with ⟨hs, hstep⟩ | ⟨e, rest, hs, hstep⟩
  · rw [hstep, show step t = engineTurn t by simp [step, ← hinbox, hs]]
    exact engineTurn_alike h
  · rw [hstep, show step t = handleEvent e (t.setInbox rest) by simp [step, ← hinbox, hs]]
    exact handleEvent_alike (setInbox_alike h rest) e

end Sys2Proof.Machine

/-! ## The bus window: which accesses are admitted, what reads leave alone, the lanes of the buffers -/

namespace Sys2Proof.Machine

/-! ### The map of the window, read forwards -/

/-- No offset is covered by two places, so the place that covers an offset is the one the map gives. -/
theorem placeOf_eq_of_covers {p : Params} {off : Nat} {pl : Place} (h : pl.Covers p off) (hne : pl ≠ .reserved) :
    placeOf p off = pl := by
  have hn := p.nctx_le
  have hb := p.ibufSize_le
  cases pl with
  | reserved => exact absurd rfl hne
  | cnt i =>
    obtain ⟨hlo, hi, hlt⟩ := h
    simp (disch := omega) only [placeOf, if_pos, if_neg, ← hi, BitVec.ofNat_toNat, BitVec.setWidth_eq]
  | ctxstat i =>
    obtain ⟨hlo, hi, hlt⟩ := h
    simp (disch := omega) only [placeOf, if_pos, if_neg, ← hi, BitVec.ofNat_toNat, BitVec.setWidth_eq]
  | _ =>
    simp only [Place.Covers] at h
    simp (disch := omega) only [placeOf, if_pos, if_neg]

theorem covers_cnt_iff (p : Params) (off : Nat) :
    (∃ i, (Place.cnt i).Covers p off) ↔ 0x0100 ≤ off ∧ off < 0x0100 + 4 * p.nctx := by
  have hn := p.nctx_le
  refine ⟨fun ⟨i, hlo, hi, hlt⟩ => ⟨hlo, by omega⟩, fun ⟨hlo, hhi⟩ => ⟨.ofNat 4 ((off - 0x0100) / 4), hlo, ?_⟩⟩
  simp only [BitVec.toNat_ofNat]
  omega

theorem covers_ctxstat_iff (p : Params) (off : Nat) :
    (∃ i, (Place.ctxstat i).Covers p off) ↔ 0x0140 ≤ off ∧ off < 0x0140 + 4 * p.nctx := by
  have hn := p.nctx_le
  refine ⟨fun ⟨i, hlo, hi, hlt⟩ => ⟨hlo, by omega⟩, fun ⟨hlo, hhi⟩ => ⟨.ofNat 4 ((off - 0x0140) / 4), hlo, ?_⟩⟩
  simp only [BitVec.toNat_ofNat]
  omega

/-! ### Which accesses are admitted (20_memory.md R70, R72) -/

/-- A place admits an access of width `n` while `RUN` is `run`, its direction apart (20_memory.md R67, R72). -/
def Place.Admits (pl : Place) (run : Bool) (n : Width) : Prop :=
  (pl.anyWidth = true ∨ n = .word) ∧ (run = true → pl.whileRunning = true)

theorem Place.Admits.word {pl : Place} {run : Bool} {n : Width} (h : pl.Admits run n) (hw : pl.anyWidth = false) :
    n = .word := by
  simpa [hw] using h.1

theorem Place.Admits.idle {pl : Place} {run : Bool} {n : Width} (h : pl.Admits run n)
    (hw : pl.whileRunning = false) : run = false := by
  simpa [hw] using h.2

/-- An access is refused for no cause exactly when it is aligned and the place that covers its offset admits its
direction and its width, and admits it now. -/
theorem refuseWhy_eq_none_iff_covers {s : State} {off : Nat} {n : Width} {dirOk : Place → Bool}
    (hdir : dirOk .reserved = false) :
    refuseWhy s off n dirOk = none ↔
      off % n.bytes = 0 ∧ ∃ pl : Place, pl.Covers s.cfg off ∧ dirOk pl = true ∧ pl.Admits s.run n := by
  rw [refuseWhy_eq_none]
  constructor
  · rintro ⟨-, halign, hwidth, hd, hrun⟩
    exact ⟨halign, placeOf s.cfg off, placeOf_covers s.cfg off, hd, hwidth, hrun⟩
  · rintro ⟨halign, pl, hc, hd, hwidth, hrun⟩
    have hne : pl ≠ .reserved := fun h => by simp [h, hdir] at hd
    obtain rfl := placeOf_eq_of_covers hc hne
    exact ⟨hne, halign, hwidth, hd, hrun⟩

/-- The reads admitted by R70 and R72, by offset and width. -/
def ReadAdmitted (s : State) (off : Nat) (n : Width) : Prop :=
  off % n.bytes = 0 ∧
  ((n = .word ∧ (off = 0x0004 ∨ off = 0x0008 ∨ off = 0x0010 ∨ off = 0x0014)) ∨
   (s.run = false ∧ n = .word ∧ 0x0100 ≤ off ∧ off < 0x0100 + 4 * s.cfg.nctx) ∨
   (s.run = false ∧ n = .word ∧ 0x0140 ≤ off ∧ off < 0x0140 + 4 * s.cfg.nctx) ∨
   (s.run = false ∧ 0x1000 ≤ off ∧ off < 0x1000 + s.cfg.ibufSize) ∨
   (s.run = false ∧ 0x2000 ≤ off ∧ off < 0x2FF0))

/-- The writes admitted by R70 and R72, by offset and width. -/
def WriteAdmitted (s : State) (off : Nat) (n : Width) : Prop :=
  off % n.bytes = 0 ∧
  ((n = .word ∧ off = 0x0000) ∨
   (s.run = false ∧ n = .word ∧ off = 0x000C) ∨
   (s.run = false ∧ n = .word ∧ 0x0100 ≤ off ∧ off < 0x0100 + 4 * s.cfg.nctx) ∨
   (s.run = false ∧ 0x0040 ≤ off ∧ off < 0x0060) ∨
   (s.run = false ∧ 0x1000 ≤ off ∧ off < 0x1000 + s.cfg.ibufSize))

theorem refusal_read_eq_none_iff (s : State) (off : Nat) (n : Width) :
    refusal s (.read off n) = none ↔ ReadAdmitted s off n := by
  rw [refusal, refuseWhy_eq_none_iff_covers rfl]
  refine and_congr_right fun halign => ⟨?_, ?_⟩
  · rintro ⟨pl, hc, hdir, hadm⟩
    cases pl with
    | status | acquire | collisions | oracleFails =>
      obtain rfl := hadm.word rfl
      simp only [Place.Covers, Width.bytes] at hc halign
      exact .inl ⟨rfl, by omega⟩
    | cnt i => exact .inr (.inl ⟨hadm.idle rfl, hadm.word rfl, (covers_cnt_iff _ _).1 ⟨i, hc⟩⟩)
    | ctxstat i => exact .inr (.inr (.inl ⟨hadm.idle rfl, hadm.word rfl, (covers_ctxstat_iff _ _).1 ⟨i, hc⟩⟩))
    | ibuf => exact .inr (.inr (.inr (.inl ⟨hadm.idle rfl, hc⟩)))
    | obuf => exact .inr (.inr (.inr (.inr ⟨hadm.idle rfl, hc⟩)))
    | cmd | release | kbuf | reserved => exact nomatch hdir
  · rintro (⟨rfl, hoff⟩ | ⟨hrun, rfl, hoff⟩ | ⟨hrun, rfl, hoff⟩ | ⟨hrun, hoff⟩ | ⟨hrun, hoff⟩)
    · rcases hoff with rfl | rfl | rfl | rfl
      · exact ⟨.status, by simp [Place.Covers], rfl, .inr rfl, fun _ => rfl⟩
      · exact ⟨.acquire, by simp [Place.Covers], rfl, .inr rfl, fun _ => rfl⟩
      · exact ⟨.collisions, by simp [Place.Covers], rfl, .inr rfl, fun _ => rfl⟩
      · exact ⟨.oracleFails, by simp [Place.Covers], rfl, .inr rfl, fun _ => rfl⟩
    · obtain ⟨i, hi⟩ := (covers_cnt_iff _ _).2 hoff
      exact ⟨.cnt i, hi, rfl, .inr rfl, by simp [hrun]⟩
    · obtain ⟨i, hi⟩ := (covers_ctxstat_iff _ _).2 hoff
      exact ⟨.ctxstat i, hi, rfl, .inr rfl, by simp [hrun]⟩
    · exact ⟨.ibuf, hoff, rfl, .inl rfl, by simp [hrun]⟩
    · exact ⟨.obuf, hoff, rfl, .inl rfl, by simp [hrun]⟩

theorem refusal_write_eq_none_iff (s : State) (off : Nat) (n : Width) (v : Word) :
    refusal s (.write off n v) = none ↔ WriteAdmitted s off n := by
  rw [refusal, refuseWhy_eq_none_iff_covers rfl]
  refine and_congr_right fun halign => ⟨?_, ?_⟩
  · rintro ⟨pl, hc, hdir, hadm⟩
    cases pl with
    | cmd =>
      obtain rfl := hadm.word rfl
      simp only [Place.Covers, Width.bytes] at hc halign
      exact .inl ⟨rfl, by omega⟩
    | release =>
      obtain rfl := hadm.word rfl
      simp only [Place.Covers, Width.bytes] at hc halign
      exact .inr (.inl ⟨hadm.idle rfl, rfl, by omega⟩)
    | cnt i => exact .inr (.inr (.inl ⟨hadm.idle rfl, hadm.word rfl, (covers_cnt_iff _ _).1 ⟨i, hc⟩⟩))
    | kbuf => exact .inr (.inr (.inr (.inl ⟨hadm.idle rfl, hc⟩)))
    | ibuf => exact .inr (.inr (.inr (.inr ⟨hadm.idle rfl, hc⟩)))
    | status | acquire | collisions | oracleFails | ctxstat _ | obuf | reserved => exact nomatch hdir
  · rintro (⟨rfl, rfl⟩ | ⟨hrun, rfl, rfl⟩ | ⟨hrun, rfl, hoff⟩ | ⟨hrun, hoff⟩ | ⟨hrun, hoff⟩)
    · exact ⟨.cmd, by simp [Place.Covers], rfl, .inr rfl, fun _ => rfl⟩
    · exact ⟨.release, by simp [Place.Covers], rfl, .inr rfl, by simp [hrun]⟩
    · obtain ⟨i, hi⟩ := (covers_cnt_iff _ _).2 hoff
      exact ⟨.cnt i, hi, rfl, .inr rfl, by simp [hrun]⟩
    · exact ⟨.kbuf, hoff, rfl, .inl rfl, by simp [hrun]⟩
    · exact ⟨.ibuf, hoff, rfl, .inl rfl, by simp [hrun]⟩

/-- An access goes on when R70 gives no cause to refuse it, and faults otherwise. -/
theorem busAccess_next_or_fault {a : Access} {s : State} {admitted : Prop} (h : refusal s a = none ↔ admitted) :
    (admitted → ∃ t, busAccess a s = .next t) ∧
      (¬ admitted → ∃ cause, busAccess a s = .fault (.accessFault cause)) := by
  rw [← h]
  rcases busAccess_cases a s with ⟨cause, hr, hf⟩ | ⟨hr, ⟨off, n, -, hs⟩ | ⟨off, n, v, -, hs⟩⟩
  · exact ⟨fun hnone => absurd (hnone.symm.trans hr) nofun, fun _ => ⟨cause, hf⟩⟩
  · exact ⟨fun _ => ⟨_, hs⟩, fun hsome => absurd hr hsome⟩
  · exact ⟨fun _ => ⟨_, hs⟩, fun hsome => absurd hr hsome⟩

/-- Settles O40: place by place, in each direction. -/
theorem admittedAccesses : Obligations.AdmittedAccesses :=
  ⟨fun s off n => busAccess_next_or_fault (refusal_read_eq_none_iff s off n),
    fun s off n v => busAccess_next_or_fault (refusal_write_eq_none_iff s off n v)⟩

/-! ### Reads without effect -/

/-- Settles O41: of the effects of an event, the reads that change anything stand at `0x0008`. -/
theorem readsWithoutEffect : Obligations.ReadsWithoutEffect := by
  intro s t off n h hoff
  cases hostRead_effect h with
  | acquireHeld _ => exact absurd rfl hoff
  | acquireTaken _ => exact absurd rfl hoff
  | read _ _ v _ => exact ⟨v, rfl⟩

/-! ### The lanes of a number (20_memory.md R61) -/

theorem laneBytes_eq_map (v : Word) (n : Width) :
    laneBytes v n = (List.range n.bytes).map fun k => v.extractLsb' (8 * k) 8 := by
  cases n <;> rfl

theorem getElem_laneBytes (v : Word) (n : Width) (k : Nat) (hk : k < (laneBytes v n).length) :
    (laneBytes v n)[k] = v.extractLsb' (8 * k) 8 := by
  simp [laneBytes_eq_map]

/-- The lanes of four bytes put together are the four bytes. -/
theorem laneBytes_wordOfBytes (b0 b1 b2 b3 : Byte) :
    laneBytes (wordOfBytes b0 b1 b2 b3) .word = [b0, b1, b2, b3] := by
  simp (disch := decide) only [laneBytes, wordOfBytes, BitVec.extractLsb'_append_eq_of_le,
    BitVec.extractLsb'_append_eq_of_add_le, Nat.sub_self, Nat.reduceSub, BitVec.extractLsb'_eq_self]

theorem laneBytes_setWidth_byte (b : Byte) : laneBytes (b.setWidth 32) .byte = [b] := by
  rw [laneBytes, BitVec.extractLsb'_setWidth_of_le (by decide), BitVec.extractLsb'_eq_self]

/-- The number of two bit strings put side by side. -/
theorem toNat_append_eq_add {m n : Nat} (x : BitVec m) (y : BitVec n) :
    (x ++ y).toNat = x.toNat * 2 ^ n + y.toNat := by
  rw [BitVec.toNat_append, ← Nat.shiftLeft_add_eq_or_of_lt y.isLt, Nat.shiftLeft_eq]

/-- What a read returns is the little-endian sum of the bytes. -/
theorem toNat_readLanes (m : Memory) (off : Nat) (n : Width) :
    (readLanes m off n).toNat =
      ((List.range n.bytes).map fun k => (m.read (off + k)).toNat * 2 ^ (8 * k)).sum := by
  cases n with
  | byte =>
    rw [readLanes, BitVec.toNat_setWidth_of_le (by decide)]
    simp [Width.bytes]
  | half =>
    rw [readLanes, BitVec.toNat_setWidth_of_le (by decide), toNat_append_eq_add]
    simp only [Width.bytes, List.sum_range_succ, List.range_zero, List.map_nil, List.sum_nil, Nat.add_zero]
    ring
  | word =>
    rw [readLanes, toNat_append_eq_add, toNat_append_eq_add, toNat_append_eq_add]
    simp only [Width.bytes, List.sum_range_succ, List.range_zero, List.map_nil, List.sum_nil, Nat.add_zero]
    ring

/-! ### The buffers on the bus -/

/-- A write into `KBUF` or `IBUF` while no command is in flight stores the lanes (20_memory.md R65). -/
theorem busAccess_write_buffer {s : State} {off : Nat} {n : Width} (v : Word) (hrun : s.run = false)
    (halign : off % n.bytes = 0) (hbuf : InHostBuffer s.cfg off n) :
    busAccess (.write off n v) s = .next ((s.setMem (s.mem.writeBytes off (laneBytes v n))).setReply .written) := by
  have hn : 0 < n.bytes := by cases n <;> decide
  rcases hbuf with ⟨hlo, hhi⟩ | ⟨hlo, hhi⟩
  · have hc : Place.kbuf.Covers s.cfg off := ⟨hlo, by simp only [kbufBase, kbufSize] at hhi; omega⟩
    rw [busAccess_write ((refusal_write_eq_none_iff s off n v).2 ⟨halign, .inr (.inr (.inr (.inl ⟨hrun, hc⟩)))⟩),
      writePlace, placeOf_eq_of_covers hc nofun]
  · have hc : Place.ibuf.Covers s.cfg off := ⟨hlo, by simp only [ibufBase] at hhi; omega⟩
    rw [busAccess_write ((refusal_write_eq_none_iff s off n v).2 ⟨halign, .inr (.inr (.inr (.inr ⟨hrun, hc⟩)))⟩),
      writePlace, placeOf_eq_of_covers hc nofun]

/-- An aligned access that begins in `KBUF` or `IBUF` has all its bytes there. -/
theorem inHostBuffer_of_aligned {p : Params} {off : Nat} {n : Width} (halign : off % n.bytes = 0)
    (h : (0x0040 ≤ off ∧ off < 0x0060) ∨ (0x1000 ≤ off ∧ off < 0x1000 + p.ibufSize)) : InHostBuffer p off n :=
  h.imp (fun h => ⟨h.1, aligned_le (lo := kbufBase) (size := kbufSize) halign rfl rfl h.2⟩)
    (fun h => ⟨h.1, aligned_le (lo := ibufBase) halign rfl p.ibufSize_mul h.2⟩)

/-- A read of `IBUF` or `OBUF` while no command is in flight answers the number of the lanes (20_memory.md R64). -/
theorem busAccess_read_buffer {s : State} {off : Nat} {n : Width} (hrun : s.run = false)
    (halign : off % n.bytes = 0)
    (h : (0x1000 ≤ off ∧ off < 0x1000 + s.cfg.ibufSize) ∨ (0x2000 ≤ off ∧ off < 0x2FF0)) :
    busAccess (.read off n) s = .next (s.setReply (.data (readLanes s.mem off n))) := by
  rcases h with hc | hc
  · have hp : placeOf s.cfg off = .ibuf := placeOf_eq_of_covers hc nofun
    rw [busAccess_read ((refusal_read_eq_none_iff s off n).2 ⟨halign, .inr (.inr (.inr (.inl ⟨hrun, hc⟩)))⟩),
      readPlace, hp]
  · have hp : placeOf s.cfg off = .obuf := placeOf_eq_of_covers hc nofun
    rw [busAccess_read ((refusal_read_eq_none_iff s off n).2 ⟨halign, .inr (.inr (.inr (.inr ⟨hrun, hc⟩)))⟩),
      readPlace, hp]

/-- Settles O45: the lanes are stored as a byte string, read back byte by byte. -/
theorem bufferWriteLanes : Obligations.BufferWriteLanes := by
  intro s off n v hrun hwf halign hoff
  have hbuf : InHostBuffer s.cfg off n := inHostBuffer_of_aligned halign hoff
  refine ⟨_, busAccess_write_buffer v hrun halign hbuf, fun k hk => ?_, fun a ha => ?_, rfl⟩
  · have hlen : k < (laneBytes v n).length := by simpa using hk
    exact (Memory.read_writeBytes_inside _ s.mem off k hlen hwf).trans (getElem_laneBytes v n k hlen)
  · exact Memory.read_writeBytes_outside _ s.mem off a (by simpa using ha)

/-- Settles O46: a read answers the lanes, whose number is the little-endian sum. -/
theorem bufferReadLanes : Obligations.BufferReadLanes := by
  intro s off n hrun halign hoff
  exact ⟨readLanes s.mem off n, busAccess_read_buffer hrun halign hoff, toNat_readLanes s.mem off n⟩

/-! ### Byte writes one after the other (20_memory.md R63) -/

/-- The byte writes of a byte string from `a` upward. -/
def byteWrites (a : Nat) : List Byte → List Event
  | [] => []
  | b :: bs => .host (.write a .byte (b.setWidth 32)) :: byteWrites (a + 1) bs

theorem runEvents_cons {e : Event} {s t : State} (h : handleEvent e s = .next t) (es : List Event) :
    runEvents (e :: es) s = runEvents es t := by
  rw [runEvents, h]

/-- One byte write into `KBUF` or `IBUF`. -/
theorem handleEvent_writeByte {s : State} {a : Nat} (b : Byte) (hrun : s.run = false)
    (hbuf : InHostBuffer s.cfg a .byte) :
    handleEvent (.host (.write a .byte (b.setWidth 32))) s =
      .next ((s.setMem (s.mem.write a b)).setReply .written) := by
  rw [handleEvent, busAccess_write_buffer _ hrun (Nat.mod_one a) hbuf, laneBytes_setWidth_byte]
  rfl

/-- The byte writes of a byte string store the string. -/
theorem runEvents_byteWrites : ∀ (bs : List Byte) (b : Byte) (a : Nat) (s : State), s.run = false →
    (∀ k, k ≤ bs.length → InHostBuffer s.cfg (a + k) .byte) →
    runEvents (byteWrites a (b :: bs)) s = .next ((s.setMem (s.mem.writeBytes a (b :: bs))).setReply .written)
  | [], b, a, s, hrun, hbuf => runEvents_cons (handleEvent_writeByte b hrun (hbuf 0 (Nat.le_refl 0))) []
  | b' :: bs, b, a, s, hrun, hbuf => by
    have hfirst : InHostBuffer s.cfg a .byte := hbuf 0 (Nat.zero_le _)
    have hrest : ∀ k, k ≤ bs.length → InHostBuffer s.cfg (a + 1 + k) .byte := fun k hk => by
      rw [Nat.add_assoc, Nat.add_comm 1 k]
      exact hbuf (k + 1) (Nat.succ_le_succ hk)
    exact (runEvents_cons (handleEvent_writeByte b hrun hfirst) _).trans
      (runEvents_byteWrites bs b' (a + 1) _ hrun hrest)

/-- Settles O47: both sides store the same four bytes in the same order. -/
theorem mixedWidthSameBytes : Obligations.MixedWidthSameBytes := by
  intro s a b0 b1 b2 b3 hrun halign ha
  have hbuf : InHostBuffer s.cfg a .word := inHostBuffer_of_aligned halign ha
  refine ⟨_, busAccess_write_buffer _ hrun halign hbuf, ?_⟩
  rw [laneBytes_wordOfBytes]
  refine runEvents_byteWrites [b1, b2, b3] b0 a s hrun fun k hk => ?_
  simp only [InHostBuffer, Width.bytes, List.length_cons, List.length_nil] at hbuf hk ⊢
  omega

end Sys2Proof.Machine

/-! ## The encoding: which words are which commands -/

namespace Sys2Proof

/-! ### The fields of a word as numbers -/

theorem toNat_opcodeField (w : Word) : (opcodeField w).toNat = w.toNat / 2 ^ 28 := by
  rw [opcodeField, BitVec.extractLsb'_toNat, Nat.shiftRight_eq_div_pow]
  omega

theorem toNat_ctxField (w : Word) : (ctxField w).toNat = w.toNat / 2 ^ 24 % 16 := by
  rw [ctxField, BitVec.extractLsb'_toNat, Nat.shiftRight_eq_div_pow]

theorem toNat_olenField (w : Word) : (olenField w).toNat = w.toNat / 2 ^ 12 % 4096 := by
  rw [olenField, BitVec.extractLsb'_toNat, Nat.shiftRight_eq_div_pow]

theorem toNat_ilenField (w : Word) : (ilenField w).toNat = w.toNat % 4096 := by
  rw [ilenField, BitVec.extractLsb'_toNat, Nat.shiftRight_zero]

/-- A word is assembled from given fields exactly when they are its own (30_encoding.md R90). -/
theorem assemble_eq_iff (op ctx : BitVec 4) (olen ilen : BitVec 12) (w : Word) :
    assemble op ctx olen ilen = w ↔
      (opcodeField w).toNat = op.toNat ∧ (ctxField w).toNat = ctx.toNat ∧ (olenField w).toNat = olen.toNat ∧
        (ilenField w).toNat = ilen.toNat := by
  simp only [BitVec.toNat_inj]
  constructor
  · rintro rfl
    exact fields_assemble op ctx olen ilen
  · rintro ⟨rfl, rfl, rfl, rfl⟩
    exact assemble_fields w

/-! ### Decoding through encoding

R99 looks at the opcode, then at the fields the command does not use, then at the slot. The command an opcode names on
the word's own fields has unused fields zero exactly when the word is its word, so decoding is said in terms of `encode`
and `wellFormed`. -/

/-- The command the opcode of a word names, on the fields of the word, before any check of R94 (b) and (c). -/
def namedCommand (w : Word) : Option Instr :=
  match (opcodeField w).toNat with
  | 0x1 => some (.ctrInit (ctxField w))
  | 0x2 => some (.ctrCrypt (ctxField w) (ilenField w))
  | 0x4 => some (.cmacInit (ctxField w))
  | 0x5 => some (.cmacUpdate (ctxField w) (ilenField w))
  | 0x6 => some (.cmacFinish (ctxField w))
  | 0x7 => some (.cmacCompute (ilenField w))
  | 0x8 => some (.kdfExtract (ilenField w))
  | 0x9 => some (.kdfExpand (ilenField w) (olenField w))
  | _ => none

/-- The word of a command names that command. -/
theorem namedCommand_encode (i : Instr) : namedCommand (encode i) = some i := by
  cases i <;>
    simp [namedCommand, encode, opcodeField_assemble, ctxField_assemble, olenField_assemble, ilenField_assemble]

/-- Assembling anew under a word's own opcode gives the word back exactly when the other fields are its own. -/
theorem assemble_beq {w : Word} {op : BitVec 4} (hop : (opcodeField w).toNat = op.toNat) (ctx : BitVec 4)
    (olen ilen : BitVec 12) :
    (assemble op ctx olen ilen == w) = (ctxField w == ctx && olenField w == olen && ilenField w == ilen) := by
  rw [Bool.eq_iff_iff]
  simp [assemble_eq_iff, hop, BitVec.toNat_inj, and_assoc]

/-- Decoding is the named command's two checks: that the word is its word, and that the command is well formed. -/
theorem decode_eq_checkFields (p : Params) (w : Word) :
    decode p w = (namedCommand w).elim (.error .reservedOpcode)
      fun i => checkFields (encode i == w) (wellFormed p i) i := by
  unfold decode
  split
  case h_9 => simp [namedCommand, *]
  all_goals
    rename_i hop
    simp [namedCommand, encode, wellFormed, assemble_beq, hop, Bool.and_comm]

/-! ### What a word decodes to -/

theorem checkFields_eq_ok_iff {unusedZero slotOk : Bool} {i j : Instr} :
    checkFields unusedZero slotOk i = .ok j ↔ unusedZero = true ∧ slotOk = true ∧ i = j := by
  cases unusedZero <;> cases slotOk <;> simp [checkFields]

theorem checkFields_eq_error_iff {unusedZero slotOk : Bool} {i : Instr} :
    (∃ e, checkFields unusedZero slotOk i = .error e) ↔ unusedZero = false ∨ slotOk = false := by
  cases unusedZero <;> cases slotOk <;> simp [checkFields]

/-- What the word of a command decodes to depends on its slot alone. -/
theorem decode_encode (p : Params) (i : Instr) : decode p (encode i) = checkFields true (wellFormed p i) i := by
  rw [decode_eq_checkFields, namedCommand_encode, Option.elim_some, beq_self_eq_true]

theorem decode_of_encode {p : Params} {i : Instr} {w : Word} (hw : encode i = w) (hi : wellFormed p i = true) :
    decode p w = .ok i := by
  rw [← hw, decode_encode, hi]
  rfl

/-- The words that decode to a command: its own, when it is well formed. -/
theorem decode_eq_ok_iff {p : Params} {w : Word} {i : Instr} :
    decode p w = .ok i ↔ encode i = w ∧ wellFormed p i = true := by
  refine ⟨fun h => ?_, fun ⟨hw, hi⟩ => decode_of_encode hw hi⟩
  rw [decode_eq_checkFields] at h
  cases hn : namedCommand w with
  | none => simp [hn] at h
  | some j =>
    rw [hn, Option.elim_some, checkFields_eq_ok_iff, beq_iff_eq] at h
    obtain ⟨hw, hj, rfl⟩ := h
    exact ⟨hw, hj⟩

/-- The three ways a word is illegal (30_encoding.md R94): its opcode names no command, a field the command does not use
is not zero, or the command's slot does not exist. -/
theorem decode_eq_error_iff {p : Params} {w : Word} :
    (∃ e, decode p w = .error e) ↔
      namedCommand w = none ∨ ∃ i, namedCommand w = some i ∧ (encode i ≠ w ∨ wellFormed p i = false) := by
  rw [decode_eq_checkFields]
  cases namedCommand w with
  | none => simp
  | some j => simp [checkFields_eq_error_iff]

/-- Settles O1. -/
theorem decodeOfEncode : Obligations.DecodeOfEncode :=
  fun _ _ hi => decode_of_encode rfl hi

/-- Settles O2. -/
theorem encodeOfDecode : Obligations.EncodeOfDecode :=
  fun _ _ _ h => decode_eq_ok_iff.1 h

/-- Settles O3: the words of a command, field by field, and its slot. -/
theorem decodeReadsFields : Obligations.DecodeReadsFields := by
  intro p w i
  rw [decode_eq_ok_iff]
  cases i <;> simp [encode, wellFormed, slotExists, assemble_eq_iff, toNat_opcodeField, toNat_ctxField, toNat_olenField,
    toNat_ilenField, and_assoc]

/-! ### The table of match and mask values -/

/-- The word of a command passes the test of that command's row and of no other. -/
theorem encodedRow (i : Instr) : Laws.EncodedRow.Statement i := by
  cases i with
  | ctrInit ctx => exact Laws.EncodedRow.ctrInit ctx
  | ctrCrypt ctx ilen => exact Laws.EncodedRow.ctrCrypt ctx ilen
  | cmacInit ctx => exact Laws.EncodedRow.cmacInit ctx
  | cmacUpdate ctx ilen => exact Laws.EncodedRow.cmacUpdate ctx ilen
  | cmacFinish ctx => exact Laws.EncodedRow.cmacFinish ctx
  | cmacCompute ilen => exact Laws.EncodedRow.cmacCompute ilen
  | kdfExtract ilen => exact Laws.EncodedRow.kdfExtract ilen
  | kdfExpand ilen olen => exact Laws.EncodedRow.kdfExpand ilen olen

theorem accepts_encode_iff {r : TableRow} (hr : r ∈ opcodeTable) (i : Instr) :
    r.accepts (encode i) = true ↔ r.mnemonic = mnemonicOf i := by
  have h : r ∈ opcodeTable.filter (fun r => r.accepts (encode i)) ↔
      r ∈ opcodeTable.filter (fun r => r.mnemonic == mnemonicOf i) := by rw [encodedRow i]
  simpa [List.mem_filter, hr] using h

theorem and_ones_4 (x : BitVec 4) : x &&& 0xF = x := BitVec.and_allOnes

theorem and_ones_12 (x : BitVec 12) : x &&& 0xFFF = x := BitVec.and_allOnes

/-- A word that passes a row's test is the word of a command of that row. -/
theorem exists_encode_of_accepts {r : TableRow} (hr : r ∈ opcodeTable) {w : Word} (h : r.accepts w = true) :
    ∃ i, encode i = w ∧ mnemonicOf i = r.mnemonic := by
  rw [← assemble_fields w] at h ⊢
  generalize opcodeField w = op, ctxField w = ctx, olenField w = olen, ilenField w = ilen at h ⊢
  simp only [opcodeTable_fields, List.mem_cons, List.not_mem_nil, or_false] at hr
  rcases hr with rfl | rfl | rfl | rfl | rfl | rfl | rfl | rfl
  all_goals simp only [accepts_assemble, decide_eq_true_eq, and_ones_4, and_ones_12] at h
  · exact ⟨.ctrInit ctx, by simp [encode, h], rfl⟩
  · exact ⟨.ctrCrypt ctx ilen, by simp [encode, h], rfl⟩
  · exact ⟨.cmacInit ctx, by simp [encode, h], rfl⟩
  · exact ⟨.cmacUpdate ctx ilen, by simp [encode, h], rfl⟩
  · exact ⟨.cmacFinish ctx, by simp [encode, h], rfl⟩
  · exact ⟨.cmacCompute ilen, by simp [encode, h], rfl⟩
  · exact ⟨.kdfExtract ilen, by simp [encode, h], rfl⟩
  · exact ⟨.kdfExpand ilen olen, by simp [encode, h], rfl⟩

/-- The mnemonic names the row. -/
theorem opcodeTable_mnemonic_inj :
    ∀ r ∈ opcodeTable, ∀ r' ∈ opcodeTable, r.mnemonic = r'.mnemonic → r = r' := by decide

/-- A command is well formed exactly when the slot field of its word is below `NCTX`: that field is 0 in a command that
takes no slot, and slot 0 always exists (30_encoding.md R91). -/
theorem wellFormed_eq_slot (p : Params) (i : Instr) :
    wellFormed p i = decide ((encode i).toNat / 2 ^ 24 % 16 < p.nctx) := by
  have h0 := p.nctx_pos
  rw [← toNat_ctxField]
  cases i <;> simp [wellFormed, slotExists, encode, ctxField_assemble] <;> omega

/-- Settles O4: a word that matches a row is the word of a command, whose rows and whose slot field are known. -/
theorem opcodeTableRows : Obligations.OpcodeTableRows := by
  refine ⟨fun p w i h r hr => ?_, fun p w r hr h => ?_, fun w r hr r' hr' h h' => ?_⟩
  · obtain ⟨rfl, -⟩ := decode_eq_ok_iff.1 h
    exact accepts_encode_iff hr i
  · obtain ⟨i, rfl, hi⟩ := exists_encode_of_accepts hr h
    rw [decode_encode, wellFormed_eq_slot]
    constructor
    · intro hlt
      exact ⟨i, by rw [decide_eq_true hlt]; rfl, hi⟩
    · intro hge
      rw [decide_eq_false hge.not_gt]
      rfl
  · obtain ⟨i, rfl, hi⟩ := exists_encode_of_accepts hr h
    exact opcodeTable_mnemonic_inj r hr r' hr' (hi.symm.trans ((accepts_encode_iff hr' i).1 h').symm)

/-! ### Illegal words -/

theorem decode_of_namedCommand_none {w : Word} (h : namedCommand w = none) (p : Params) :
    decode p w = .error .reservedOpcode := by
  rw [decode_eq_checkFields, h, Option.elim_none]

/-- The perform step of an illegal word ends with `IllegalCommand` and no other change (30_encoding.md R94). -/
theorem engineTurn_illegal {s : Machine.State} {e : DecodeError} (hrun : s.run = true)
    (hd : decode s.cfg s.cmdLatch = .error e) : Machine.engineTurn s = .next (Machine.checkFailed 0x05 s) := by
  rcases Machine.engineTurn_cases s with ⟨hidle, -⟩ | ⟨-, i, hi, -⟩ | ⟨-, -, -, h⟩
  · simp [hrun] at hidle
  · simp [hd] at hi
  · exact h

/-- Settles O5: under each opcode R94's ways to be illegal are read off the fields of the command it names; the all-zero
and the all-ones word name none. -/
theorem illegalWordsFail : Obligations.IllegalWordsFail := by
  refine ⟨fun p w => ?_, fun p => ?_, fun s b e hturn hrun hd => ?_⟩
  · simp only [← toNat_opcodeField, ← toNat_ctxField, ← toNat_olenField, ← toNat_ilenField]
    rw [decode_eq_error_iff, namedCommand]
    split
    case h_9 =>
      have hop : (opcodeField w).toNat = 0 ∨ (opcodeField w).toNat = 3 ∨ 10 ≤ (opcodeField w).toNat := by
        simp only [imp_false] at *
        omega
      simp [hop]
    all_goals
      rename_i hop
      simp [encode, wellFormed, slotExists, assemble_eq_iff, hop, imp_iff_not_or]
  · exact ⟨⟨_, decode_of_namedCommand_none rfl p⟩, ⟨_, decode_of_namedCommand_none rfl p⟩⟩
  · rw [Machine.step_engineTurn hturn]
    have hb := hturn.eq
    exact engineTurn_illegal (by rw [hb]; exact hrun) (by rw [hb]; exact hd)

/-- Settles O6: each word is the word of its command (30_encoding.md R96), whose slot exists. -/
theorem specWordsDecode : Obligations.SpecWordsDecode :=
  ⟨decode_of_encode rfl rfl, decode_of_encode rfl rfl, decode_of_encode rfl rfl, decode_of_encode rfl rfl,
    decode_of_encode rfl rfl, decode_of_encode rfl rfl, decode_of_encode rfl rfl, decode_of_encode rfl rfl⟩

end Sys2Proof

/-! ## AES-128: the S-box formula, the examples, and why a key permutes the blocks -/

namespace Sys2Proof.Machine

open Function

/-- A function that comes back to its argument after finitely many applications is injective. -/
theorem injective_of_iterate {α : Type} {f : α → α} (n : Nat) (h : ∀ x, f^[n + 1] x = x) : Injective f :=
  LeftInverse.injective (g := f^[n]) h

/-! ### The S-box (40_oracle.md R115) -/

/-- The affine map of the S-box is a polynomial in the rotation by one bit whose fourth power is 1. -/
theorem sboxAffine_iterate_four : ∀ x : Byte, sboxAffine^[4] x = x := by decide +kernel

/-- The byte the formula of R115 applies its affine map to, for input `a`: the table's entry with `0x63` and the affine
map undone. -/
def sboxInner (a : Byte) : Byte := sboxAffine^[3] (sbox a ^^^ 0x63)

theorem sbox_eq_sboxAffine_sboxInner (a : Byte) : sbox a = sboxAffine (sboxInner a) ^^^ 0x63 := by
  have haffine : sboxAffine (sboxInner a) = sbox a ^^^ 0x63 := by
    rw [sboxInner, ← iterate_succ_apply' sboxAffine]
    exact sboxAffine_iterate_four _
  rw [haffine, BitVec.xor_assoc, BitVec.xor_self, BitVec.xor_zero]

/-- Checked byte by byte: the table is data, with no formula to reason about. -/
theorem gfMul_sboxInner : ∀ a : Byte, a ≠ 0 → gfMul a (sboxInner a) = 1 := by decide +kernel

/-- Inverting twice gives the byte back; the byte 0 stands for its own inverse. -/
theorem sboxInner_involutive : Involutive sboxInner := by
  unfold Involutive
  decide +kernel

/-- Settles O30: undoing the affine map on the table's entry leaves the inverse in the field. -/
theorem sboxMatchesFormula : Obligations.SboxMatchesFormula :=
  ⟨by decide, fun a ha => ⟨sboxInner a, gfMul_sboxInner a ha, sbox_eq_sboxAffine_sboxInner a⟩⟩

/-- The field inverse can be read off the table's entry, and inverting loses nothing. -/
theorem sbox_injective : Injective sbox :=
  Injective.of_comp (f := fun y => sboxAffine^[3] (y ^^^ 0x63)) sboxInner_involutive.injective

/-! ### The parts of a round -/

theorem blockXor_injective (k : Block) : Injective (blockXor · k) :=
  LeftInverse.injective (g := (blockXor · k)) fun s => by
    ext i hi
    simp [blockXor]

theorem subBytes_injective : Injective subBytes := fun s t h => by
  ext i hi : 1
  have hbyte : (subBytes s)[i] = (subBytes t)[i] := by rw [h]
  exact sbox_injective (by simpa [subBytes] using hbyte)

/-- Row `r` is rotated by `r` places (40_oracle.md R117), so four times is no rotation. -/
theorem shiftRows_iterate_four (s : Block) : shiftRows^[4] s = s := by
  ext i hi : 1
  interval_cases i <;> rfl

theorem shiftRows_injective : Injective shiftRows := injective_of_iterate 3 shiftRows_iterate_four

/-! `MixColumns` multiplies each column by a circulant matrix `M` over the field of AES (40_oracle.md R118). Row by row,
`M²` adds to each byte four times its sum with the byte two rows on, and so `M⁴ = 1`. -/

theorem byte_xor_left_comm (x y z : Byte) : x ^^^ (y ^^^ z) = y ^^^ (x ^^^ z) := by
  rw [← BitVec.xor_assoc, BitVec.xor_comm x, BitVec.xor_assoc]

theorem xtime_xor (x y : Byte) : xtime (x ^^^ y) = xtime x ^^^ xtime y := by
  simp only [xtime, BitVec.shiftLeft_xor_distrib, BitVec.getLsbD_xor]
  cases x.getLsbD 7 <;> cases y.getLsbD 7 <;> simp [BitVec.xor_assoc, BitVec.xor_comm, byte_xor_left_comm]

/-- The row of `M` that makes byte 0; byte `r` is the same row applied to the column read from byte `r` on. -/
def mixRow (a b c d : Byte) : Byte := xtime a ^^^ xtime b ^^^ b ^^^ c ^^^ d

/-- The row of `M²` that makes a byte `a`, of which only the byte `c` two rows on is needed. -/
def mixRowTwice (a c : Byte) : Byte := a ^^^ xtime (xtime (a ^^^ c))

theorem mixRow_mixRow (a b c d : Byte) :
    mixRow (mixRow a b c d) (mixRow b c d a) (mixRow c d a b) (mixRow d a b c) = mixRowTwice a c := by
  simp [mixRow, mixRowTwice, xtime_xor, BitVec.xor_assoc, BitVec.xor_comm, byte_xor_left_comm]

theorem mixRowTwice_mixRowTwice (a c : Byte) : mixRowTwice (mixRowTwice a c) (mixRowTwice c a) = a := by
  simp [mixRowTwice, xtime_xor, BitVec.xor_assoc, BitVec.xor_comm]

theorem mixByte_eq_mixRow (a b c d : Byte) :
    mixByte a b c d 0 = mixRow a b c d ∧ mixByte a b c d 1 = mixRow b c d a ∧
    mixByte a b c d 2 = mixRow c d a b ∧ mixByte a b c d 3 = mixRow d a b c := by
  simp [mixByte, mixRow, mul3, BitVec.xor_assoc, BitVec.xor_comm, byte_xor_left_comm]

theorem mixColumns_getElem_mixByte (s : Block) {c r : Nat} (hc : c < 4) (hr : r < 4) :
    (mixColumns s)[4 * c + r] = mixByte s[4 * c] s[4 * c + 1] s[4 * c + 2] s[4 * c + 3] r := by
  have hdiv : (4 * c + r) / 4 = c := by omega
  have hmod : (4 * c + r) % 4 = r := by omega
  simp [mixColumns, hdiv, hmod]

theorem mixColumns_getElem (s : Block) {c : Nat} (hc : c < 4) :
    (mixColumns s)[4 * c] = mixRow s[4 * c] s[4 * c + 1] s[4 * c + 2] s[4 * c + 3] ∧
    (mixColumns s)[4 * c + 1] = mixRow s[4 * c + 1] s[4 * c + 2] s[4 * c + 3] s[4 * c] ∧
    (mixColumns s)[4 * c + 2] = mixRow s[4 * c + 2] s[4 * c + 3] s[4 * c] s[4 * c + 1] ∧
    (mixColumns s)[4 * c + 3] = mixRow s[4 * c + 3] s[4 * c] s[4 * c + 1] s[4 * c + 2] := by
  have hrow {r : Nat} (hr : r < 4) := mixColumns_getElem_mixByte s hc hr
  obtain ⟨h0, h1, h2, h3⟩ := mixByte_eq_mixRow s[4 * c] s[4 * c + 1] s[4 * c + 2] s[4 * c + 3]
  exact ⟨(hrow (r := 0) (by decide)).trans h0, (hrow (by decide)).trans h1, (hrow (by decide)).trans h2,
    (hrow (by decide)).trans h3⟩

theorem mixColumns_mixColumns_getElem (s : Block) {c : Nat} (hc : c < 4) :
    (mixColumns (mixColumns s))[4 * c] = mixRowTwice s[4 * c] s[4 * c + 2] ∧
    (mixColumns (mixColumns s))[4 * c + 1] = mixRowTwice s[4 * c + 1] s[4 * c + 3] ∧
    (mixColumns (mixColumns s))[4 * c + 2] = mixRowTwice s[4 * c + 2] s[4 * c] ∧
    (mixColumns (mixColumns s))[4 * c + 3] = mixRowTwice s[4 * c + 3] s[4 * c + 1] := by
  simp only [mixColumns_getElem _ hc, mixRow_mixRow, and_self]

theorem mixColumns_iterate_four (s : Block) : mixColumns^[4] s = s := by
  ext i hi : 1
  obtain ⟨c, r, hc, hr, rfl⟩ : ∃ c r, c < 4 ∧ r < 4 ∧ i = 4 * c + r :=
    ⟨i / 4, i % 4, by omega, by omega, by omega⟩
  simp only [iterate_succ, iterate_zero, comp, id]
  interval_cases r <;> simp only [Nat.add_zero, mixColumns_mixColumns_getElem _ hc, mixRowTwice_mixRowTwice]

theorem mixColumns_injective : Injective mixColumns := injective_of_iterate 3 mixColumns_iterate_four

/-! ### The cipher -/

theorem aesRounds_injective : ∀ (rcs : List Byte) (k : Block), Injective (aesRounds rcs k)
  | [], _ => injective_id
  | [_], _ => (blockXor_injective _).comp (shiftRows_injective.comp subBytes_injective)
  | _ :: rc :: rcs, _ => (aesRounds_injective (rc :: rcs) _).comp <|
      (blockXor_injective _).comp (mixColumns_injective.comp (shiftRows_injective.comp subBytes_injective))

/-- Settles O28: every part of every round is injective in the block (40_oracle.md R121). -/
theorem aesPermutesBlocks : Obligations.AesPermutesBlocks :=
  fun k _ _ h => blockXor_injective k (aesRounds_injective rconList k h)

/-- Settles O31: the cipher evaluated on the four inputs of R123. -/
theorem aesExamples : Obligations.AesExamples :=
  ⟨by decide +kernel, by decide +kernel, by decide +kernel, by decide +kernel⟩

end Sys2Proof.Machine

/-! ## The AES-CTR engine: the counter block, `CTR.INIT` and `CTR.CRYPT` -/

namespace Sys2Proof.Machine

/-! ### The counter block (41_ctr.md R131) -/

theorem counterBlock_getElem_nonce (order : CtrOrder) (c : AesCtrContext) {j : Nat} (hj : j < 12) :
    (counterBlock order c)[j] = c.nonce[j] := by
  simp [counterBlock, hj]

theorem counterBlock_getElem_counter (order : CtrOrder) (c : AesCtrContext) {k : Nat} (hk : k < 4) :
    (counterBlock order c)[12 + k] = (enc32 order c.counter)[k] := by
  simp [counterBlock]

theorem enc32_le_getElem (v : Word) {k : Nat} (hk : k < 4) : (enc32 .le v)[k] = v.extractLsb' (8 * k) 8 := by
  interval_cases k <;> rfl

theorem enc32_be_getElem (v : Word) {k : Nat} (hk : k < 4) : (enc32 .be v)[k] = v.extractLsb' (8 * (3 - k)) 8 := by
  interval_cases k <;> rfl

/-- On the first and the last counter value the two byte orders agree. -/
theorem enc32_le_eq_be {v : Word} (h : v = 0 ∨ v = 0xFFFFFFFF) : enc32 .le v = enc32 .be v := by
  rcases h with rfl | rfl <;> decide

/-- Settles O13: byte by byte, and the two orders differ in the counter bytes alone. -/
theorem counterBlockLayout : Obligations.CounterBlockLayout := by
  refine fun c order => ⟨fun j => counterBlock_getElem_nonce order c j.isLt, fun k hk => ⟨?_, ?_⟩, fun h => ?_⟩
  · rw [counterBlock_getElem_counter .le c hk, enc32_le_getElem _ hk]
  · rw [counterBlock_getElem_counter .be c hk, enc32_be_getElem _ hk]
  · simp only [counterBlock, enc32_le_eq_be h]

/-! ### Different counters (41_ctr.md R137) -/

/-- A 32-bit word is determined by its four bytes. -/
theorem word_eq_of_bytes_eq {v w : Word}
    (h : ∀ k < 4, v.extractLsb' (8 * k) 8 = w.extractLsb' (8 * k) 8) : v = w := by
  refine BitVec.eq_of_getLsbD_eq fun i hi => ?_
  have hbyte := congrArg (·.getLsbD (i % 8)) (h (i / 8) (by omega))
  simpa [Nat.mod_lt, Nat.div_add_mod] using hbyte

theorem enc32_injective (order : CtrOrder) : Function.Injective (enc32 order) := by
  intro v w h
  refine word_eq_of_bytes_eq fun k hk => ?_
  cases order with
  | le => rw [← enc32_le_getElem v hk, h, enc32_le_getElem w hk]
  | be =>
    have hk' : 3 - (3 - k) = k := by omega
    rw [← hk', ← enc32_be_getElem v (by omega : 3 - k < 4), h, enc32_be_getElem w (by omega)]

theorem counter_eq_of_counterBlock_eq {order : CtrOrder} {c d : AesCtrContext}
    (h : counterBlock order c = counterBlock order d) : c.counter = d.counter := by
  refine enc32_injective order (Vector.ext fun k hk => ?_)
  rw [← counterBlock_getElem_counter order c hk, ← counterBlock_getElem_counter order d hk, h]

/-- Settles O29: the counter bytes tell the counters apart, and a key permutes the blocks. -/
theorem ctrKeystreamsDiffer : Obligations.CtrKeystreamsDiffer := by
  intro order c d hkey _ hcounter
  have hblock : counterBlock order c ≠ counterBlock order d := mt counter_eq_of_counterBlock_eq hcounter
  rw [hkey]
  exact ⟨hblock, mt (aesPermutesBlocks d.key _ _) hblock⟩

/-! ### How a command on a slot starts, and what every command leaves alone -/

theorem onSlot_exists {s : State} {i : SlotId} (f : State → State) (h : slotExists s.cfg i = true) :
    onSlot i s f = f s :=
  if_pos h

theorem onSlot_missing {s : State} {i : SlotId} (f : State → State) (h : slotExists s.cfg i = false) :
    onSlot i s f = checkFailed 0x05 s := by
  rw [onSlot, h]
  rfl

theorem endedWith_endCommand (r : CommandResult) (s : State) : EndedWith r.code (endCommand r s) := ⟨rfl, rfl, rfl⟩

theorem performed_commandFrame (i : Instr) (s : State) : CommandFrame s (performed i s) := by
  obtain ⟨r, x, hperf, hframe⟩ := performed_shape i s
  rw [hperf, hframe]
  exact ⟨rfl, rfl, rfl, rfl, rfl, rfl⟩

theorem otherSlots_setCtr (s : State) (i : SlotId) (c : AesCtrContext) : OtherSlots s (s.setCtr i c) i := by
  intro j hj
  rw [State.slot_setCtr, if_neg hj.symm]

/-! ### `CTR.INIT` (41_ctr.md R132) -/

theorem slot_ctrLoad (i : SlotId) (s : State) :
    (ctrLoad i s).slot i =
      { s.slot i with
        ctr := { (s.slot i).ctr with
          key := keyOperand s, nonce := nonceOperand s, counter := 0, init := true } } := by
  simp [ctrLoad]

theorem keyOperand_getElem (s : State) (j : Fin 16) : (keyOperand s)[j] = s.mem.read (0x0040 + j.val) := by
  simp [keyOperand, State.kbuf, kbufBase]

theorem nonceOperand_getElem (s : State) (j : Fin 12) : (nonceOperand s)[j] = s.mem.read (0x0050 + j.val) := by
  simp [nonceOperand, State.kbuf, kbufBase, ← Nat.add_assoc]

/-- Settles O11: the fields of the slot after `ctrLoad`, and the parts of the state it does not touch. -/
theorem ctrInitRule : Obligations.CtrInitRule := by
  intro s ctx
  refine ⟨fun hslot => ?_, fun hslot => ⟨ctrLoad ctx s, ?_, endedWith_endCommand .ok _, ?_⟩⟩
  · rw [exec_eq, performed, onSlot_missing _ hslot]
  · rw [exec_eq, performed, onSlot_exists _ hslot]
  · have hframe : CommandFrame s (ctrLoad ctx s) := by
      simpa only [performed, onSlot_exists _ hslot] using performed_commandFrame (.ctrInit ctx) s
    rw [slot_ctrLoad]
    exact ⟨keyOperand_getElem s, nonceOperand_getElem s, rfl, rfl, rfl, rfl, otherSlots_setCtr s ctx _,
      fun _ => rfl, rfl, rfl, rfl, hframe⟩

/-! ### `CTR.CRYPT`: its output (41_ctr.md R133, R134) -/

theorem length_ctrOutput {data : List Byte} (ks : Block) (h : data.length ≤ 16) :
    (ctrOutput data ks).length = data.length := by
  simpa [ctrOutput] using h

theorem ctrOutput_getElem (data : List Byte) (ks : Block) {j : Nat} (hj : j < (ctrOutput data ks).length)
    (hd : j < data.length) (hk : j < 16) : (ctrOutput data ks)[j] = data[j] ^^^ ks[j] := by
  simp [ctrOutput]

/-- The same keystream twice cancels. -/
theorem ctrOutput_ctrOutput {data : List Byte} (ks : Block) (h : data.length ≤ 16) :
    ctrOutput (ctrOutput data ks) ks = data := by
  have hlen := length_ctrOutput ks h
  refine List.ext_getElem ((length_ctrOutput ks (by omega)).trans hlen) fun j hj hd => ?_
  rw [ctrOutput_getElem _ ks hj (by omega) (by omega), ctrOutput_getElem data ks (by omega) hd (by omega),
    BitVec.xor_assoc, BitVec.xor_self, BitVec.xor_zero]

theorem Memory.readBytes_writeBytes {m : Memory} (a : Nat) (bs : List Byte) (h : m.wf = true) :
    (m.writeBytes a bs).readBytes a bs.length = bs := by
  refine List.ext_getElem (Memory.length_readBytes _ _ _) fun j hj hb => ?_
  rw [Memory.getElem_readBytes, Memory.read_writeBytes_inside bs m a j hb h]

theorem length_dataOperand (s : State) (n : Nat) : (dataOperand s n).length = n := Memory.length_readBytes _ _ _

/-! ### `CTR.CRYPT`: its cases (41_ctr.md R133, 60_exceptions.md R266) -/

/-- The keystream block of a slot's key, nonce and counter (41_ctr.md R133). -/
def ctrKeystream (i : SlotId) (s : State) : Block :=
  aes128 (s.slot i).ctr.key (counterBlock s.cfg.ctrOrder (s.slot i).ctr)

/-- The state `CTR.CRYPT` leaves when the oracle succeeds. -/
def ctrCrypted (i : SlotId) (n : Nat) (s : State) : State :=
  endCommand .ok (storeResult (ctrOutput (dataOperand s n) (ctrKeystream i s))
    ((s.setCtr i { (s.slot i).ctr with keystream := ctrKeystream i s }).setOracle (s.oracle.skip 1)))

theorem FailsAt.head {o : OracleInput} {e : OracleError} (h : FailsAt o 0 e) : o.nextDraw = e.draw := h.2

theorem ctrApply_of_length {n : Nat} (i : SlotId) (s : State) (hn : 16 < n) :
    ctrApply i n s = checkFailed 0x03 s :=
  if_pos hn

section Initialised

variable {i : SlotId} {n : Nat} {s : State} (hn : n ≤ 16)
include hn

theorem ctrApply_of_uninitialised (hi : (s.slot i).ctr.init = false) : ctrApply i n s = checkFailed 0x06 s := by
  rw [ctrApply, if_neg hn.not_gt, hi]
  rfl

theorem ctrApply_of_oracleError {e : OracleError} (hi : (s.slot i).ctr.init = true) (hd : FailsAt s.oracle 0 e) :
    ctrApply i n s = endCommand (.oracleFailure e) (s.setOracle (s.oracle.skip 1)) := by
  simp [ctrApply, hn.not_gt, hi, invoke_error _ _ hd.head, OracleInput.skip_one]

theorem ctrApply_of_oracleOk (hi : (s.slot i).ctr.init = true) (hd : OkFor s.oracle 1) :
    ctrApply i n s = ctrCrypted i n s := by
  simp [ctrApply, hn.not_gt, hi, invoke_ok _ _ hd.head, OracleInput.skip_one, ctrCrypted, ctrKeystream]

end Initialised

theorem exec_ctrCrypt_missing {s : State} {ctx : SlotId} (ilen : BitVec 12) (h : slotExists s.cfg ctx = false) :
    exec (.ctrCrypt ctx ilen) s = .next (checkFailed 0x05 s) := by
  rw [exec_eq, performed, onSlot_missing _ h]

theorem exec_ctrCrypt {s : State} {ctx : SlotId} (ilen : BitVec 12) (h : slotExists s.cfg ctx = true) :
    exec (.ctrCrypt ctx ilen) s = .next (ctrApply ctx ilen.toNat s) := by
  rw [exec_eq, performed, onSlot_exists _ h]

theorem ctrApply_commandFrame {s : State} {ctx : SlotId} (ilen : BitVec 12) (h : slotExists s.cfg ctx = true) :
    CommandFrame s (ctrApply ctx ilen.toNat s) := by
  simpa only [performed, onSlot_exists _ h] using performed_commandFrame (.ctrCrypt ctx ilen) s

/-! ### `CTR.CRYPT`: the state a success leaves -/

theorem slot_ctrCrypted (i : SlotId) (n : Nat) (s : State) :
    (ctrCrypted i n s).slot i =
      { s.slot i with ctr := { (s.slot i).ctr with keystream := ctrKeystream i s } } := by
  simp [ctrCrypted]

theorem mem_ctrCrypted (i : SlotId) (n : Nat) (s : State) :
    (ctrCrypted i n s).mem = s.mem.writeBytes obufBase (ctrOutput (dataOperand s n) (ctrKeystream i s)) := rfl

/-- A success changes nothing the keystream block of the slot is made from. -/
theorem ctrKeystream_ctrCrypted (i : SlotId) (n : Nat) (s : State) :
    ctrKeystream i (ctrCrypted i n s) = ctrKeystream i s := by
  rw [ctrKeystream, slot_ctrCrypted]
  rfl

theorem read_obuf_ctrCrypted {s : State} (i : SlotId) {n j : Nat} (hn : n ≤ 16) (hj : j < n)
    (hwf : s.mem.wf = true) :
    (ctrCrypted i n s).mem.read (obufBase + j) = s.mem.read (ibufBase + j) ^^^ (ctrKeystream i s)[j] := by
  have hdata := length_dataOperand s n
  have hlen := length_ctrOutput (ctrKeystream i s) (hdata.trans_le hn)
  have hjdata : j < (dataOperand s n).length := by omega
  have hbyte : (dataOperand s n)[j] = s.mem.read (ibufBase + j) := Memory.getElem_readBytes s.mem n ibufBase j hjdata
  rw [mem_ctrCrypted, Memory.read_writeBytes_inside _ _ _ _ (by omega) hwf,
    ctrOutput_getElem _ _ _ hjdata (by omega), hbyte]

theorem sameBytesOutside_ctrCrypted (i : SlotId) {n : Nat} (s : State) (hn : n ≤ 16) :
    SameBytesOutside s (ctrCrypted i n s) obufBase n := by
  intro a ha
  have hdata := length_dataOperand s n
  have hlen := length_ctrOutput (ctrKeystream i s) (hdata.trans_le hn)
  exact Memory.read_writeBytes_outside _ _ _ _ (by omega)

/-- Settles O12: case by case over the checks and the oracle's draw; the success by the lemmas about `ctrCrypted`. -/
theorem ctrCryptRule : Obligations.CtrCryptRule := by
  intro s ctx ilen
  refine ⟨exec_ctrCrypt_missing ilen, fun hslot hlen => ?_, fun hslot hlen hinit => ?_,
    fun hslot hlen hinit e hfail => ?_, fun hslot hlen hinit hok hwf => ?_⟩
  · rw [exec_ctrCrypt ilen hslot, ctrApply_of_length ctx s hlen]
  · rw [exec_ctrCrypt ilen hslot, ctrApply_of_uninitialised hlen hinit]
  · have hframe := ctrApply_commandFrame ilen hslot
    rw [exec_ctrCrypt ilen hslot]
    rw [ctrApply_of_oracleError hlen hinit hfail] at hframe ⊢
    exact ⟨_, rfl, code_oracleFailure e ▸ endedWith_endCommand _ _, rfl, fun _ => rfl, fun _ => rfl, rfl, rfl, hframe⟩
  · have hframe := ctrApply_commandFrame ilen hslot
    rw [exec_ctrCrypt ilen hslot]
    rw [ctrApply_of_oracleOk hlen hinit hok] at hframe ⊢
    refine ⟨_, ctrKeystream ctx s, rfl, endedWith_endCommand .ok _, rfl,
      fun j hj => read_obuf_ctrCrypted ctx hlen hj hwf, sameBytesOutside_ctrCrypted ctx s hlen, ?_⟩
    rw [slot_ctrCrypted]
    exact ⟨rfl, rfl, otherSlots_setCtr s ctx _, rfl, rfl, rfl, hframe⟩

/-! ### `CTR.CRYPT` on loaded data (41_ctr.md R134) -/

theorem dataOperand_loadInput {s : State} (data : List Byte) (hwf : s.mem.wf = true) :
    dataOperand (loadInput data s) data.length = data :=
  Memory.readBytes_writeBytes ibufBase data hwf

theorem wf_loadInput {s : State} (data : List Byte) (hwf : s.mem.wf = true) : (loadInput data s).mem.wf = true :=
  Memory.wf_writeBytes data ibufBase hwf

theorem wf_ctrCrypted {s : State} (i : SlotId) (n : Nat) (hwf : s.mem.wf = true) :
    (ctrCrypted i n s).mem.wf = true :=
  Memory.wf_writeBytes _ obufBase hwf

/-- After `put IBUF+0, data` and a successful `CTR.CRYPT`, `OBUF` holds the data xor the keystream. -/
theorem readBytes_obuf_ctrCrypted {s : State} (i : SlotId) {n : Nat} {data : List Byte} (hdata : data.length = n)
    (hn : n ≤ 16) (hwf : s.mem.wf = true) :
    (ctrCrypted i n (loadInput data s)).mem.readBytes obufBase n = ctrOutput data (ctrKeystream i s) := by
  subst hdata
  have hread := Memory.readBytes_writeBytes obufBase (ctrOutput data (ctrKeystream i s)) (wf_loadInput data hwf)
  rw [length_ctrOutput _ hn] at hread
  rw [mem_ctrCrypted, dataOperand_loadInput data hwf]
  exact hread

/-- A successful `CTR.CRYPT` after `put IBUF+0, data`: its output, and what a second command on the slot finds. -/
theorem exec_ctrCrypt_loadInput {s : State} {ctx : SlotId} {ilen : BitVec 12} {data : List Byte}
    (hslot : slotExists s.cfg ctx = true) (hinit : (s.slot ctx).ctr.init = true) (hlen : ilen.toNat ≤ 16)
    (hdata : data.length = ilen.toNat) (hwf : s.mem.wf = true) (hok : OkFor s.oracle 1) :
    ∃ t, exec (.ctrCrypt ctx ilen) (loadInput data s) = .next t ∧ EndedWith 0x00 t ∧
      t.mem.readBytes 0x2000 ilen.toNat = ctrOutput data (ctrKeystream ctx s) ∧ t.mem.wf = true ∧
      t.cfg = s.cfg ∧ t.oracle = s.oracle.skip 1 ∧ (t.slot ctx).ctr.init = true ∧
      ctrKeystream ctx t = ctrKeystream ctx s := by
  refine ⟨ctrCrypted ctx ilen.toNat (loadInput data s), ?_, endedWith_endCommand .ok _,
    readBytes_obuf_ctrCrypted ctx hdata hlen hwf, wf_ctrCrypted ctx _ (wf_loadInput data hwf), rfl, rfl, ?_,
    ctrKeystream_ctrCrypted ctx _ (loadInput data s)⟩
  · rw [exec_ctrCrypt ilen (s := loadInput data s) hslot, ctrApply_of_oracleOk (s := loadInput data s) hlen hinit hok]
  · rw [slot_ctrCrypted]
    exact hinit

/-- Settles O27: the second command uses the keystream block of the first, and the two cancel. -/
theorem ctrInvolution : Obligations.CtrInvolution := by
  intro s ctx ilen data hslot hinit hlen hdata hwf hok
  obtain ⟨hokFirst, hokSecond⟩ := (okFor_add (m := 1) (n := 1)).1 hok
  obtain ⟨t, hexec, hended, hout, hwfT, hcfg, horacle, hinitT, hkeystream⟩ :=
    exec_ctrCrypt_loadInput hslot hinit hlen hdata hwf hokFirst
  obtain ⟨u, hexecU, hendedU, houtU, -⟩ :=
    exec_ctrCrypt_loadInput (s := t) (hcfg ▸ hslot) hinitT hlen (Memory.length_readBytes t.mem _ 0x2000) hwfT
      (horacle ▸ hokSecond)
  refine ⟨t, u, hexec, hended, hexecU, hendedU, ?_⟩
  rw [houtU, hout, hkeystream, ctrOutput_ctrOutput _ (hdata.trans_le hlen)]

end Sys2Proof.Machine

/-! ## CMAC: `double` as a shift of the 128-bit number, and the padded block -/

namespace Sys2Proof.Machine

/-! ### The padded block (42_cmac.md R157) -/

theorem padBlock_getElem (acc : Block) (p : Nat) {k : Nat} (hk : k < 16) :
    (padBlock acc p)[k] = if k < p then acc[k] else if k = p then 0x80 else 0x00 := by
  simp [padBlock]

/-- Bytes from index `p` on are stale: they are not read. -/
theorem padBlock_congr {acc acc' : Block} {p : Nat} (h : ∀ (k : Nat) (hk : k < 16), k < p → acc[k] = acc'[k]) :
    padBlock acc p = padBlock acc' p := by
  refine Vector.ext fun k hk => ?_
  rw [padBlock_getElem acc p hk, padBlock_getElem acc' p hk]
  split
  · next hkp => exact h k hk hkp
  · rfl

/-- Settles O33: the layout byte by byte, and only bytes below `p` are read. -/
theorem padLayout : Obligations.PadLayout :=
  fun acc _ p _ => ⟨fun j => padBlock_getElem acc p j.isLt, fun h => padBlock_congr fun k hk => h ⟨k, hk⟩⟩

/-! ### `double` as a shift (42_cmac.md R152) -/

/-- The number the first `j` bytes of a block make, byte 0 most significant. -/
def leadingNumber (x : Block) (j : Nat) : Nat := (x.toList.take j).foldl (fun n b => 256 * n + b.toNat) 0

theorem leadingNumber_zero (x : Block) : leadingNumber x 0 = 0 := rfl

theorem leadingNumber_succ (x : Block) {j : Nat} (hj : j < 16) :
    leadingNumber x (j + 1) = 256 * leadingNumber x j + x[j].toNat := by
  have htake : x.toList.take (j + 1) = x.toList.take j ++ [x[j]] := by
    simp [List.take_add_one, hj]
  rw [leadingNumber, htake, List.foldl_append]
  rfl

theorem leadingNumber_all (x : Block) : leadingNumber x 16 = blockNumber x := by
  have hall : x.toList.take 16 = x.toList := List.take_of_length_le (by simp)
  rw [leadingNumber, hall, blockNumber]

/-- The first byte is what is left when all bytes behind it are shifted out. -/
theorem leadingNumber_succ_div (x : Block) : ∀ {j : Nat}, j < 16 → leadingNumber x (j + 1) / 256 ^ j = x[0].toNat
  | 0, hj => by simp [leadingNumber_succ x hj, leadingNumber_zero]
  | j + 1, hj => by
    have hbyte := x[j + 1].isLt
    have hshift : leadingNumber x (j + 2) / 256 = leadingNumber x (j + 1) := by
      rw [leadingNumber_succ x hj]
      omega
    rw [Nat.pow_succ', ← Nat.div_div_eq_div_mul, hshift, leadingNumber_succ_div x (by omega)]

/-- The top bit of the block is the top bit of its first byte. -/
theorem two_pow_127_le_blockNumber_iff (x : Block) : 2 ^ 127 ≤ blockNumber x ↔ x[0].getLsbD 7 = true := by
  have hfirst : blockNumber x / 256 ^ 15 = x[0].toNat := leadingNumber_all x ▸ leadingNumber_succ_div x (by omega)
  have hbyte := x[0].isLt
  rw [← BitVec.testBit_toNat, Nat.testBit_eq_decide_div_mod_eq, decide_eq_true_iff, ← hfirst]
  omega

/-- A shift by one bit, one digit of base 256 at a time: the digit's own top bit goes to the digits before it, and `c`
comes in from the digit behind it. -/
theorem two_mul_digit_mod (n M b : Nat) {c : Nat} (hc : c ≤ 1) :
    (2 * (256 * n + b) + c) % (256 * M) = 256 * ((2 * n + b / 128) % M) + (2 * b % 256 + c) := by
  have hmod : (2 * (256 * n + b) + c) % 256 = 2 * b % 256 + c := by omega
  have hdiv : (2 * (256 * n + b) + c) / 256 = 2 * n + b / 128 := by omega
  rw [Nat.mod_mul, hmod, hdiv, Nat.add_comm]

/-- A byte shifted left with the top bit of the next one shifted in. -/
theorem toNat_shiftLeft_or_top (a b : Byte) :
    ((a <<< 1) ||| (b >>> 7)).toNat = 2 * a.toNat % 256 + b.toNat / 128 := by
  have hcarry : b.toNat / 128 < 2 ^ 1 := by omega
  have hshift : 2 * a.toNat % 256 = 2 ^ 1 * (a.toNat % 128) := by omega
  rw [hshift, Nat.two_pow_add_eq_or_of_lt hcarry, ← hshift]
  simp [Nat.shiftLeft_eq, Nat.shiftRight_eq_div_pow, Nat.mul_comm]

theorem double_getElem (x : Block) {j : Nat} (hj : j < 15) : (double x)[j] = (x[j] <<< 1) ||| (x[j + 1] >>> 7) := by
  simp [double, hj]

theorem double_getElem_last (x : Block) :
    (double x)[15] = (x[15] <<< 1) ^^^ (if x[0].getLsbD 7 then 0x87 else 0x00) := by
  simp [double]

/-- The bytes before the last are the shifted number without its carry out. -/
theorem leadingNumber_double (x : Block) : ∀ {j : Nat} (hj : j < 16),
    leadingNumber (double x) j = (2 * leadingNumber x j + x[j].toNat / 128) % 256 ^ j
  | 0, _ => by simp [leadingNumber_zero, Nat.mod_one]
  | j + 1, hj => by
    have hcarry : x[j + 1].toNat / 128 ≤ 1 := by omega
    rw [leadingNumber_succ (double x) (by omega), leadingNumber_double x (by omega : j < 16),
      double_getElem x (by omega), toNat_shiftLeft_or_top, leadingNumber_succ x (by omega), Nat.pow_succ',
      two_mul_digit_mod _ _ _ hcarry]

/-- An exclusive-or with a byte changes the last digit of base 256 alone. -/
theorem digits_xor (n : Nat) {b r : Nat} (hb : b < 256) (hr : r < 256) :
    (256 * n + b) ^^^ r = 256 * n + (b ^^^ r) := by
  have hlow : ((256 * n + b) ^^^ r) % 2 ^ 8 = b ^^^ r := by
    rw [Nat.xor_mod_two_pow, Nat.mod_eq_of_lt (show r < 2 ^ 8 from hr)]
    congr 1
    omega
  have hhigh : ((256 * n + b) ^^^ r) / 2 ^ 8 = n := by
    rw [Nat.xor_div_two_pow, Nat.div_eq_of_lt (show r < 2 ^ 8 from hr), Nat.xor_zero]
    omega
  omega

/-- Settles O32: `leadingNumber_double` for the first 15 bytes, and the reduction touches the last byte alone. -/
theorem doubleShiftsNumber : Obligations.DoubleShiftsNumber := by
  intro x
  have hshifted : 2 * blockNumber x % 2 ^ 128 = 256 * leadingNumber (double x) 15 + 2 * x[15].toNat % 256 := by
    have hdigits := two_mul_digit_mod (leadingNumber x 15) (256 ^ 15) x[15].toNat (Nat.zero_le 1)
    rwa [← leadingNumber_double x (by omega), ← leadingNumber_succ x (by omega), leadingNumber_all] at hdigits
  have hlast : (double x)[15].toNat = (2 * x[15].toNat % 256) ^^^ (if 2 ^ 127 ≤ blockNumber x then 0x87 else 0) := by
    rw [double_getElem_last, BitVec.toNat_xor, BitVec.toNat_shiftLeft, Nat.shiftLeft_eq, Nat.mul_comm]
    simp only [two_pow_127_le_blockNumber_iff]
    split <;> rfl
  rw [hshifted, digits_xor _ (Nat.mod_lt _ (by omega)) (by split <;> omega), ← hlast,
    ← leadingNumber_succ (double x) (by omega), leadingNumber_all]

end Sys2Proof.Machine

/-! ## CMAC: what a context holds after a stream of bytes, and the closed form of the tag -/

namespace Sys2Proof.Machine

/-! ### Blocks and byte strings -/

theorem blockXor_comm (a b : Block) : blockXor a b = blockXor b a := by
  ext i hi : 1
  simp [blockXor, BitVec.xor_comm]

theorem blockXor_zeroBlock (a : Block) : blockXor a zeroBlock = a := by
  ext i hi : 1
  simp [blockXor, zeroBlock]

theorem blockOfBytes_getElem (bs : List Byte) {k : Nat} (hk : k < 16) : (blockOfBytes bs)[k] = bs.getD k 0 := by
  simp [blockOfBytes]

theorem blockOfBytes_congr {bs cs : List Byte} (h : bs.take 16 = cs.take 16) : blockOfBytes bs = blockOfBytes cs := by
  refine Vector.ext fun k hk => ?_
  have hbyte := congrArg (·.getD k 0) h
  simpa [blockOfBytes_getElem, List.getD_eq_getElem?_getD, List.getElem?_take, hk] using hbyte

/-- A message block that is complete does not change when bytes follow. -/
theorem messageBlock_append {m : List Byte} (bs : List Byte) {j : Nat} (h : 16 * (j + 1) ≤ m.length) :
    messageBlock (m ++ bs) j = messageBlock m j := by
  refine blockOfBytes_congr ?_
  rw [List.drop_append_of_le_length (by omega), List.take_append_of_le_length (by rw [List.length_drop]; omega)]

/-- Blocks that are chained in do not change when bytes follow. -/
theorem macChain_append (k x0 : Block) {m : List Byte} (bs : List Byte) :
    ∀ {f : Nat}, 16 * f ≤ m.length → macChain k x0 (m ++ bs) f = macChain k x0 m f
  | 0, _ => rfl
  | f + 1, h => by
    rw [macChain, macChain, macChain_append k x0 bs (by omega), messageBlock_append bs h]

/-! ### The buffer and the chaining value of a context (10_state.md R26, 42_cmac.md R151) -/

theorem partialLength_eq_sixteen_iff (c : CmacContext) : c.partialLength = 16 ↔ c.partialLength.toNat = 16 :=
  (BitVec.toNat_inj (y := 16)).symm

theorem length_buffered {c : CmacContext} (h : c.partialLength.toNat ≤ 16) :
    c.buffered.length = c.partialLength.toNat := by
  simpa [CmacContext.buffered] using h

/-- The buffer as a block: its valid bytes are those buffered. -/
theorem blockOfBytes_buffered_getElem (c : CmacContext) {k : Nat} (hk : k < 16) (hlt : k < c.partialLength.toNat) :
    (blockOfBytes c.buffered)[k] = c.acc[k] := by
  simp [blockOfBytes_getElem, CmacContext.buffered, List.getD_eq_getElem?_getD, hk, hlt]

theorem blockOfBytes_buffered {c : CmacContext} (h : c.partialLength.toNat = 16) :
    blockOfBytes c.buffered = c.acc :=
  Vector.ext fun _ hk => blockOfBytes_buffered_getElem c hk (by omega)

theorem padBlock_buffered (c : CmacContext) :
    padBlock (blockOfBytes c.buffered) c.partialLength.toNat = padBlock c.acc c.partialLength.toNat :=
  padBlock_congr fun _ hk hlt => blockOfBytes_buffered_getElem c hk hlt

/-- To leave the chaining value out before the first fold is to start from `0^16`. -/
theorem blockXor_chainValue (c : CmacContext) (m : Block) :
    blockXor c.chainValue m = if c.multiblock then blockXor m c.prev else m := by
  rw [blockXor_comm, CmacContext.chainValue]
  split
  · rfl
  · exact blockXor_zeroBlock m

theorem foldInput_eq {c : CmacContext} (h : c.partialLength.toNat = 16) :
    foldInput c = blockXor c.chainValue (blockOfBytes c.buffered) := by
  rw [blockXor_chainValue, blockOfBytes_buffered h, foldInput]

/-- The last block of the bytes buffered, read off the buffer (42_cmac.md R158). -/
theorem lastBlock_buffered {c : CmacContext} (h : c.partialLength.toNat ≤ 16) :
    lastBlock c.key1 c.key2 c.buffered =
      if c.partialLength.toNat = 16 then blockXor c.acc c.key1
      else blockXor (padBlock c.acc c.partialLength.toNat) c.key2 := by
  rw [lastBlock, length_buffered h, padBlock_buffered]
  split
  · next hfull => rw [blockOfBytes_buffered hfull]
  · rfl

theorem finishInput_eq {c : CmacContext} (h : c.partialLength.toNat ≤ 16) :
    finishInput c = blockXor c.chainValue (lastBlock c.key1 c.key2 c.buffered) := by
  rw [blockXor_chainValue, lastBlock_buffered h]
  simp only [finishInput, partialLength_eq_sixteen_iff]

/-! ### Room for a byte, and the byte -/

theorem macRoomMade_of_full {c : CmacContext} (h : c.partialLength.toNat = 16) :
    macRoomMade c = { c with prev := aes128 c.key (foldInput c), multiblock := true, partialLength := 0 } :=
  if_pos ((partialLength_eq_sixteen_iff c).2 h)

theorem macRoomMade_of_not_full {c : CmacContext} (h : c.partialLength.toNat ≠ 16) : macRoomMade c = c :=
  if_neg (mt (partialLength_eq_sixteen_iff c).1 h)

theorem push_buffered {c : CmacContext} (h : c.partialLength.toNat ≤ 15) (b : Byte) :
    (c.push b).buffered = c.buffered ++ [b] := by
  rw [CmacContext.buffered, push_partialLength h b, CmacContext.buffered]
  refine List.ext_getElem (by simp; omega) fun k hk _ => ?_
  have hle : k ≤ c.partialLength.toNat := by simp at hk; omega
  rcases Nat.lt_or_eq_of_le hle with hlt | rfl
  · rw [List.getElem_append_left (by simp; omega)]
    simp [CmacContext.push, Nat.ne_of_gt hlt]
  · rw [List.getElem_append_right (by simp)]
    simp [CmacContext.push]

theorem macUpdated_concat (c : CmacContext) (bs : List Byte) (b : Byte) :
    macUpdated c (bs ++ [b]) = (macRoomMade (macUpdated c bs)).push b :=
  macUpdated_append bs [b] c

theorem macUpdateFolds_concat (c : CmacContext) (bs : List Byte) (b : Byte) :
    macUpdateFolds c (bs ++ [b]) =
      macUpdateFolds c bs + if (macUpdated c bs).partialLength.toNat = 16 then 1 else 0 := by
  simp only [macUpdateFolds_append bs [b] c, macUpdateFolds, partialLength_eq_sixteen_iff, Nat.add_zero]

/-! ### A context after a stream of bytes (42_cmac.md R155, R156) -/

/-- `d` is the context that `c` becomes when the stream `m`, which starts with the bytes buffered in `c`, has gone
through its buffer and `f` full blocks of `m` have been folded. -/
structure Absorbed (c : CmacContext) (m : List Byte) (f : Nat) (d : CmacContext) : Prop where
  le_sixteen : d.partialLength.toNat ≤ 16
  length : m.length = 16 * f + d.partialLength.toNat
  buffered : d.buffered = m.drop (16 * f)
  multiblock : d.multiblock = (c.multiblock || decide (1 ≤ f))
  chainValue : d.chainValue = macChain c.key c.chainValue m f
  prev : f = 0 → d.prev = c.prev
  key : d.key = c.key

theorem absorbed_start {c : CmacContext} (h : c.partialLength.toNat ≤ 16) : Absorbed c c.buffered 0 c where
  le_sixteen := h
  length := by simp [length_buffered h]
  buffered := rfl
  multiblock := by simp
  chainValue := rfl
  prev _ := rfl
  key := rfl

namespace Absorbed

variable {c d : CmacContext} {m : List Byte} {f : Nat}

/-- The fold step of a full buffer chains in the next block of the stream (42_cmac.md R155). -/
theorem fold (h : Absorbed c m f d) (hfull : d.partialLength.toNat = 16) : Absorbed c m (f + 1) (macRoomMade d) := by
  have hlength := h.length
  have hblock : blockOfBytes d.buffered = messageBlock m f := by rw [h.buffered, messageBlock]
  rw [macRoomMade_of_full hfull]
  refine ⟨by simp, by simp; omega, ?_, by simp, ?_, by simp, h.key⟩
  · rw [List.drop_of_length_le (by omega)]
    simp [CmacContext.buffered]
  · rw [CmacContext.chainValue, if_pos rfl, macChain, ← h.chainValue, ← h.key, ← hblock, foldInput_eq hfull]

theorem push (h : Absorbed c m f d) (hroom : d.partialLength.toNat ≤ 15) (b : Byte) :
    Absorbed c (m ++ [b]) f (d.push b) := by
  have hlength := h.length
  have hpush := push_partialLength hroom b
  refine ⟨by omega, by simp; omega, ?_, h.multiblock, ?_, h.prev, h.key⟩
  · rw [push_buffered hroom, h.buffered, List.drop_append_of_le_length (by omega)]
  · rw [macChain_append c.key c.chainValue [b] (by omega)]
    exact h.chainValue

/-- One byte more: a full buffer is folded only now that a byte follows it (42_cmac.md R156). -/
theorem roomMade_push (h : Absorbed c m f d) (b : Byte) :
    Absorbed c (m ++ [b]) (f + if d.partialLength.toNat = 16 then 1 else 0) ((macRoomMade d).push b) := by
  have hroom := macRoomMade_partialLength h.le_sixteen
  split
  · next hfull => exact (h.fold hfull).push hroom b
  · next hne =>
    rw [macRoomMade_of_not_full hne] at hroom ⊢
    exact h.push hroom b

end Absorbed

theorem absorbed_macUpdated {c : CmacContext} (h : c.partialLength.toNat ≤ 16) (bs : List Byte) :
    Absorbed c (c.buffered ++ bs) (macUpdateFolds c bs) (macUpdated c bs) := by
  induction bs using List.reverseRecOn with
  | nil => exact (List.append_nil _).symm ▸ absorbed_start h
  | append_singleton bs b ih =>
    rw [macUpdated_concat, macUpdateFolds_concat, ← List.append_assoc]
    exact ih.roomMade_push b

/-- After an update that brings a byte the buffer is not empty (42_cmac.md R156). -/
theorem macUpdated_partialLength_pos {c : CmacContext} (h : c.partialLength.toNat ≤ 16) {bs : List Byte}
    (hbs : bs ≠ []) : 1 ≤ (macUpdated c bs).partialLength.toNat := by
  obtain ⟨bs, b, rfl⟩ := (List.eq_nil_or_concat' bs).resolve_left hbs
  have hroom := macRoomMade_partialLength (absorbed_macUpdated h bs).le_sixteen
  rw [macUpdated_concat, push_partialLength hroom]
  omega

/-- How many bytes were buffered and brought fixes the number of folds. -/
theorem macUpdateFolds_eq {c : CmacContext} (h : c.partialLength.toNat ≤ 16) (bs : List Byte) :
    macUpdateFolds c bs = macFolds c.partialLength.toNat bs.length := by
  have hlength := (absorbed_macUpdated h bs).length
  have hle := (absorbed_macUpdated h bs).le_sixteen
  rw [List.length_append, length_buffered h] at hlength
  by_cases hbs : bs = []
  · subst hbs
    rfl
  · have hpos := macUpdated_partialLength_pos h hbs
    have hne : bs.length ≠ 0 := mt List.length_eq_zero_iff.1 hbs
    rw [macFolds, if_neg hne]
    omega

/-! ### The tag of a whole message (42_cmac.md R151, R160, R161) -/

theorem macBlocks_sub_one (n : Nat) : macBlocks n - 1 = (n + 15) / 16 - 1 := by
  unfold macBlocks
  omega

/-- Every block but the last is folded. -/
theorem macFolds_zero_eq (n : Nat) : macFolds 0 n = macBlocks n - 1 := by
  rw [macFolds, macBlocks_sub_one]
  split <;> omega

/-- The invocations of a whole MAC: one for the subkeys, the folds, one for the last block (42_cmac.md R161). -/
theorem macInvocations_eq (n : Nat) : macInvocations n = 1 + (macBlocks n - 1) + 1 := by
  have hpos : 1 ≤ macBlocks n := Nat.le_max_left _ _
  rw [macInvocations]
  omega

theorem macUpdateFolds_macInitialized (c : CmacContext) (k : Block) (m : List Byte) :
    macUpdateFolds (macInitialized c k) m = macBlocks m.length - 1 :=
  (macUpdateFolds_eq (macInv_macInitialized c k).1 m).trans (macFolds_zero_eq m.length)

/-- The whole message has gone through a context that was made ready with an empty buffer. -/
theorem absorbed_macPrepared (c : CmacContext) (k : Block) (m : List Byte) :
    Absorbed (macInitialized c k) m (macBlocks m.length - 1) (macPrepared c k m) := by
  have h := absorbed_macUpdated (macInv_macInitialized c k).1 m
  rwa [macUpdateFolds_macInitialized] at h

/-- How many bytes a prepared context has buffered, and whether it has folded, follows the message's length. -/
theorem macPrepared_lengths (c : CmacContext) (k : Block) (m : List Byte) :
    (macPrepared c k m).partialLength.toNat = (if m.length = 0 then 0 else (m.length - 1) % 16 + 1) ∧
      (macPrepared c k m).multiblock = decide (16 < m.length) := by
  have habsorbed := absorbed_macPrepared c k m
  have hlength := habsorbed.length
  have hmulti : (macPrepared c k m).multiblock = decide (1 ≤ macBlocks m.length - 1) := habsorbed.multiblock
  rw [macBlocks_sub_one] at hlength hmulti
  refine ⟨by split <;> omega, ?_⟩
  rw [hmulti]
  exact decide_eq_decide.2 (by omega)

/-- `init`, `update` and `finish` give the closed form of R151. -/
theorem macPrepared_tag (c : CmacContext) (k : Block) (m : List Byte) :
    aes128 (macPrepared c k m).key (finishInput (macPrepared c k m)) = cmac k m := by
  have habsorbed := absorbed_macPrepared c k m
  obtain ⟨hkey, hkey1, hkey2, -⟩ := macUpdated_keys m (macInitialized c k)
  have hinput : finishInput (macPrepared c k m) =
      blockXor (macChain k zeroBlock m (macBlocks m.length - 1))
        (lastBlock (double (aes128 k zeroBlock)) (double (double (aes128 k zeroBlock)))
          (m.drop (16 * (macBlocks m.length - 1)))) := by
    rw [finishInput_eq habsorbed.le_sixteen, habsorbed.chainValue, habsorbed.buffered, macPrepared, hkey1, hkey2]
    rfl
  rw [hinput, macPrepared, hkey]
  rfl

end Sys2Proof.Machine

/-! ## The CMAC commands: each of their cases, and streaming against one shot -/

namespace Sys2Proof.Machine

/-! ### How a CMAC command starts, and what it leaves alone -/

theorem exec_onSlot_missing {i : Instr} {s : State} {ctx : SlotId} {f : State → State}
    (hperformed : performed i s = onSlot ctx s f) (h : slotExists s.cfg ctx = false) :
    exec i s = .next (checkFailed 0x05 s) := by
  rw [exec_eq, hperformed, onSlot_missing f h]

section Existing

variable {s : State} {ctx : SlotId} (h : slotExists s.cfg ctx = true)
include h

theorem exec_cmacInit : exec (.cmacInit ctx) s = .next (macSlotInit ctx s) := by
  rw [exec_eq, performed, onSlot_exists _ h]

theorem exec_cmacUpdate (ilen : BitVec 12) :
    exec (.cmacUpdate ctx ilen) s = .next (macSlotUpdate ctx ilen.toNat s) := by
  rw [exec_eq, performed, onSlot_exists _ h]

theorem exec_cmacFinish : exec (.cmacFinish ctx) s = .next (macSlotFinish ctx s) := by
  rw [exec_eq, performed, onSlot_exists _ h]

end Existing

theorem exec_cmacCompute (ilen : BitVec 12) (s : State) :
    exec (.cmacCompute ilen) s = .next (macToOutput ilen.toNat s) :=
  exec_eq _ s

theorem otherSlots_setMac (s : State) (i : SlotId) (c : CmacContext) : OtherSlots s (s.setMac i c) i := by
  intro j hj
  rw [State.slot_setMac, if_neg hj.symm]

/-! ### A CMAC command that fails in the oracle (60_exceptions.md R262) -/

/-- The state a CMAC command on slot `i` leaves when its invocation `k` fails with `e`. -/
def macSlotLost (i : SlotId) (k : Nat) (e : OracleError) (s : State) : State :=
  endCommand (.oracleFailure e) ((s.loseMac i).setOracle (s.oracle.skip (k + 1)))

/-- Of the slot's CmacContext the rule fixes phase, length and `multiblock`; all else but the draws stays. -/
theorem macSlotLost_spec (i : SlotId) (k : Nat) (e : OracleError) (s : State) :
    let t := macSlotLost i k e s
    EndedWith (oracleCode e) t ∧ t.oracleFails = s.oracleFails + 1 ∧
      (t.slot i).mac.phase = .uninit ∧ (t.slot i).mac.partialLength = 0 ∧
      (t.slot i).mac.multiblock = false ∧ (t.slot i).ctr = (s.slot i).ctr ∧
      OtherSlots s t i ∧ SameBytes s t ∧ t.kctx = s.kctx ∧ t.oracle = s.oracle.skip (k + 1) ∧ CommandFrame s t := by
  have hslot : (macSlotLost i k e s).slot i = { s.slot i with mac := lostContext s.freeCount } := by
    simp [macSlotLost]
  intro t
  rw [show t.slot i = _ from hslot]
  exact ⟨code_oracleFailure e ▸ endedWith_endCommand _ _, rfl, rfl, rfl, rfl, rfl, otherSlots_setMac s i _,
    fun _ => rfl, rfl, rfl, rfl, rfl, rfl, rfl, rfl, rfl⟩

/-! ### A CMAC command that does its work on a slot -/

/-- The state a CMAC command on slot `i` leaves that does its work with `k` invocations and makes `c` of the slot's
context. -/
def macSlotDone (i : SlotId) (c : CmacContext) (k : Nat) (s : State) : State :=
  endCommand .ok ((s.setMac i c).setOracle (s.oracle.skip k))

theorem mac_macSlotDone (i : SlotId) (c : CmacContext) (k : Nat) (s : State) :
    ((macSlotDone i c k s).slot i).mac = c := by
  simp [macSlotDone]

theorem macSlotDone_frame (i : SlotId) (c : CmacContext) (k : Nat) (s : State) :
    let t := macSlotDone i c k s
    (t.slot i).ctr = (s.slot i).ctr ∧ OtherSlots s t i ∧ SameBytes s t ∧ t.kctx = s.kctx ∧
      t.oracleFails = s.oracleFails ∧ t.oracle = s.oracle.skip k ∧ CommandFrame s t :=
  ⟨ctr_setMac s i i c, otherSlots_setMac s i c, fun _ => rfl, rfl, rfl, rfl, rfl, rfl, rfl, rfl, rfl, rfl⟩

/-! ### `CMAC.INIT` (42_cmac.md R154) -/

theorem macSlotInit_of_oracleError {s : State} (i : SlotId) {e : OracleError} (h : FailsAt s.oracle 0 e) :
    macSlotInit i s = macSlotLost i 0 e s := by
  simp only [macSlotInit, (macInit_makes (s.slot i).mac (keyOperand s)).2 _ 0 e Nat.zero_lt_one h, macSlotLost]

theorem macSlotInit_of_oracleOk {s : State} (i : SlotId) (h : OkFor s.oracle 1) :
    macSlotInit i s = macSlotDone i (macInitialized (s.slot i).mac (keyOperand s)) 1 s := by
  simp only [macSlotInit, (macInit_makes (s.slot i).mac (keyOperand s)).1 _ h, macSlotDone]

/-! `acc` and `prev` are not cleared (42_cmac.md R154). -/

theorem macInitialized_acc (c : CmacContext) (k : Block) : (macInitialized c k).acc = c.acc := rfl

theorem macInitialized_prev (c : CmacContext) (k : Block) : (macInitialized c k).prev = c.prev := rfl

/-- Settles O14: the three cases of the rule, each by the state it leaves. -/
theorem cmacInitRule : Obligations.CmacInitRule := by
  intro s ctx
  refine ⟨exec_onSlot_missing rfl, fun hslot e hfail => ?_, fun hslot hok => ?_⟩
  · rw [exec_cmacInit hslot, macSlotInit_of_oracleError ctx hfail]
    exact ⟨_, rfl, macSlotLost_spec ctx 0 e s⟩
  · rw [exec_cmacInit hslot, macSlotInit_of_oracleOk ctx hok]
    refine ⟨_, keyOperand s, _, rfl, endedWith_endCommand .ok _, keyOperand_getElem s, rfl, ?_⟩
    have hframe := macSlotDone_frame ctx (macInitialized (s.slot ctx).mac (keyOperand s)) 1 s
    rw [mac_macSlotDone]
    exact ⟨rfl, rfl, rfl, macInitialized_acc _ _, macInitialized_prev _ _, rfl, rfl, rfl, hframe⟩

/-! ### `CMAC.UPDATE` (42_cmac.md R156) -/

theorem macSlotUpdate_of_range {n : Nat} (i : SlotId) {s : State} (h : s.cfg.ibufSize < n) :
    macSlotUpdate i n s = checkFailed 0x07 s :=
  if_pos h

section InRange

variable {i : SlotId} {n : Nat} {s : State} (hn : n ≤ s.cfg.ibufSize)
include hn

theorem macSlotUpdate_of_notReady (hp : (s.slot i).mac.phase ≠ .ready) : macSlotUpdate i n s = checkFailed 0x06 s := by
  rw [macSlotUpdate, if_neg hn.not_gt, if_pos hp]
  rfl

variable (hp : (s.slot i).mac.phase = .ready)
include hp

theorem macSlotUpdate_of_oracleError {k : Nat} {e : OracleError}
    (hk : k < macUpdateFolds (s.slot i).mac (dataOperand s n)) (h : FailsAt s.oracle k e) :
    macSlotUpdate i n s = macSlotLost i k e s := by
  simp only [macSlotUpdate, if_neg hn.not_gt, if_neg (not_not.2 hp),
    (macUpdate_makes (dataOperand s n) (s.slot i).mac).2 _ k e hk h, macSlotLost]

theorem macSlotUpdate_of_oracleOk (h : OkFor s.oracle (macUpdateFolds (s.slot i).mac (dataOperand s n))) :
    macSlotUpdate i n s = macSlotDone i (macUpdated (s.slot i).mac (dataOperand s n))
      (macUpdateFolds (s.slot i).mac (dataOperand s n)) s := by
  simp only [macSlotUpdate, if_neg hn.not_gt, if_neg (not_not.2 hp),
    (macUpdate_makes (dataOperand s n) (s.slot i).mac).1 _ h, macSlotDone]

end InRange

/-- The folds of a `CMAC.UPDATE` that brings `n` bytes. -/
theorem macUpdateFolds_dataOperand {s : State} {c : CmacContext} (h : c.partialLength.toNat ≤ 16) (n : Nat) :
    macUpdateFolds c (dataOperand s n) = macFolds c.partialLength.toNat n := by
  rw [macUpdateFolds_eq h, length_dataOperand]

/-- What a context that has absorbed a stream holds in `prev`: the chaining value, once a block has been folded. -/
theorem Absorbed.prev_eq {c d : CmacContext} {m : List Byte} {f : Nat} (h : Absorbed c m f d) :
    d.prev = if f = 0 then c.prev else macChain c.key c.chainValue m f := by
  split
  · next hf => exact h.prev hf
  · next hf =>
    have hfolded : d.multiblock = true := by rw [h.multiblock, decide_eq_true (by omega), Bool.or_true]
    rw [← h.chainValue, CmacContext.chainValue, if_pos hfolded]

/-- Settles O15: the checks and the oracle failure by the state they leave, the success by `absorbed_macUpdated`. -/
theorem cmacUpdateRule : Obligations.CmacUpdateRule := by
  intro s ctx ilen c p n f
  refine ⟨exec_onSlot_missing rfl, fun hslot hn => ?_, fun hslot hn hp => ?_,
    fun hslot hn hp hlen e k hk hfail => ?_, fun hslot hn hp hlen hok => ?_⟩
  · rw [exec_cmacUpdate hslot, macSlotUpdate_of_range ctx hn]
  · rw [exec_cmacUpdate hslot, macSlotUpdate_of_notReady hn hp]
  · have hfolds : macUpdateFolds c (dataOperand s n) = f := macUpdateFolds_dataOperand hlen n
    rw [← hfolds] at hk
    rw [exec_cmacUpdate hslot, macSlotUpdate_of_oracleError hn hp hk hfail]
    exact ⟨_, rfl, macSlotLost_spec ctx k e s⟩
  · have hfolds : macUpdateFolds c (dataOperand s n) = f := macUpdateFolds_dataOperand hlen n
    have hdata : (dataOperand s n).length = n := length_dataOperand s n
    have habsorbed := absorbed_macUpdated hlen (dataOperand s n)
    have hlength := habsorbed.length
    obtain ⟨hkey, hkey1, hkey2, hphase⟩ := macUpdated_keys (dataOperand s n) c
    rw [hfolds] at habsorbed hlength
    rw [List.length_append, length_buffered hlen, hdata] at hlength
    rw [exec_cmacUpdate hslot, macSlotUpdate_of_oracleOk hn hp (hfolds ▸ hok), hfolds]
    refine ⟨_, macUpdated c (dataOperand s n), _, rfl, endedWith_endCommand .ok _, ?_, rfl, ?_, fun hpos => ?_,
      habsorbed.le_sixteen, habsorbed.buffered, habsorbed.multiblock, habsorbed.prev_eq, hkey, hkey1, hkey2,
      hphase.trans hp, fun hzero => ?_, macSlotDone_frame ctx _ f s⟩
    · rw [mac_macSlotDone]
    · omega
    · exact macUpdated_partialLength_pos hlen (List.ne_nil_of_length_pos (by omega))
    · rw [List.eq_nil_of_length_eq_zero (hdata.trans hzero)]
      rfl

/-! ### A tag delivered to `OBUF` (10_state.md R32) -/

theorem read_obuf_storeTag {s : State} (tag : Block) (hwf : s.mem.wf = true) (j : Fin 16) :
    (storeResult tag.toList s).mem.read (0x2000 + j.val) = tag[j] := by
  have hj : j.val < tag.toList.length := by simp
  exact (Memory.read_writeBytes_inside tag.toList s.mem obufBase j hj hwf).trans (Vector.getElem_toList hj)

theorem sameBytesOutside_storeTag (s : State) (tag : Block) :
    SameBytesOutside s (storeResult tag.toList s) 0x2000 16 := by
  intro a ha
  exact Memory.read_writeBytes_outside _ _ _ _ (by simpa [obufBase] using ha)

/-! ### `CMAC.FINISH` (42_cmac.md R158) -/

/-- The state `CMAC.FINISH` leaves when the oracle succeeds. -/
def macSlotFinished (i : SlotId) (s : State) : State :=
  endCommand .ok (storeResult (aes128 (s.slot i).mac.key (finishInput (s.slot i).mac)).toList
    ((s.setMac i { (s.slot i).mac with phase := .finished }).setOracle (s.oracle.skip 1)))

theorem slot_macSlotFinished (i : SlotId) (s : State) :
    (macSlotFinished i s).slot i = { s.slot i with mac := { (s.slot i).mac with phase := .finished } } := by
  simp [macSlotFinished]

theorem read_obuf_macSlotFinished {s : State} (i : SlotId) (hwf : s.mem.wf = true) (j : Fin 16) :
    (macSlotFinished i s).mem.read (0x2000 + j.val) = (aes128 (s.slot i).mac.key (finishInput (s.slot i).mac))[j] :=
  read_obuf_storeTag (s := s) _ hwf j

theorem macSlotFinish_of_notReady {i : SlotId} {s : State} (hp : (s.slot i).mac.phase ≠ .ready) :
    macSlotFinish i s = checkFailed 0x06 s :=
  if_pos hp

section Ready

variable {i : SlotId} {s : State} (hp : (s.slot i).mac.phase = .ready)
include hp

theorem macSlotFinish_of_oracleError {e : OracleError} (h : FailsAt s.oracle 0 e) :
    macSlotFinish i s = macSlotLost i 0 e s := by
  simp only [macSlotFinish, if_neg (not_not.2 hp), (macFinish_makes (s.slot i).mac).2 _ 0 e Nat.zero_lt_one h,
    macSlotLost]

theorem macSlotFinish_of_oracleOk (h : OkFor s.oracle 1) : macSlotFinish i s = macSlotFinished i s := by
  simp only [macSlotFinish, if_neg (not_not.2 hp), (macFinish_makes (s.slot i).mac).1 _ h, macSlotFinished]

end Ready

/-- Settles O16: the four cases of the rule; the block given to the oracle is `finishInput`. -/
theorem cmacFinishRule : Obligations.CmacFinishRule := by
  intro s ctx c
  refine ⟨exec_onSlot_missing rfl, fun hslot hp => ?_, fun hslot hp e hfail => ?_, fun hslot hp hok hwf => ?_⟩
  · rw [exec_cmacFinish hslot, macSlotFinish_of_notReady hp]
  · rw [exec_cmacFinish hslot, macSlotFinish_of_oracleError hp hfail]
    exact ⟨_, rfl, macSlotLost_spec ctx 0 e s⟩
  · rw [exec_cmacFinish hslot, macSlotFinish_of_oracleOk hp hok]
    refine ⟨_, _, aes128 c.key (finishInput c), rfl, endedWith_endCommand .ok _, rfl, ?_,
      read_obuf_macSlotFinished ctx hwf, sameBytesOutside_storeTag s _, ?_⟩
    · simp only [finishInput, partialLength_eq_sixteen_iff]
    · rw [slot_macSlotFinished]
      exact ⟨rfl, rfl, otherSlots_setMac s ctx _, rfl, rfl, rfl, rfl, rfl, rfl, rfl, rfl, rfl⟩

/-! ### `CMAC.COMPUTE` (42_cmac.md R160, R161) -/

/-- The state a one-shot tag of `n` bytes leaves when the oracle succeeds. -/
def macComputed (n : Nat) (s : State) : State :=
  endCommand .ok (storeResult (cmac (keyOperand s) (dataOperand s n)).toList
    ((s.setKctx { macPrepared s.kctx (keyOperand s) (dataOperand s n) with phase := .finished }).setOracle
      (s.oracle.skip (macInvocations n))))

theorem read_obuf_macComputed {s : State} (n : Nat) (hwf : s.mem.wf = true) (j : Fin 16) :
    (macComputed n s).mem.read (0x2000 + j.val) = (cmac (keyOperand s) (dataOperand s n))[j] :=
  read_obuf_storeTag (s := s) _ hwf j

/-- A one-shot tag makes the invocations of R161 and has the closed form of R151, whatever its context held. -/
theorem macOneShot_makes_cmac (c : CmacContext) (k : Block) (m : List Byte) :
    Makes (fun o => macOneShot o c k m) (macInvocations m.length)
      (cmac k m, { macPrepared c k m with phase := .finished }) := by
  rw [← macPrepared_tag c k m, macInvocations_eq, Nat.add_assoc, ← macUpdateFolds_macInitialized c k m]
  exact macOneShot_makes c k m

theorem macToOutput_of_range {n : Nat} {s : State} (h : s.cfg.ibufSize < n) :
    macToOutput n s = checkFailed 0x07 s :=
  if_pos h

section OneShot

variable {n : Nat} {s : State} (hn : n ≤ s.cfg.ibufSize)
include hn

theorem macToOutput_of_oracleError {k : Nat} {e : OracleError} (hk : k < macInvocations n)
    (h : FailsAt s.oracle k e) :
    macToOutput n s = endCommand (.oracleFailure e) (s.loseKctx.setOracle (s.oracle.skip (k + 1))) := by
  have hmakes := macOneShot_makes_cmac s.kctx (keyOperand s) (dataOperand s n)
  rw [length_dataOperand] at hmakes
  simp only [macToOutput, if_neg hn.not_gt, hmakes.2 _ k e hk h]

theorem macToOutput_of_oracleOk (h : OkFor s.oracle (macInvocations n)) : macToOutput n s = macComputed n s := by
  have hmakes := macOneShot_makes_cmac s.kctx (keyOperand s) (dataOperand s n)
  rw [length_dataOperand] at hmakes
  simp only [macToOutput, if_neg hn.not_gt, hmakes.1 _ h, macComputed]

end OneShot

/-- Settles O17: the three cases of the rule, the tag by `macOneShot_makes_cmac`. -/
theorem cmacComputeRule : Obligations.CmacComputeRule := by
  intro s ilen
  refine ⟨fun hn => ?_, fun hn e k hk hfail => ?_, fun hn hok hwf => ?_⟩
  · rw [exec_cmacCompute, macToOutput_of_range hn]
  · rw [exec_cmacCompute, macToOutput_of_oracleError hn hk hfail]
    exact ⟨_, rfl, code_oracleFailure e ▸ endedWith_endCommand _ _, rfl, fun _ => rfl, fun _ => rfl, rfl,
      rfl, rfl, rfl, rfl, rfl, rfl⟩
  · rw [exec_cmacCompute, macToOutput_of_oracleOk hn hok]
    exact ⟨_, keyOperand s, rfl, endedWith_endCommand .ok _, keyOperand_getElem s,
      read_obuf_macComputed _ hwf, sameBytesOutside_storeTag s _, fun _ => rfl, rfl, rfl,
      rfl, rfl, rfl, rfl, rfl, rfl⟩

/-! ### Streaming a message in pieces (42_cmac.md R159) -/

theorem runCommand_of_exec {i : Instr} {s t : State} (h : exec i s = .next t) : runCommand i s = t := by
  rw [runCommand, h]

/-- `u` is a state in which the bytes `m` have gone through the context of slot `ctx` of `s`, every fold succeeding. -/
structure StreamedTo (ctx : SlotId) (m : List Byte) (s u : State) : Prop where
  cfg : u.cfg = s.cfg
  wf : u.mem.wf = true
  mac : (u.slot ctx).mac = macUpdated (s.slot ctx).mac m
  oracle : u.oracle = s.oracle.skip (macUpdateFolds (s.slot ctx).mac m)

theorem StreamedTo.trans {ctx : SlotId} {m m' : List Byte} {s t u : State} (h : StreamedTo ctx m s t)
    (h' : StreamedTo ctx m' t u) : StreamedTo ctx (m ++ m') s u where
  cfg := h'.cfg.trans h.cfg
  wf := h'.wf
  mac := by rw [h'.mac, h.mac, macUpdated_append]
  oracle := by rw [h'.oracle, h.oracle, h.mac, OracleInput.skip_skip, macUpdateFolds_append]

/-- One piece: loaded and given to `CMAC.UPDATE`. -/
theorem streamedTo_cmacUpdate {s : State} {ctx : SlotId} {m : List Byte}
    (hslot : slotExists s.cfg ctx = true) (hwf : s.mem.wf = true) (hm : m.length ≤ s.cfg.ibufSize)
    (hp : (s.slot ctx).mac.phase = .ready) (hok : OkFor s.oracle (macUpdateFolds (s.slot ctx).mac m)) :
    StreamedTo ctx m s (runCommand (.cmacUpdate ctx (BitVec.ofNat 12 m.length)) (loadInput m s)) := by
  have hcfg := s.cfg.ibufSize_le
  have hlen : (BitVec.ofNat 12 m.length).toNat = m.length := by
    rw [BitVec.toNat_ofNat]
    omega
  have hdata := dataOperand_loadInput m hwf
  have hdone := macSlotUpdate_of_oracleOk (i := ctx) (s := loadInput m s) hm hp (by rw [hdata]; exact hok)
  rw [hdata] at hdone
  have hexec := exec_cmacUpdate (s := loadInput m s) hslot (BitVec.ofNat 12 m.length)
  rw [hlen, hdone] at hexec
  rw [runCommand_of_exec hexec]
  exact ⟨rfl, wf_loadInput m hwf, mac_macSlotDone ctx _ _ _, rfl⟩

/-- The pieces one after the other do to the slot's context what the whole message would. -/
theorem streamedTo_streamUpdates {ctx : SlotId} : ∀ (pieces : List (List Byte)) {s : State},
    slotExists s.cfg ctx = true → s.mem.wf = true → (∀ m ∈ pieces, m.length ≤ s.cfg.ibufSize) →
    (s.slot ctx).mac.phase = .ready → OkFor s.oracle (macUpdateFolds (s.slot ctx).mac pieces.flatten) →
      StreamedTo ctx pieces.flatten s (streamUpdates ctx pieces s)
  | [], _, _, hwf, _, _, _ => ⟨rfl, hwf, rfl, rfl⟩
  | m :: ms, s, hslot, hwf, hpieces, hp, hok => by
    obtain ⟨hm, hms⟩ := List.forall_mem_cons.1 hpieces
    rw [List.flatten_cons, macUpdateFolds_append] at hok
    obtain ⟨hokFirst, hokRest⟩ := okFor_add.1 hok
    obtain ⟨-, -, -, hphase⟩ := macUpdated_keys m (s.slot ctx).mac
    have hfirst := streamedTo_cmacUpdate hslot hwf hm hp hokFirst
    exact hfirst.trans (streamedTo_streamUpdates ms (hfirst.cfg ▸ hslot) hfirst.wf (hfirst.cfg ▸ hms)
      (by rw [hfirst.mac, hphase, hp]) (by rw [hfirst.mac, hfirst.oracle]; exact hokRest))

/-- `CMAC.INIT` and then the pieces of a message: the slot's context is one that `CMAC.COMPUTE` would finish. -/
theorem streamUpdates_runCommand_cmacInit {s : State} {ctx : SlotId} {pieces : List (List Byte)}
    (hslot : slotExists s.cfg ctx = true) (hwf : s.mem.wf = true) (hpieces : ∀ m ∈ pieces, m.length ≤ s.cfg.ibufSize)
    (hok : OkFor s.oracle (1 + (macBlocks pieces.flatten.length - 1))) :
    let u := streamUpdates ctx pieces (runCommand (.cmacInit ctx) s)
    u.cfg = s.cfg ∧ u.mem.wf = true ∧
      (u.slot ctx).mac = macPrepared (s.slot ctx).mac (keyOperand s) pieces.flatten ∧
      u.oracle = s.oracle.skip (1 + (macBlocks pieces.flatten.length - 1)) := by
  obtain ⟨hokInit, hokRest⟩ := okFor_add.1 hok
  have hexec := exec_cmacInit hslot
  rw [macSlotInit_of_oracleOk ctx hokInit] at hexec
  rw [runCommand_of_exec hexec]
  have hmac := mac_macSlotDone ctx (macInitialized (s.slot ctx).mac (keyOperand s)) 1 s
  obtain ⟨hcfgU, hwfU, hmacU, horacleU⟩ := streamedTo_streamUpdates (ctx := ctx) pieces
    (s := macSlotDone ctx (macInitialized (s.slot ctx).mac (keyOperand s)) 1 s)
    hslot hwf hpieces (by rw [hmac]; rfl) (by rw [hmac, macUpdateFolds_macInitialized]; exact hokRest)
  rw [hmac] at hmacU horacleU
  rw [macUpdateFolds_macInitialized] at horacleU
  exact ⟨hcfgU, hwfU, hmacU, horacleU.trans (OracleInput.skip_skip s.oracle 1 _)⟩

theorem keyOperand_eq {s : State} {k : Block} (h : ∀ j : Fin 16, k[j] = s.mem.read (0x0040 + j.val)) :
    keyOperand s = k :=
  Vector.ext fun j hj => (keyOperand_getElem s ⟨j, hj⟩).trans (h ⟨j, hj⟩).symm

/-- `CMAC.COMPUTE` on key and message given by their bytes, every invocation succeeding. -/
theorem exec_cmacCompute_tag {s : State} {ilen : BitVec 12} {k : Block} {m : List Byte} (hlen : ilen.toNat = m.length)
    (hn : m.length ≤ s.cfg.ibufSize) (hwf : s.mem.wf = true)
    (hkey : ∀ j : Fin 16, k[j] = s.mem.read (0x0040 + j.val)) (hdata : s.mem.readBytes 0x1000 m.length = m)
    (hok : OkFor s.oracle (macInvocations m.length)) :
    ∃ t, exec (.cmacCompute ilen) s = .next t ∧ ∀ j : Fin 16, t.mem.read (0x2000 + j.val) = (cmac k m)[j] := by
  refine ⟨macComputed m.length s, ?_, fun j => ?_⟩
  · rw [exec_cmacCompute, hlen, macToOutput_of_oracleOk hn hok]
  · have hmessage : dataOperand s m.length = m := hdata
    rw [read_obuf_macComputed _ hwf, keyOperand_eq hkey, hmessage]

/-- Settles O26: the context after the updates is `macPrepared`, so `macPrepared_tag` gives the tag, and
`exec_cmacCompute_tag` the same tag in one command. -/
theorem streamingEqualsOneShot : Obligations.StreamingEqualsOneShot := by
  intro s ctx pieces hslot hwf hpieces hok
  rw [macInvocations_eq] at hok
  obtain ⟨hokStream, hokFinish⟩ := okFor_add.1 hok
  obtain ⟨hcfg, hwfU, hmac, horacle⟩ := streamUpdates_runCommand_cmacInit hslot hwf hpieces hokStream
  obtain ⟨hlen, hmulti⟩ := macPrepared_lengths (s.slot ctx).mac (keyOperand s) pieces.flatten
  obtain ⟨-, -, -, hphase⟩ := macUpdated_keys pieces.flatten (macInitialized (s.slot ctx).mac (keyOperand s))
  generalize streamUpdates ctx pieces (runCommand (.cmacInit ctx) s) = u at *
  have hready : (u.slot ctx).mac.phase = .ready := by rw [hmac, macPrepared, hphase, macInitialized]
  have htag : ∀ j : Fin 16,
      (macSlotFinished ctx u).mem.read (0x2000 + j.val) = (cmac (keyOperand s) pieces.flatten)[j] := by
    intro j
    rw [read_obuf_macSlotFinished ctx hwfU, hmac, macPrepared_tag]
  refine ⟨macSlotFinished ctx u, u, keyOperand s, pieces.flatten.length, rfl, rfl, ?_, ?_, ?_, ?_,
    endedWith_endCommand .ok _, keyOperand_getElem s, htag, fun v ilen hilen hv hwfV hkey hdata hokV => ?_⟩
  · rw [hmac, hlen]
  · rw [hmac, hmulti]
  · rw [horacle, macBlocks_sub_one]
  · rw [exec_cmacFinish (hcfg ▸ hslot), macSlotFinish_of_oracleOk hready (horacle ▸ hokFinish)]
  · obtain ⟨w, hexec, hw⟩ := exec_cmacCompute_tag hilen hv hwfV hkey hdata hokV
    exact ⟨w, hexec, fun j => (hw j).trans (htag j).symm⟩

end Sys2Proof.Machine

/-! ## The CKDF: `KDF.EXTRACT`, and `KDF.EXPAND` against the function `expand` -/

namespace Sys2Proof.Machine

/-! ### `KDF.EXTRACT` (43_ckdf.md R181) -/

/-- `KDF.EXTRACT` is the one-shot tag of `CMAC.COMPUTE`, the salt in the place of the key. -/
theorem exec_kdfExtract (ilen : BitVec 12) (s : State) : exec (.kdfExtract ilen) s = exec (.cmacCompute ilen) s := by
  rw [exec_eq, exec_eq, performed, performed]

/-- Settles O18: every case is the case of `CMAC.COMPUTE`. -/
theorem kdfExtractRule : Obligations.KdfExtractRule := by
  intro s ilen
  rw [exec_kdfExtract]
  exact cmacComputeRule s ilen

/-! ### The number of invocations (43_ckdf.md R185) -/

/-- An iteration derives the subkeys at most once. -/
theorem derivations_le_one (i : Nat) : (if derivesSubkeys i then 1 else 0) ≤ 1 := by
  split <;> omega

theorem macBlocks_expandLength_one (n : Nat) : macBlocks (expandLength n 1) = (n + 16) / 16 := by
  rw [expandLength, if_pos rfl, macBlocks]
  omega

theorem macBlocks_expandLength_later (n i : Nat) : macBlocks (expandLength n (i + 2)) = (n + 32) / 16 := by
  rw [expandLength, if_neg (by omega), macBlocks]
  omega

theorem expandInvocations_le_derivedAnew (n : Nat) :
    ∀ count, expandInvocations n count ≤ expandMessageInvocations n count + count
  | 0 => Nat.le_refl _
  | i + 1 => by
    have ih := expandInvocations_le_derivedAnew n i
    have hderive := derivations_le_one (i + 1)
    rw [expandInvocations, expandMessageInvocations]
    omega

/-- The first iteration derives the subkeys, so they are derived at least once. -/
theorem derivedOnce_le_expandInvocations (n : Nat) :
    ∀ i, expandMessageInvocations n (i + 1) + 1 ≤ expandInvocations n (i + 1)
  | 0 => by
    have hfirst : derivesSubkeys (0 + 1) = true := rfl
    rw [expandInvocations, expandMessageInvocations, if_pos hfirst, expandInvocations, expandMessageInvocations]
    omega
  | i + 1 => by
    have ih := derivedOnce_le_expandInvocations n i
    rw [expandInvocations, expandMessageInvocations]
    omega

theorem expandMessageInvocations_succ (n : Nat) :
    ∀ i, expandMessageInvocations n (i + 1) = (n + 16) / 16 + i * ((n + 32) / 16)
  | 0 => by rw [expandMessageInvocations, expandMessageInvocations, macBlocks_expandLength_one]; omega
  | i + 1 => by
    rw [expandMessageInvocations, expandMessageInvocations_succ n i, macBlocks_expandLength_later, Nat.succ_mul,
      Nat.add_assoc]

/-- Settles O20: both bounds and the closed form by induction on the number of iterations. -/
theorem expandInvocationCounts : Obligations.ExpandInvocationCounts := by
  intro n count
  refine ⟨fun hzero => ?_, fun hpos => ⟨?_, expandInvocations_le_derivedAnew n count⟩,
    expandMessageInvocations_succ n count⟩
  · rw [hzero, expandInvocations]
  · obtain ⟨i, rfl⟩ := Nat.exists_eq_succ_of_ne_zero (Nat.one_le_iff_ne_zero.1 hpos)
    exact derivedOnce_le_expandInvocations n i

/-! ### The function `expand` (43_ckdf.md R182) -/

theorem length_expandBlock_succ (prk : Block) (info : List Byte) (i : Nat) :
    (expandBlock prk info (i + 1)).length = 16 := by
  simp [expandBlock]

/-- `T[i]`, which goes before `info` in the message of iteration `i + 1`, makes it as long as R182 says. -/
theorem length_expandMessage (prk : Block) (info : List Byte) (i : Nat) :
    (expandMessage (expandBlock prk info i) info (i + 1)).length = expandLength info.length (i + 1) := by
  cases i with
  | zero => simp [expandMessage, expandBlock, expandLength]
  | succ i =>
    simp only [expandMessage, List.length_append, length_expandBlock_succ, List.length_singleton, expandLength]
    rw [if_neg (by omega)]
    omega

theorem length_expandBlocks (prk : Block) (info : List Byte) : ∀ n, (expandBlocks prk info n).length = 16 * n
  | 0 => rfl
  | n + 1 => by
    rw [expandBlocks, List.length_append, length_expandBlocks prk info n, length_expandBlock_succ, Nat.mul_succ]

theorem length_expand (prk : Block) (info : List Byte) (len : Nat) : (expand prk info len).length = len := by
  rw [expand, List.length_take, length_expandBlocks, expandCount]
  omega

/-! ### One iteration, whichever way it comes by the subkeys (43_ckdf.md R182, R185) -/

section Iteration

variable {i : Nat} {c : CmacContext} {prk : Block} (h : MayStart i c (macInitialized c prk))
include h

/-- An iteration that does not derive the subkeys starts from a context that holds them. -/
theorem expandStarted_eq_macInitialized : expandStarted i c prk = macInitialized c prk := by
  rcases h with hderives | ⟨hkey, hkey1, hkey2⟩
  · exact if_pos hderives
  · exact expandStarted_eq hkey hkey1 hkey2

theorem expandStepDone_eq (m : List Byte) :
    expandStepDone i c prk m = (cmac prk m, { macPrepared c prk m with phase := .finished }) := by
  rw [← macPrepared_tag c prk m, expandStepDone, expandStarted_eq_macInitialized h, macPrepared]

theorem expandStepCalls_eq (m : List Byte) :
    expandStepCalls i c prk m = (if derivesSubkeys i then 1 else 0) + macBlocks m.length := by
  have hpos : 1 ≤ macBlocks m.length := Nat.le_max_left _ _
  rw [expandStepCalls, expandStarted_eq_macInitialized h, macUpdateFolds_macInitialized, Nat.sub_add_cancel hpos]

end Iteration

/-- The context of a tag under `prk` holds `prk` and its subkeys, so any iteration may start from it. -/
theorem mayStart_macPrepared (i : Nat) (c d : CmacContext) (prk : Block) (m : List Byte) :
    MayStart i { macPrepared c prk m with phase := .finished } (macInitialized d prk) := by
  obtain ⟨hkey, hkey1, hkey2, -⟩ := macUpdated_keys m (macInitialized c prk)
  exact .inr ⟨hkey, hkey1, hkey2⟩

/-! ### The iterations (43_ckdf.md R182, R185) -/

/-- `n` iterations after the first `i` add the blocks `T[i+1]` to `T[i+n]` and the invocations of those iterations. -/
theorem expandDone_and_calls (prk : Block) (info : List Byte) : ∀ (n i : Nat) (c : CmacContext),
    MayStart (i + 1) c (macInitialized c prk) →
      expandBlocks prk info i ++ (expandDone prk info n (i + 1) (expandBlock prk info i) c).1 =
        expandBlocks prk info (i + n) ∧
      expandInvocations info.length i + expandCalls prk info n (i + 1) (expandBlock prk info i) c =
        expandInvocations info.length (i + n)
  | 0, i, c, _ => ⟨List.append_nil _, rfl⟩
  | n + 1, i, c, h => by
    have hblock : (cmac prk (expandMessage (expandBlock prk info i) info (i + 1))).toList =
        expandBlock prk info (i + 1) := rfl
    obtain ⟨hblocks, hcalls⟩ := expandDone_and_calls prk info n (i + 1) _ (mayStart_macPrepared (i + 1 + 1) c _ prk
      (expandMessage (expandBlock prk info i) info (i + 1)))
    rw [Nat.add_right_comm i 1 n, expandBlocks, List.append_assoc] at hblocks
    rw [Nat.add_right_comm i 1 n, expandInvocations, Nat.add_assoc] at hcalls
    simp only [expandDone, expandCalls, expandStepDone_eq h, expandStepCalls_eq h, length_expandMessage, hblock]
    exact ⟨hblocks, hcalls⟩

/-- The iterations of `KDF.EXPAND` make the invocations counted by `expandInvocations` and give `T[1]` to `T[n]`,
whatever `kctx` held. -/
theorem expandLoop_makes_expandBlocks (prk : Block) (info : List Byte) (n : Nat) (c : CmacContext) :
    Makes (fun o => expandLoop prk info n 1 [] c o) (expandInvocations info.length n)
      (expandBlocks prk info n, (expandDone prk info n 1 [] c).2) := by
  obtain ⟨hblocks, hcalls⟩ := expandDone_and_calls prk info n 0 c (.inl rfl)
  simp only [Nat.zero_add, expandBlock, expandBlocks, List.nil_append, expandInvocations] at hblocks hcalls
  rw [← hblocks, ← hcalls]
  exact expandLoop_makes prk info n 1 [] c

/-! ### A byte string delivered to `OBUF` (10_state.md R32) -/

theorem read_obuf_storeResult {s : State} (bs : List Byte) (hwf : s.mem.wf = true) (j : Nat) (hj : j < bs.length) :
    (storeResult bs s).mem.read (0x2000 + j) = bs[j] :=
  Memory.read_writeBytes_inside bs s.mem obufBase j hj hwf

theorem sameBytesOutside_storeResult (s : State) (bs : List Byte) :
    SameBytesOutside s (storeResult bs s) 0x2000 bs.length :=
  fun _ ha => Memory.read_writeBytes_outside bs s.mem obufBase _ ha

/-! ### `KDF.EXPAND` (43_ckdf.md R183) -/

theorem exec_kdfExpand (ilen olen : BitVec 12) (s : State) :
    exec (.kdfExpand ilen olen) s = .next (kdfExpandToOutput ilen.toNat olen.toNat s) :=
  exec_eq _ s

/-- The bytes `KDF.EXPAND` delivers when the oracle succeeds. -/
def expandOutput (n len : Nat) (s : State) : List Byte := expand (keyOperand s) (dataOperand s n) len

/-- The state `KDF.EXPAND` leaves when the oracle succeeds. -/
def kdfExpanded (n len : Nat) (s : State) : State :=
  endCommand .ok (storeResult (expandOutput n len s)
    ((s.setKctx (expandCommandDone n len s).2).setOracle (s.oracle.skip (expandInvocations n (expandCount len)))))

theorem length_expandOutput (n len : Nat) (s : State) : (expandOutput n len s).length = len := length_expand _ _ _

theorem read_obuf_kdfExpanded {s : State} (n len : Nat) (hwf : s.mem.wf = true) (j : Nat)
    (hj : j < (expandOutput n len s).length) :
    (kdfExpanded n len s).mem.read (0x2000 + j) = (expandOutput n len s)[j] :=
  read_obuf_storeResult (s := s) _ hwf j hj

theorem sameBytesOutside_kdfExpanded (n len : Nat) (s : State) :
    SameBytesOutside s (kdfExpanded n len s) 0x2000 len := by
  have hbytes := sameBytesOutside_storeResult s (expandOutput n len s)
  rwa [length_expandOutput] at hbytes

theorem kdfExpandToOutput_of_range {n : Nat} (len : Nat) {s : State} (h : s.cfg.ibufSize < n) :
    kdfExpandToOutput n len s = checkFailed 0x07 s :=
  if_pos h

section InRange

variable {n len : Nat} {s : State} (hn : n ≤ s.cfg.ibufSize)
include hn

theorem kdfExpandToOutput_of_bound (hlen : kdfMaxOut < len) : kdfExpandToOutput n len s = checkFailed 0x04 s := by
  rw [kdfExpandToOutput, if_neg hn.not_gt, if_pos hlen]
  rfl

variable (hlen : len ≤ kdfMaxOut)
include hlen

theorem kdfExpandToOutput_of_oracleError {k : Nat} {e : OracleError} (hk : k < expandInvocations n (expandCount len))
    (h : FailsAt s.oracle k e) :
    kdfExpandToOutput n len s = endCommand (.oracleFailure e) (s.loseKctx.setOracle (s.oracle.skip (k + 1))) := by
  have hmakes := expandLoop_makes_expandBlocks (keyOperand s) (dataOperand s n) (expandCount len) s.kctx
  rw [length_dataOperand] at hmakes
  simp only [kdfExpandToOutput, if_neg hn.not_gt, if_neg hlen.not_gt, hmakes.2 _ k e hk h]

theorem kdfExpandToOutput_of_oracleOk (h : OkFor s.oracle (expandInvocations n (expandCount len))) :
    kdfExpandToOutput n len s = kdfExpanded n len s := by
  have hmakes := expandLoop_makes_expandBlocks (keyOperand s) (dataOperand s n) (expandCount len) s.kctx
  rw [length_dataOperand] at hmakes
  simp only [kdfExpandToOutput, if_neg hn.not_gt, if_neg hlen.not_gt, hmakes.1 _ h, kdfExpanded, expandOutput, expand,
    expandCommandDone]

end InRange

/-- Settles O19: the four cases of the rule, the output bytes by `expandLoop_makes_expandBlocks`. -/
theorem kdfExpandRule : Obligations.KdfExpandRule := by
  intro s ilen olen count
  have hframe : CommandFrame s (kdfExpandToOutput ilen.toNat olen.toNat s) :=
    performed_commandFrame (.kdfExpand ilen olen) s
  rw [exec_kdfExpand]
  refine ⟨fun hn => ?_, fun hn hlen => ?_, fun hn hlen e k hk hfail => ?_, fun hn hlen hok hwf => ?_⟩
  · rw [kdfExpandToOutput_of_range _ hn]
  · rw [kdfExpandToOutput_of_bound hn hlen]
  · rw [kdfExpandToOutput_of_oracleError hn hlen hk hfail] at hframe ⊢
    exact ⟨_, rfl, code_oracleFailure e ▸ endedWith_endCommand _ _, rfl, fun _ => rfl, fun _ => rfl, rfl, hframe⟩
  · rw [kdfExpandToOutput_of_oracleOk hn hlen hok] at hframe ⊢
    exact ⟨_, keyOperand s, expandOutput ilen.toNat olen.toNat s, rfl, endedWith_endCommand .ok _,
      keyOperand_getElem s, rfl, length_expandOutput _ _ s, read_obuf_kdfExpanded _ _ hwf,
      sameBytesOutside_kdfExpanded _ _ s, fun _ => rfl, rfl, rfl, hframe⟩

end Sys2Proof.Machine

/-! ## The claim, the issue and the perform step -/

namespace Sys2Proof.Machine

/-! ### The accesses of 44_control.md, each as one event -/

/-- A step at which an event waits is that event, on the state without it (20_memory.md R74). -/
theorem step_of_inbox {s : State} {e : Event} {rest : List Event} (h : s.inbox = e :: rest) :
    step s = handleEvent e (s.setInbox rest) := by
  simp [step, h]

theorem handleEvent_read_refused {s : State} {off : Nat} {n : Width} (h : ¬ ReadAdmitted s off n) :
    ∃ cause, handleEvent (.host (.read off n)) s = .fault (.accessFault cause) :=
  (busAccess_next_or_fault (refusal_read_eq_none_iff s off n)).2 h

theorem handleEvent_write_refused {s : State} {off : Nat} {n : Width} {v : Word} (h : ¬ WriteAdmitted s off n) :
    ∃ cause, handleEvent (.host (.write off n v)) s = .fault (.accessFault cause) :=
  (busAccess_next_or_fault (refusal_write_eq_none_iff s off n v)).2 h

/-- A read of `ACQUIRE` is admitted in every state (44_control.md R201). -/
theorem handleEvent_acquire (s : State) :
    handleEvent (.host (.read 0x0008 .word)) s = .next { s with
      busy := true
      collisions := if s.busy then s.collisions + 1 else s.collisions
      reply := .data (if s.busy then 0x00000000 else 0x00000001) } := by
  have hp : placeOf s.cfg 0x0008 = .acquire := by simp [placeOf]
  have hread : readPlace 0x0008 .word s = acquireClaim s := by simp [readPlace, hp]
  rw [handleEvent, busAccess_readWord hp rfl rfl fun _ => rfl, hread]
  rcases acquireClaim_cases s with ⟨hbusy, h⟩ | ⟨hbusy, h⟩ <;> simp [h, hbusy, State.setReply]

/-- A write of `RELEASE` is admitted while no command is in flight (44_control.md R202). -/
theorem handleEvent_release {s : State} (v : Word) (hrun : s.run = false) :
    handleEvent (.host (.write 0x000C .word v)) s = .next { s with busy := false, reply := .written } := by
  have hp : placeOf s.cfg 0x000C = .release := by simp [placeOf]
  rw [handleEvent, busAccess_write ((refusal_write_eq_none_iff _ _ _ _).2 ⟨rfl, .inr (.inl ⟨hrun, rfl, rfl⟩)⟩)]
  simp [writePlace, hp, releaseClaim, State.setReply]

/-- A write of a word to `CMD` is admitted in every state, and is an issue (44_control.md R204). -/
theorem handleEvent_issue (s : State) (w : Word) :
    handleEvent (.host (.write 0x0000 .word w)) s = .next ((issue w s).setReply .written) := by
  have hp : placeOf s.cfg 0x0000 = .cmd := by simp [placeOf]
  rw [handleEvent, busAccess_write ((refusal_write_eq_none_iff _ _ _ _).2 ⟨rfl, .inl ⟨rfl, rfl⟩⟩)]
  simp [writePlace, hp]

theorem handleEvent_issue_of_run {s : State} (w : Word) (hrun : s.run = true) :
    handleEvent (.host (.write 0x0000 .word w)) s =
      .next { s with reply := .written, collisions := s.collisions + 1 } := by
  rw [handleEvent_issue]
  simp [issue, hrun, countCollision, State.setReply]

theorem handleEvent_issue_of_free {s : State} (w : Word) (hrun : s.run = false) (hbusy : s.busy = false) :
    handleEvent (.host (.write 0x0000 .word w)) s =
      .next { s with reply := .written, result := 0x08, done := true } := by
  rw [handleEvent_issue]
  simp [issue, hrun, hbusy, CommandResult.code, State.setReply]

theorem handleEvent_issue_of_held {s : State} (w : Word) (hrun : s.run = false) (hbusy : s.busy = true) :
    handleEvent (.host (.write 0x0000 .word w)) s =
      .next { s with reply := .written, cmdLatch := w, run := true, done := false } := by
  rw [handleEvent_issue]
  simp [issue, hrun, hbusy, State.setReply]

/-! ### `ACQUIRE`, `RELEASE` and `CMD` -/

/-- Settles O34: of the offsets of `ACQUIRE` the read is admitted at the first one only, as a word. -/
theorem acquireTestAndSet : Obligations.AcquireTestAndSet := by
  refine fun s rest => ⟨fun hs => ?_, fun off n hlo hhi hne hs => ?_⟩ <;> rw [step_of_inbox hs]
  · exact handleEvent_acquire _
  · apply handleEvent_read_refused
    rintro ⟨-, h⟩
    rcases h with ⟨rfl, hoff⟩ | ⟨-, -, h, -⟩ | ⟨-, -, h, -⟩ | ⟨-, h, -⟩ | ⟨-, h, -⟩
    · obtain rfl : off = 0x0008 := by omega
      simp at hne
    all_goals omega

/-- Settles O35. -/
theorem releaseClearsClaim : Obligations.ReleaseClearsClaim := by
  refine fun s v rest hs => ⟨fun hrun => ?_, fun hrun => ?_⟩ <;> rw [step_of_inbox hs]
  · exact handleEvent_release v hrun
  · exact handleEvent_write_refused (by simp [WriteAdmitted, hrun])

/-- Settles O36: below `0x0004` the write is admitted at offset 0 only, as a word. -/
theorem issueOutcomes : Obligations.IssueOutcomes := by
  refine fun s rest => ⟨fun w hs => ?_, fun off n w hhi hne hs => ?_⟩ <;> rw [step_of_inbox hs]
  · exact ⟨fun hrun => handleEvent_issue_of_run w hrun, fun hrun hbusy => handleEvent_issue_of_free w hrun hbusy,
      fun hrun hbusy => handleEvent_issue_of_held w hrun hbusy⟩
  · apply handleEvent_write_refused
    rintro ⟨-, h⟩
    rcases h with ⟨rfl, rfl⟩ | ⟨-, -, h⟩ | ⟨-, -, h, -⟩ | ⟨-, h, -⟩ | ⟨-, h, -⟩
    · simp at hne
    all_goals omega

/-! ### The perform step (44_control.md R206) -/

theorem engineTurn_of_idle {s : State} (hrun : s.run = false) : engineTurn s = .next s := by
  simp [engineTurn, hrun]

theorem engineTurn_of_decode {s : State} {i : Instr} (hrun : s.run = true) (hd : decode s.cfg s.cmdLatch = .ok i) :
    engineTurn s = exec i s := by
  simp [engineTurn, perform, hrun, hd]

/-- Settles O7: the state the turn is on has the flags, the parameters and the latch of the state before the step. -/
theorem stepRunsDecodedCommand : Obligations.StepRunsDecodedCommand := by
  intro s b hturn
  rw [step_engineTurn hturn, hturn.eq]
  exact ⟨fun i hrun hd => engineTurn_of_decode hrun hd, fun hrun => engineTurn_of_idle hrun⟩

/-- Settles O8: the issue is accepted, and the word of a well-formed command decodes to it. -/
theorem issuedCommandIsPerformed : Obligations.IssuedCommandIsPerformed := by
  intro s i rest hbusy hrun hwf hs
  refine ⟨_, ?_, rfl, ?_⟩
  · exact ((issueOutcomes s _).1 _ hs).2.2 hrun hbusy
  · exact (stepRunsDecodedCommand _ _ (.inr ⟨rest, rfl, rfl⟩)).1 i rfl (decodeOfEncode s.cfg i hwf)

/-- With a command in flight, legal or not, the engine's turn ends it, and nothing but the parts an engine works on has
changed before that end. -/
theorem engineTurn_ends {s : State} (hrun : s.run = true) :
    ∃ r x, engineTurn s = .next (endCommand r x) ∧ EngineFrame s x := by
  rcases engineTurn_cases s with ⟨hidle, -⟩ | ⟨-, i, -, h⟩ | ⟨-, e, -, h⟩
  · simp [hrun] at hidle
  · obtain ⟨r, x, hx, hframe⟩ := performed_shape i s
    exact ⟨r, x, by rw [h, exec_eq, hx], hframe⟩
  · exact ⟨.illegalCommand, s, h, EngineFrame.refl s⟩

theorem commandFrame_endCommand {s x : State} (r : CommandResult) (h : EngineFrame s x) :
    CommandFrame s (endCommand r x) := by
  rw [h]
  exact ⟨rfl, rfl, rfl, rfl, rfl, rfl⟩

theorem countFail_eq (r : CommandResult) (n : Word) : r.countFail n = if isOracleCode r.code then n + 1 else n := by
  rcases countFail_cases r n with ⟨hcode, hcount⟩ | ⟨hcode, hcount⟩ <;> simp [hcode, hcount]

/-- Settles O9: every perform step is the end of a command (44_control.md R206). -/
theorem performEndsCommand : Obligations.PerformEndsCommand := by
  intro s b hturn hrun
  have hrunb : b.run = true := by rw [hturn.eq]; exact hrun
  have hfails : b.oracleFails = s.oracleFails := by rw [hturn.eq]
  obtain ⟨r, x, hx, hframe⟩ := engineTurn_ends hrunb
  have hfails' : x.oracleFails = s.oracleFails := by rw [hframe, hfails]
  refine ⟨_, (step_engineTurn hturn).trans hx, rfl, rfl, commandFrame_endCommand r hframe, ?_⟩
  rw [endCommand_oracleFails, endCommand_result, countFail_eq, hfails']

/-! ### Every command finishes (44_control.md R207) -/

theorem engineTurn_run {s t : State} (h : engineTurn s = .next t) : t.run = false := by
  cases hrun : s.run with
  | false =>
    obtain rfl : s = t := by simpa [engineTurn_of_idle hrun] using h
    exact hrun
  | true =>
    obtain ⟨r, x, hx, -⟩ := engineTurn_ends hrun
    obtain rfl : endCommand r x = t := by simpa [hx] using h
    rfl

theorem performed_inbox (i : Instr) (s : State) : (performed i s).inbox = s.inbox := by
  obtain ⟨r, x, hx, hframe⟩ := performed_shape i s
  rw [hx, endCommand_inbox, hframe]

/-- No event adds an event or takes one away. -/
theorem eventEffect_inbox {s t : State} {e : Event} (h : EventEffect s e t) : t.inbox = s.inbox := by
  cases h with
  | command _ i _ => exact performed_inbox i s
  | _ => rfl

/-- A step takes the first event from those that wait. -/
theorem step_inbox {s t : State} {e : Event} {rest : List Event} (hs : s.inbox = e :: rest) (h : step s = .next t) :
    t.inbox = rest :=
  eventEffect_inbox (handleEvent_effect ((step_of_inbox hs).symm.trans h))

theorem runSteps_succ_next {n : Nat} {s u : State} (h : runSteps (n + 1) s = .next u) :
    ∃ t, step s = .next t ∧ runSteps n t = .next u := by
  rw [runSteps] at h
  cases hs : step s with
  | next t => exact ⟨t, rfl, by simpa [hs] using h⟩
  | fault r => simp [hs] at h
  | refused r => simp [hs] at h

/-- The steps that take the waiting events one by one, and then the engine's turn. -/
theorem runSteps_inbox_run : ∀ (q : List Event) {s t : State}, s.inbox = q →
    runSteps (q.length + 1) s = .next t → t.run = false
  | [], s, t, hs, h => by
    obtain ⟨u, hu, ht⟩ := runSteps_succ_next h
    obtain rfl : u = t := by simpa [runSteps] using ht
    exact engineTurn_run ((step_engineTurn (.inl ⟨hs, rfl⟩)).symm.trans hu)
  | _ :: rest, _, _, hs, h => by
    obtain ⟨u, hu, ht⟩ := runSteps_succ_next h
    exact runSteps_inbox_run rest (step_inbox hs hu) ht

/-- Settles O10, by induction on the events that wait. -/
theorem commandsFinish : Obligations.CommandsFinish :=
  fun s _ h => runSteps_inbox_run s.inbox rfl h

/-! ### Contention for the claim (44_control.md R209) -/

theorem eventEffect_leavesClaim {s t : State} {e : Event} (h : EventEffect s e t) (he : leavesClaim e = true) :
    t.busy = s.busy ∧ t.collisions = s.collisions := by
  cases h with
  | command _ i _ => exact ⟨performed_busy i s, performed_collisions i s⟩
  | reset | acquireHeld | acquireTaken | issueAbandoned | issueRefused | issueAccepted | released =>
    simp [leavesClaim] at he
  | _ => exact ⟨rfl, rfl⟩

theorem runEvents_cons_next {e : Event} {es : List Event} {s u : State} (h : runEvents (e :: es) s = .next u) :
    ∃ t, handleEvent e s = .next t ∧ runEvents es t = .next u := by
  rw [runEvents] at h
  cases hs : handleEvent e s with
  | next t => exact ⟨t, rfl, by simpa [hs] using h⟩
  | fault r => simp [hs] at h
  | refused r => simp [hs] at h

/-- Events that leave the claim alone, and then one more. -/
theorem runEvents_leavesClaim_concat {last : Event} {u : State} : ∀ (mid : List Event) {s : State},
    (∀ e ∈ mid, leavesClaim e = true) → runEvents (mid ++ [last]) s = .next u →
    ∃ t, t.busy = s.busy ∧ t.collisions = s.collisions ∧ handleEvent last t = .next u
  | [], s, _, h => by
    obtain ⟨v, hv, hu⟩ := runEvents_cons_next h
    obtain rfl : v = u := by simpa [runEvents] using hu
    exact ⟨s, rfl, rfl, hv⟩
  | e :: mid, s, hmid, h => by
    obtain ⟨he, hrest⟩ := List.forall_mem_cons.1 hmid
    obtain ⟨v, hv, hu⟩ := runEvents_cons_next h
    obtain ⟨hbusy, hcollisions⟩ := eventEffect_leavesClaim (handleEvent_effect hv) he
    obtain ⟨t, htbusy, htcollisions, ht⟩ := runEvents_leavesClaim_concat mid hrest hu
    exact ⟨t, htbusy.trans hbusy, htcollisions.trans hcollisions, ht⟩

/-- Settles O37: the first read of `ACQUIRE` finds the claim free and the second finds it held; the first issue finds no
command in flight and the second finds one. -/
theorem claimExcludes : Obligations.ClaimExcludes := by
  constructor
  · intro s t u mid hfree hmid hfirst hrest
    obtain ⟨v, hbusy, hcollisions, hsecond⟩ := runEvents_leavesClaim_concat mid hmid hrest
    rw [handleEvent_acquire] at hfirst hsecond
    cases hfirst
    cases hsecond
    simp [hfree, hbusy, hcollisions]
  · intro s w w' hbusy hrun
    exact ⟨_, _, handleEvent_issue_of_held w hrun hbusy, handleEvent_issue_of_run w' rfl, rfl, rfl, rfl⟩

end Sys2Proof.Machine

/-! ## The result codes: their table, which of them a command can end with, none of them reserved -/

namespace Sys2Proof.Machine

/-! ### The table of codes (60_exceptions.md R260) -/

/-- Settles O56: the table, row by row. -/
theorem resultCodes : Obligations.ResultCodes :=
  ⟨rfl, rfl, rfl, rfl, rfl, rfl, rfl, rfl, rfl⟩

/-- No result has a reserved code. -/
theorem toNat_code_le (r : CommandResult) : r.code.toNat ≤ 8 := by
  rcases r with _ | (_ | _) | _ | _ | _ | _ | _ | _ <;> decide

theorem resultInv_performed (i : Instr) (s : State) : ResultInv (performed i s) := by
  obtain ⟨r, x, hx, -⟩ := performed_shape i s
  rw [hx]
  exact toNat_code_le r

theorem eventEffect_keeps_resultInv {s t : State} {e : Event} (h : EventEffect s e t) (hs : ResultInv s) :
    ResultInv t := by
  cases h with
  | reset => exact toNat_code_le .ok
  | illegal _ _ _ => exact toNat_code_le .illegalCommand
  | command _ i _ => exact resultInv_performed i s
  | issueRefused _ _ _ => exact toNat_code_le .noClaim
  | _ => exact hs

/-- Settles O51: only reset, the end of a perform step and a refused issue write `RESULT`, each of them the code of a
result. -/
theorem stepKeepsResultCodes : Obligations.StepKeepsResultCodes := by
  intro s t hs h
  exact step_keeps (fun _ _ hs => hs) (fun _ _ _ he => eventEffect_keeps_resultInv he) hs h

/-! ### The results of each command (60_exceptions.md R264) -/

theorem isOracleCode_endCommand (e : OracleError) (s : State) :
    isOracleCode (endCommand (.oracleFailure e) s).result = true := by
  simp

/-- Besides what its rule says, a command on a slot can end with `IllegalCommand`. -/
theorem onSlot_result (i : SlotId) (s : State) (f : State → State) :
    (onSlot i s f).result = 0x05 ∨ (onSlot i s f).result = (f s).result := by
  rcases onSlot_cases i s f with ⟨-, h⟩ | ⟨-, h⟩ <;> rw [h]
  · exact .inl rfl
  · exact .inr rfl

theorem ctrApply_result (i : SlotId) (n : Nat) (s : State) :
    (ctrApply i n s).result = 0x00 ∨ isOracleCode (ctrApply i n s).result = true ∨
      (ctrApply i n s).result = 0x03 ∨ (ctrApply i n s).result = 0x06 := by
  rcases ctrApply_cases i n s with ⟨-, h⟩ | ⟨-, -, h⟩ | ⟨-, -, e, -, h⟩ | ⟨-, -, -, ks, -, h⟩ <;> rw [h]
  · exact .inr (.inr (.inl rfl))
  · exact .inr (.inr (.inr rfl))
  · exact .inr (.inl (isOracleCode_endCommand e _))
  · exact .inl rfl

theorem macSlotInit_result (i : SlotId) (s : State) :
    (macSlotInit i s).result = 0x00 ∨ isOracleCode (macSlotInit i s).result = true := by
  rcases macSlotInit_cases i s with ⟨-, h⟩ | ⟨e, -, h⟩ <;> rw [h]
  · exact .inl rfl
  · exact .inr (isOracleCode_endCommand e _)

/-- An update invokes the oracle for its folds only. -/
theorem macSlotUpdate_result (i : SlotId) (n : Nat) (s : State) :
    (macSlotUpdate i n s).result = 0x00 ∨
      (isOracleCode (macSlotUpdate i n s).result = true ∧
        ((s.slot i).mac.partialLength.toNat ≤ 16 → 1 ≤ macFolds (s.slot i).mac.partialLength.toNat n)) ∨
      (macSlotUpdate i n s).result = 0x06 ∨ (macSlotUpdate i n s).result = 0x07 := by
  rcases macSlotUpdate_cases i n s with
    ⟨-, h⟩ | ⟨-, -, h⟩ | ⟨-, -, -, h⟩ | ⟨-, -, k, e, hk, -, h⟩ <;> rw [h]
  · exact .inr (.inr (.inr rfl))
  · exact .inr (.inr (.inl rfl))
  · exact .inl rfl
  · refine .inr (.inl ⟨isOracleCode_endCommand e _, fun hp => ?_⟩)
    rw [← macUpdateFolds_dataOperand hp n]
    exact Nat.one_le_of_lt hk

theorem macSlotFinish_result (i : SlotId) (s : State) :
    (macSlotFinish i s).result = 0x00 ∨ isOracleCode (macSlotFinish i s).result = true ∨
      (macSlotFinish i s).result = 0x06 := by
  rcases macSlotFinish_cases i s with ⟨-, h⟩ | ⟨-, -, h⟩ | ⟨-, e, -, h⟩ <;> rw [h]
  · exact .inr (.inr rfl)
  · exact .inl rfl
  · exact .inr (.inl (isOracleCode_endCommand e _))

theorem macToOutput_result (n : Nat) (s : State) :
    (macToOutput n s).result = 0x00 ∨ isOracleCode (macToOutput n s).result = true ∨
      (macToOutput n s).result = 0x07 := by
  rcases macToOutput_cases n s with ⟨-, h⟩ | ⟨-, -, c, -, h⟩ | ⟨-, k, e, -, -, h⟩ <;> rw [h]
  · exact .inr (.inr rfl)
  · exact .inl rfl
  · exact .inr (.inl (isOracleCode_endCommand e _))

/-- Without output bytes `KDF.EXPAND` has no iterations (43_ckdf.md R185). -/
theorem len_pos_of_expandCommandCalls_pos {n len : Nat} {s : State} (h : 0 < expandCommandCalls n len s) : 1 ≤ len := by
  refine Nat.one_le_iff_ne_zero.2 fun hlen => ?_
  subst hlen
  exact Nat.lt_irrefl 0 h

theorem kdfExpandToOutput_result (n len : Nat) (s : State) :
    (kdfExpandToOutput n len s).result = 0x00 ∨
      (isOracleCode (kdfExpandToOutput n len s).result = true ∧ 1 ≤ len) ∨
      (kdfExpandToOutput n len s).result = 0x04 ∨ (kdfExpandToOutput n len s).result = 0x07 := by
  rcases kdfExpandToOutput_cases n len s with
    ⟨-, h⟩ | ⟨-, -, h⟩ | ⟨-, -, -, h⟩ | ⟨-, -, k, e, hk, -, h⟩ <;> rw [h]
  · exact .inr (.inr (.inr rfl))
  · exact .inr (.inr (.inl rfl))
  · exact .inl rfl
  · exact .inr (.inl ⟨isOracleCode_endCommand e _, len_pos_of_expandCommandCalls_pos (Nat.zero_lt_of_lt hk)⟩)

/-- Settles O22: a command on a slot ends with `IllegalCommand` or as its rule does, any other as its rule does. -/
theorem resultsOfEachCommand : Obligations.ResultsOfEachCommand := by
  intro i s t h
  obtain rfl : performed i s = t := by simpa [exec_eq] using h
  cases i with
  | ctrInit c => exact (onSlot_result c s (ctrLoad c)).symm
  | ctrCrypt c n =>
    rcases onSlot_result c s (ctrApply c n.toNat) with hill | heq
    · exact .inr (.inr (.inr (.inl hill)))
    · exact (heq.symm ▸ ctrApply_result c n.toNat s).imp_right (Or.imp_right (Or.imp_right .inr))
  | cmacInit c =>
    rcases onSlot_result c s (macSlotInit c) with hill | heq
    · exact .inr (.inr hill)
    · exact (heq.symm ▸ macSlotInit_result c s).imp_right .inl
  | cmacUpdate c n =>
    rcases onSlot_result c s (macSlotUpdate c n.toNat) with hill | heq
    · exact .inr (.inr (.inl hill))
    · exact (heq.symm ▸ macSlotUpdate_result c n.toNat s).imp_right (Or.imp_right .inr)
  | cmacFinish c =>
    rcases onSlot_result c s (macSlotFinish c) with hill | heq
    · exact .inr (.inr (.inl hill))
    · exact (heq.symm ▸ macSlotFinish_result c s).imp_right (Or.imp_right .inr)
  | cmacCompute n => exact macToOutput_result n.toNat s
  | kdfExtract n => exact macToOutput_result n.toNat s
  | kdfExpand n olen => exact kdfExpandToOutput_result n.toNat olen.toNat s

end Sys2Proof.Machine
